-- ==== Sys2Proof/Word.lean ====
section
/-! DEFINITION. The words of the block: bytes, byte strings, MAC and IP addresses (00_scope.md rule R11). -/

namespace Sys2Proof

/-- A byte is 8 bits (R11). -/
abbrev Byte := BitVec 8

/-- A byte string: `b[0]` is sent or was received before `b[1]` (R11). -/
abbrev Bytes := List Byte

/-- A MAC address, a 6-byte string, byte 0 first; compared byte for byte (R11). -/
structure Mac where
  b0 : Byte
  b1 : Byte
  b2 : Byte
  b3 : Byte
  b4 : Byte
  b5 : Byte
deriving DecidableEq, Repr

/-- An IP address, a 4-byte string, byte 0 first; compared byte for byte (R11). -/
structure Ip where
  b0 : Byte
  b1 : Byte
  b2 : Byte
  b3 : Byte
deriving DecidableEq, Repr

/-- The bytes of a MAC address in wire order. -/
def Mac.bytes (m : Mac) : Bytes := [m.b0, m.b1, m.b2, m.b3, m.b4, m.b5]

/-- The bytes of an IP address in wire order. -/
def Ip.bytes (a : Ip) : Bytes := [a.b0, a.b1, a.b2, a.b3]

/-- The all-zero MAC address. -/
def Mac.zero : Mac := ⟨0, 0, 0, 0, 0, 0⟩

/-- The all-zero IP address. -/
def Ip.zero : Ip := ⟨0, 0, 0, 0⟩

/-- `zeros(n)` is `n` bytes of value 0 (R11). -/
def zeros (n : Nat) : Bytes := List.replicate n 0

end Sys2Proof
end

