-- ==== Sys2Proof/Config.lean ====
section
/-! DEFINITION. The configuration record of 00_scope.md rule R7, its legality (R8), the reference
configuration CFG0, the fixed parameters, and the free values (`draw`, R12). -/

namespace Sys2Proof

/-- The OPEN parameters of 00_scope.md rule R7, read-only constants of the block (10_state.md R31). -/
structure Cfg where
  /-- `IF_MAC`, this interface's own MAC (10_state.md R28). -/
  ifMac : Mac
  /-- `IF_IP`, this interface's own IP (10_state.md R29). -/
  ifIp : Ip
  /-- `ETH_MIN_PAYLOAD`, the least payload of a transmitted frame. -/
  ethMinPayload : Nat
  /-- `ETH_MTU`, the largest frame payload the link layer accepts. -/
  ethMtu : Nat
  /-- `ETH_BROADCAST`, the destination MAC of a broadcast. -/
  ethBroadcast : Mac
  /-- `ETHERTYPE_IP`. -/
  ethertypeIp : BitVec 16
  /-- `ETHERTYPE_ARP`. -/
  ethertypeArp : BitVec 16
  /-- `ARP_HW_ETHER`, the ARP hardware type of Ethernet. -/
  arpHwEther : BitVec 16
  /-- `ARP_PROTO_IP`, the ARP protocol type of IPv4. -/
  arpProtoIp : BitVec 16
  /-- `ARP_TIMEOUT`, lifetime of an `arp_table` entry. -/
  arpTimeout : Nat
  /-- `ARP_PENDING_TIMEOUT`, lifetime of an `arp_pending` entry. -/
  arpPendingTimeout : Nat
  /-- `IP_DEFAULT_TTL`, the time to live of emitted datagrams. -/
  ipDefaultTtl : Byte
  /-- `IP_MF`, the more-fragments bit within the flags+fragment field. -/
  ipMf : BitVec 16
  /-- `IPPROTO_UDP`. -/
  ipprotoUdp : Byte
  /-- `IPPROTO_ICMP`. -/
  ipprotoIcmp : Byte
  /-- `IP_RECOGNISED`, the protocol numbers that cause no protocol-unreachable notification (D17). -/
  ipRecognised : List Byte
  /-- `ICMP_PROTOCOL_UNREACH`, a reason code. -/
  icmpProtocolUnreach : Byte
  /-- `ICMP_PORT_UNREACH`, a reason code. -/
  icmpPortUnreach : Byte
  /-- `ARP_TABLE_CAP`. -/
  arpTableCap : Nat
  /-- `ARP_PENDING_CAP`. -/
  arpPendingCap : Nat
  /-- `REGISTRY_CAP`. -/
  registryCap : Nat
  /-- `PORT_TABLE_CAP`. -/
  portTableCap : Nat
  /-- `RX_BUF_CAP`, the most bytes one driver receive returns (D30). -/
  rxBufCap : Nat
deriving DecidableEq, Repr

/-! The parameters R7 fixes. -/

/-- `ETH_HDR_LEN` = 14 (R7). -/
def ethHdrLen : Nat := 14
/-- `ARP_PKT_LEN` = 28 (R7). -/
def arpPktLen : Nat := 28
/-- `ARP_HW_LEN` = 6 (R7). -/
def arpHwLen : Byte := 6
/-- `ARP_PROTO_LEN` = 4 (R7). -/
def arpProtoLen : Byte := 4
/-- `ARP_OP_REQUEST` = 1 (R7). -/
def arpOpRequestCode : BitVec 16 := 1
/-- `ARP_OP_REPLY` = 2 (R7). -/
def arpOpReplyCode : BitVec 16 := 2
/-- `IP_VERSION` = 4 (R7). -/
def ipVersion : BitVec 4 := 4
/-- `IP_HDR_LEN` = 20 (R7). -/
def ipHdrLen : Nat := 20
/-- `IP_MAX_PAYLOAD` = 65515 = 65535 - 20 (R7). -/
def ipMaxPayload : Nat := 65515
/-- `UDP_HDR_LEN` = 8 (R7). -/
def udpHdrLen : Nat := 8

/-- The largest payload of one datagram, `cap` of 44_ip.md rule R229: `ETH_MTU - IP_HDR_LEN`. -/
def Cfg.fragCap (c : Cfg) : Nat := c.ethMtu - ipHdrLen

/-- A legal configuration: the clauses (a) to (i) of 00_scope.md rule R8, in order. -/
def Cfg.legal (c : Cfg) : Bool :=
  decide (c.ethMtu > ipHdrLen)
  && decide ((c.ethMtu - ipHdrLen) % 8 = 0)
  && decide (c.ethMinPayload ≤ c.ethMtu)
  && decide ([c.ethertypeIp, c.ethertypeArp, c.ipprotoUdp.setWidth 16, c.ipprotoIcmp.setWidth 16].Nodup)
  && decide (c.arpProtoIp = c.ethertypeIp)
  && decide (c.ipMf = 0x8000 ∨ c.ipMf = 0x4000 ∨ c.ipMf = 0x2000)
  && decide (1 ≤ c.arpTableCap ∧ 1 ≤ c.arpPendingCap ∧ 3 ≤ c.registryCap ∧ 1 ≤ c.portTableCap ∧ 1 ≤ c.rxBufCap)
  && decide (c.ethMtu ≤ 65535)
  && decide (1 ≤ c.arpTimeout ∧ 1 ≤ c.arpPendingTimeout)

/-- CFG0, the reference configuration of R7. PRESUMED: the protocol constants are from general
knowledge (93_implementation_defined.md G1 to G10), the addresses and capacities are the spec's test
values. Safe for the statements, which hold for every legal configuration; unsafe for a run from
`State.reset` taken as a fact about some other configuration (log entry 2). -/
def Cfg.cfg0 : Cfg where
  ifMac := ⟨0x02, 0, 0, 0, 0, 0x01⟩
  ifIp := ⟨192, 168, 1, 10⟩
  ethMinPayload := 46
  ethMtu := 1500
  ethBroadcast := ⟨0xff, 0xff, 0xff, 0xff, 0xff, 0xff⟩
  ethertypeIp := 0x0800
  ethertypeArp := 0x0806
  arpHwEther := 1
  arpProtoIp := 0x0800
  arpTimeout := 60
  arpPendingTimeout := 1
  ipDefaultTtl := 64
  ipMf := 0x2000
  ipprotoUdp := 17
  ipprotoIcmp := 1
  ipRecognised := [17, 1]
  icmpProtocolUnreach := 2
  icmpPortUnreach := 3
  arpTableCap := 16
  arpPendingCap := 16
  registryCap := 16
  portTableCap := 16
  rxBufCap := 1514

/-- Free value: byte `i` of the 20 placeholder bytes of the draw numbered `draw` (45_udp.md rule
R262, D13, U10: "20 bytes under no law"). Safe: nothing can be proved of it (log entry 8). -/
opaque Config.placeholderByte (draw i : Nat) : Byte

/-- Free value: byte `i` of what a scratch buffer holds between commands, for the draw numbered
`draw` (10_state.md rules R21, R22, R48; U11: any value). Safe (log entry 9). -/
opaque Config.staleByte (draw i : Nat) : Byte

/-- Free value: how many bytes of a scratch buffer are meant between commands (U11). Safe (log entry 9). -/
opaque Config.staleLength (draw : Nat) : Nat

end Sys2Proof
end

