-- ==== Sys2Proof/Syntax.lean ====
section
/-! DEFINITION. The instructions: one constructor per row of spec/opcode_table.json, the 18 operations
of 30_encoding.md rule R110 and the 6 wire discriminators of rule R103. -/

namespace Sys2Proof

/-- The sender address a payload is dispatched with: 4 bytes from `IP_RX`, 6 bytes from `ETH_RX`
(42_protocol_registry.md rule R182). -/
inductive SrcAddr where
  | ip (a : Ip)
  | mac (m : Mac)
deriving DecidableEq, Repr

/-- An external handler number `n` of `H_EXT(n)`, 0 to 127 (10_state.md rule R34). -/
abbrev ExtHandler := Fin 128

/-- A handler identifier (10_state.md rule R34). -/
inductive Handler where
  /-- `H_ARP`, the block's own `ARP_RX`. -/
  | arp
  /-- `H_IP`, the block's own `IP_RX`. -/
  | ip
  /-- `H_UDP`, the block's own `UDP_RX`. -/
  | udp
  /-- `H_EXT(n)`, external handler number `n`. -/
  | ext (n : ExtHandler)
deriving DecidableEq, Repr

/-- The fields of an ARP packet other than the opcode (30_encoding.md rule R93), and the bytes after
offset 27, which are ignored (R94). -/
structure ArpOperands where
  hwType : BitVec 16
  proType : BitVec 16
  hwLen : Byte
  proLen : Byte
  senderMac : Mac
  senderIp : Ip
  targetMac : Mac
  targetIp : Ip
  trailing : Bytes
deriving DecidableEq, Repr

/-- The fixed fields of an IPv4 header other than the protocol (30_encoding.md rule R95), and the
bytes after offset 19: options, payload, padding. -/
structure Ipv4Operands where
  version : BitVec 4
  hdrLen : BitVec 4
  tos : Byte
  totalLen : BitVec 16
  id : BitVec 16
  flagsFrag : BitVec 16
  ttl : Byte
  checksum : BitVec 16
  srcIp : Ip
  dstIp : Ip
  rest : Bytes
deriving DecidableEq, Repr

/-- One constructor per row of spec/opcode_table.json. -/
inductive Instr where
  /-- `INIT`, command (70_reset_and_hazards.md R322). -/
  | init
  /-- `POLL`, command; the driver's answer is an environment input (41_frame_transport.md R164). -/
  | poll
  /-- `REGISTER`, command; `handler` is the 8-bit identifier of 10_state.md R34 (42_protocol_registry.md R180). -/
  | register (proto : BitVec 16) (handler : BitVec 8)
  /-- `UDP_OPEN`, command (45_udp.md R270). -/
  | udpOpen (port : BitVec 16) (handler : BitVec 8)
  /-- `UDP_CLOSE`, command (45_udp.md R271). -/
  | udpClose (port : BitVec 16)
  /-- `UDP_SEND`, command (45_udp.md R265). -/
  | udpSend (data : Bytes) (sport : BitVec 16) (dip : Ip) (dport : BitVec 16)
  /-- `IP_SEND`, command (44_ip.md R229). -/
  | ipSend (buf : Bytes) (dip : Ip) (proto : Byte)
  /-- `ETH_TX`, internal (41_frame_transport.md R160). -/
  | ethTx (buf : Bytes) (dstMac : Mac) (proto : BitVec 16)
  /-- `ETH_RX`, internal (41_frame_transport.md R162). -/
  | ethRx (frame : Bytes)
  /-- `DISPATCH`, internal (42_protocol_registry.md R182). -/
  | dispatch (buf : Bytes) (proto : BitVec 16) (srcAddr : SrcAddr)
  /-- `ARP_OUT`, internal (43_arp.md R196). -/
  | arpOut (buf : Bytes) (ip : Ip)
  /-- `ARP_REQ`, internal (43_arp.md R192). -/
  | arpReq (targetIp : Ip)
  /-- `ARP_REPLY`, internal (43_arp.md R193). -/
  | arpReply (targetIp : Ip) (targetMac : Mac)
  /-- `ARP_RX`, internal (43_arp.md R200). -/
  | arpRx (buf : Bytes) (srcMac : Mac)
  /-- `IP_RX`, internal (44_ip.md R221). -/
  | ipRx (buf : Bytes) (srcMac : Mac)
  /-- `IP_FRAG_TX`, internal; `mf` is the one-bit more-fragments operand (44_ip.md R231). -/
  | ipFragTx (buf : Bytes) (dip : Ip) (proto : Byte) (id : BitVec 16) (off : BitVec 16) (mf : Bool)
  /-- `UDP_CSUM`, internal, returns 16 bits (45_udp.md R251). -/
  | udpCsum (buf : Bytes) (srcIp : Ip) (dstIp : Ip)
  /-- `UDP_RX`, internal (45_udp.md R260). -/
  | udpRx (buf : Bytes) (srcIp : Ip)
  /-- `ETH_TYPE.ARP`: a received frame whose type field is `ETHERTYPE_ARP` (30_encoding.md R103(a)). -/
  | ethTypeArp (dst : Mac) (src : Mac) (payload : Bytes)
  /-- `ETH_TYPE.IP`: a received frame whose type field is `ETHERTYPE_IP` (30_encoding.md R103(a)). -/
  | ethTypeIp (dst : Mac) (src : Mac) (payload : Bytes)
  /-- `ARP_OP.REQUEST`: a received ARP packet whose opcode is 1 (30_encoding.md R103(b)). -/
  | arpOpRequest (packet : ArpOperands)
  /-- `ARP_OP.REPLY`: a received ARP packet whose opcode is 2 (30_encoding.md R103(b)). -/
  | arpOpReply (packet : ArpOperands)
  /-- `IP_PROTO.UDP`: a received datagram whose protocol is `IPPROTO_UDP` (30_encoding.md R103(c)). -/
  | ipProtoUdp (datagram : Ipv4Operands)
  /-- `IP_PROTO.ICMP`: a received datagram whose protocol is `IPPROTO_ICMP` (30_encoding.md R103(c)). -/
  | ipProtoIcmp (datagram : Ipv4Operands)
deriving DecidableEq, Repr

/-- The seven commands, accepted on the host port; the other operations are internal and the
discriminators are no operations (30_encoding.md rule R110). -/
def Instr.isCommand : Instr → Bool
  | .init => true
  | .poll => true
  | .register _ _ => true
  | .udpOpen _ _ => true
  | .udpClose _ => true
  | .udpSend _ _ _ _ => true
  | .ipSend _ _ _ => true
  | .ethTx _ _ _ => false
  | .ethRx _ => false
  | .dispatch _ _ _ => false
  | .arpOut _ _ => false
  | .arpReq _ => false
  | .arpReply _ _ => false
  | .arpRx _ _ => false
  | .ipRx _ _ => false
  | .ipFragTx _ _ _ _ _ _ => false
  | .udpCsum _ _ _ => false
  | .udpRx _ _ => false
  | .ethTypeArp _ _ _ => false
  | .ethTypeIp _ _ _ => false
  | .arpOpRequest _ => false
  | .arpOpReply _ => false
  | .ipProtoUdp _ => false
  | .ipProtoIcmp _ => false

/-- What kind of unit a frame of bytes is: an operation (its 8-bit code and operands, 30_encoding.md
rule R110), or a received unit whose discriminator selects its handling (rule R103). -/
inductive UnitKind where
  | operation
  | ethernetFrame
  | arpPacket
  | ipv4Datagram
deriving DecidableEq, Repr

/-- One frame of the operation sequencer `seq` (10_state.md rule R24): an operation that has been
entered and not yet run, as bytes. -/
structure OpFrame where
  kind : UnitKind
  bytes : Bytes
deriving DecidableEq, Repr

end Sys2Proof
end

