-- ==== Sys2Proof/WellFormed.lean ====
section
/-! DEFINITION. Which operands an operation may carry: the checks of 30_encoding.md rule R111 for
commands, and the operand conditions the rules of the internal operations state. -/

namespace Sys2Proof

/-- A handler code that is not reserved: 0x01 to 0x03 and 0x80 to 0xFF (10_state.md rule R34). -/
def handlerCodeDefined (code : BitVec 8) : Bool :=
  decide (1 ≤ code.toNat ∧ code.toNat ≤ 3 ∨ 128 ≤ code.toNat)

/-- A handler code of the form `H_EXT(n)`, 0x80 + n (10_state.md rule R34). -/
def handlerCodeExternal (code : BitVec 8) : Bool :=
  decide (128 ≤ code.toNat)

/-- The largest `data` of `UDP_SEND`: `IP_MAX_PAYLOAD - UDP_HDR_LEN` (45_udp.md rule R265). -/
def udpMaxData : Nat := ipMaxPayload - udpHdrLen

/-- Well-formed operands. The first four checks are those of 30_encoding.md rule R111; the others are
the operand conditions of R162 (`ETH_RX`), R231 (`IP_FRAG_TX`) and R251 (`UDP_CSUM`). -/
def Instr.wellFormed : Instr → Bool
  | .init => true
  | .poll => true
  | .register _ handler => handlerCodeDefined handler
  | .udpOpen _ handler => handlerCodeExternal handler
  | .udpClose _ => true
  | .udpSend data _ _ _ => decide (data.length ≤ udpMaxData)
  | .ipSend buf _ _ => decide (buf.length ≤ ipMaxPayload)
  | .ethTx _ _ _ => true
  | .ethRx frame => decide (1 ≤ frame.length)
  | .dispatch _ _ _ => true
  | .arpOut _ _ => true
  | .arpReq _ => true
  | .arpReply _ _ => true
  | .arpRx _ _ => true
  | .ipRx _ _ => true
  | .ipFragTx _ _ _ _ off _ => decide (off.toNat % 8 = 0)
  | .udpCsum buf _ _ => decide (8 ≤ buf.length ∧ buf.length ≤ 65535)
  | .udpRx _ _ => true
  | .ethTypeArp _ _ _ => true
  | .ethTypeIp _ _ _ => true
  | .arpOpRequest _ => true
  | .arpOpReply _ => true
  | .ipProtoUdp _ => true
  | .ipProtoIcmp _ => true

end Sys2Proof
end

