-- ==== Sys2Proof/Decode.lean ====
section
/-! DEFINITION. Byte order (00_scope.md R11, 20_memory.md R60, 40_primitives.md R130), the decoder of operations
(30_encoding.md R110) and of received units by their discriminator (R103), total on any bytes and
rejecting by name, and the encoder of both. -/

namespace Sys2Proof

/-! ## Byte order -/

/-- The 16-bit number of two bytes, most significant first: `be16` of R11. -/
def word16 (hi lo : Byte) : BitVec 16 := hi ++ lo

/-- The two bytes of a 16-bit number, most significant first: what `put_be16` of R11 writes. -/
def bytes16 (v : BitVec 16) : Bytes := [v.extractLsb' 8 8, v.extractLsb' 0 8]

/-- `b[i]`; 0 where `b` has no such byte (no rule reads there). -/
def byteAt (b : Bytes) (i : Nat) : Byte := b.getD i 0

/-- `be16(b, i)` of R11. -/
def be16At (b : Bytes) (i : Nat) : BitVec 16 := word16 (byteAt b i) (byteAt b (i + 1))

/-- `be32(b, i)` of R11: four bytes, most significant first (40_primitives.md R130). -/
def be32At (b : Bytes) (i : Nat) : BitVec 32 := be16At b i ++ be16At b (i + 2)

/-- The four bytes of a 32-bit number, most significant first: what `put_be32` of R11 writes. -/
def bytes32 (v : BitVec 32) : Bytes := bytes16 (v.extractLsb' 16 16) ++ bytes16 (v.extractLsb' 0 16)

/-- `b[i : i+6]` as a MAC address. -/
def macAt (b : Bytes) (i : Nat) : Mac :=
  ⟨byteAt b i, byteAt b (i + 1), byteAt b (i + 2), byteAt b (i + 3), byteAt b (i + 4), byteAt b (i + 5)⟩

/-- `b[i : i+4]` as an IP address. -/
def ipAt (b : Bytes) (i : Nat) : Ip :=
  ⟨byteAt b i, byteAt b (i + 1), byteAt b (i + 2), byteAt b (i + 3)⟩

/-! ## Handler identifiers -/

/-- The handler a code names; none for the reserved codes 0x00 and 0x04 to 0x7F (10_state.md R34). -/
def Handler.ofCode (code : BitVec 8) : Option Handler :=
  if code = 0x01 then some .arp
  else if code = 0x02 then some .ip
  else if code = 0x03 then some .udp
  else if h : 128 ≤ code.toNat then some (.ext ⟨code.toNat - 128, by omega⟩)
  else none

/-- The external handler number a code `0x80 + n` names; none for every other code (R34). -/
def extHandlerOfCode (code : BitVec 8) : Option ExtHandler :=
  if h : 128 ≤ code.toNat then some ⟨code.toNat - 128, by omega⟩ else none

/-- The 8-bit code of a handler (10_state.md R34). -/
def Handler.code : Handler → BitVec 8
  | .arp => 0x01
  | .ip => 0x02
  | .udp => 0x03
  | .ext n => BitVec.ofNat 8 (128 + n.val)

/-! ## Decoding -/

/-- Why bytes are no instruction. Raised by `decode`; safe: the spec gives such bytes no meaning
(30_encoding.md R111, U1). -/
inductive DecodeError where
  /-- There is no operation code. -/
  | noCode
  /-- The operation code is reserved (R111). -/
  | reservedCode (code : Byte)
  /-- The operands have not the lengths or the values R110 gives them. -/
  | malformedOperands (code : Byte)
  /-- A received unit too short to hold its discriminator's header. -/
  | truncatedUnit
  /-- A received unit whose discriminator is none of the six of R103. -/
  | noDiscriminator
deriving DecidableEq, Repr

/-- The operation of a code and its operand bytes. The codes are those of R110; operands stand in
R110's order and widths, numbers most significant byte first, the byte string last and running to the
end, as in the script syntax of R119 (DESIGN CHOICE, log entry 4). -/
def decodeOperands (code : Byte) (ops : Bytes) : Except DecodeError Instr :=
  let bad : Except DecodeError Instr := .error (.malformedOperands code)
  match code.toNat with
  | 0x01 => match ops with
    | [] => .ok .init
    | _ => bad
  | 0x02 => match ops with
    | [] => .ok .poll
    | _ => bad
  | 0x03 => match ops with
    | [p1, p0, h] => .ok (.register (word16 p1 p0) h)
    | _ => bad
  | 0x10 => match ops with
    | [p1, p0, h] => .ok (.udpOpen (word16 p1 p0) h)
    | _ => bad
  | 0x11 => match ops with
    | [p1, p0] => .ok (.udpClose (word16 p1 p0))
    | _ => bad
  | 0x12 => match ops with
    | s1 :: s0 :: a :: b :: c :: d :: p1 :: p0 :: data => .ok (.udpSend data (word16 s1 s0) ⟨a, b, c, d⟩ (word16 p1 p0))
    | _ => bad
  | 0x20 => match ops with
    | a :: b :: c :: d :: proto :: buf => .ok (.ipSend buf ⟨a, b, c, d⟩ proto)
    | _ => bad
  | 0x40 => match ops with
    | a :: b :: c :: d :: e :: f :: p1 :: p0 :: buf => .ok (.ethTx buf ⟨a, b, c, d, e, f⟩ (word16 p1 p0))
    | _ => bad
  | 0x41 => .ok (.ethRx ops)
  | 0x48 => match ops with
    | p1 :: p0 :: width :: a :: b :: c :: d :: rest =>
      if width = 0 then .ok (.dispatch rest (word16 p1 p0) (.ip ⟨a, b, c, d⟩))
      else if width = 1 then
        match rest with
        | e :: f :: buf => .ok (.dispatch buf (word16 p1 p0) (.mac ⟨a, b, c, d, e, f⟩))
        | _ => bad
      else bad
    | _ => bad
  | 0x50 => match ops with
    | a :: b :: c :: d :: buf => .ok (.arpOut buf ⟨a, b, c, d⟩)
    | _ => bad
  | 0x51 => match ops with
    | [a, b, c, d] => .ok (.arpReq ⟨a, b, c, d⟩)
    | _ => bad
  | 0x52 => match ops with
    | [a, b, c, d, m0, m1, m2, m3, m4, m5] => .ok (.arpReply ⟨a, b, c, d⟩ ⟨m0, m1, m2, m3, m4, m5⟩)
    | _ => bad
  | 0x53 => match ops with
    | m0 :: m1 :: m2 :: m3 :: m4 :: m5 :: buf => .ok (.arpRx buf ⟨m0, m1, m2, m3, m4, m5⟩)
    | _ => bad
  | 0x60 => match ops with
    | m0 :: m1 :: m2 :: m3 :: m4 :: m5 :: buf => .ok (.ipRx buf ⟨m0, m1, m2, m3, m4, m5⟩)
    | _ => bad
  | 0x61 => match ops with
    | a :: b :: c :: d :: proto :: i1 :: i0 :: o1 :: o0 :: mf :: buf =>
      if mf = 0 then .ok (.ipFragTx buf ⟨a, b, c, d⟩ proto (word16 i1 i0) (word16 o1 o0) false)
      else if mf = 1 then .ok (.ipFragTx buf ⟨a, b, c, d⟩ proto (word16 i1 i0) (word16 o1 o0) true)
      else bad
    | _ => bad
  | 0x70 => match ops with
    | a :: b :: c :: d :: e :: f :: g :: h :: buf => .ok (.udpCsum buf ⟨a, b, c, d⟩ ⟨e, f, g, h⟩)
    | _ => bad
  | 0x71 => match ops with
    | a :: b :: c :: d :: buf => .ok (.udpRx buf ⟨a, b, c, d⟩)
    | _ => bad
  | _ => .error (.reservedCode code)

/-- An operation from its bytes: the 8-bit code, then the operands (R110). -/
def decodeOperation : Bytes → Except DecodeError Instr
  | [] => .error .noCode
  | code :: ops => decodeOperands code ops

/-- The fields of the ARP packet at the front of `b`, at the offsets of 30_encoding.md R93. -/
def arpOperandsOf (b : Bytes) : ArpOperands where
  hwType := be16At b 0
  proType := be16At b 2
  hwLen := byteAt b 4
  proLen := byteAt b 5
  senderMac := macAt b 8
  senderIp := ipAt b 14
  targetMac := macAt b 18
  targetIp := ipAt b 24
  trailing := b.drop arpPktLen

/-- The fields of the IPv4 header at the front of `b`, at the offsets of 30_encoding.md R95. -/
def ipv4OperandsOf (b : Bytes) : Ipv4Operands where
  version := (byteAt b 0).extractLsb' 4 4
  hdrLen := (byteAt b 0).extractLsb' 0 4
  tos := byteAt b 1
  totalLen := be16At b 2
  id := be16At b 4
  flagsFrag := be16At b 6
  ttl := byteAt b 8
  checksum := be16At b 10
  srcIp := ipAt b 12
  dstIp := ipAt b 16
  rest := b.drop ipHdrLen

/-- A frame by its type field, bytes 12 and 13 (R103(a)). -/
def decodeEthernet (cfg : Cfg) (b : Bytes) : Except DecodeError Instr :=
  if b.length < ethHdrLen then .error .truncatedUnit
  else if be16At b 12 = cfg.ethertypeArp then .ok (.ethTypeArp (macAt b 0) (macAt b 6) (b.drop ethHdrLen))
  else if be16At b 12 = cfg.ethertypeIp then .ok (.ethTypeIp (macAt b 0) (macAt b 6) (b.drop ethHdrLen))
  else .error .noDiscriminator

/-- An ARP packet by its opcode, bytes 6 and 7 (R103(b)). -/
def decodeArp (b : Bytes) : Except DecodeError Instr :=
  if b.length < arpPktLen then .error .truncatedUnit
  else if be16At b 6 = arpOpRequestCode then .ok (.arpOpRequest (arpOperandsOf b))
  else if be16At b 6 = arpOpReplyCode then .ok (.arpOpReply (arpOperandsOf b))
  else .error .noDiscriminator

/-- A datagram by its protocol, byte 9 (R103(c)). -/
def decodeIpv4 (cfg : Cfg) (b : Bytes) : Except DecodeError Instr :=
  if b.length < ipHdrLen then .error .truncatedUnit
  else if byteAt b 9 = cfg.ipprotoUdp then .ok (.ipProtoUdp (ipv4OperandsOf b))
  else if byteAt b 9 = cfg.ipprotoIcmp then .ok (.ipProtoIcmp (ipv4OperandsOf b))
  else .error .noDiscriminator

/-- The instruction a frame of the sequencer holds. -/
def decode (cfg : Cfg) (f : OpFrame) : Except DecodeError Instr :=
  match f.kind with
  | .operation => decodeOperation f.bytes
  | .ethernetFrame => decodeEthernet cfg f.bytes
  | .arpPacket => decodeArp f.bytes
  | .ipv4Datagram => decodeIpv4 cfg f.bytes

/-! ## Encoding -/

/-- An ARP packet's bytes, in the order of 30_encoding.md R93. -/
def arpBytes (op : BitVec 16) (p : ArpOperands) : Bytes :=
  bytes16 p.hwType ++ bytes16 p.proType ++ [p.hwLen, p.proLen] ++ bytes16 op
    ++ p.senderMac.bytes ++ p.senderIp.bytes ++ p.targetMac.bytes ++ p.targetIp.bytes ++ p.trailing

/-- A datagram's bytes, in the order of 30_encoding.md R95; byte 0 is `version * 16 + hdr_len` (R96). -/
def ipv4Bytes (proto : Byte) (d : Ipv4Operands) : Bytes :=
  [d.version ++ d.hdrLen, d.tos] ++ bytes16 d.totalLen ++ bytes16 d.id ++ bytes16 d.flagsFrag
    ++ [d.ttl, proto] ++ bytes16 d.checksum ++ d.srcIp.bytes ++ d.dstIp.bytes ++ d.rest

/-- A frame's bytes: the Ethernet header of 30_encoding.md R91, then the payload (R92). -/
def ethBytes (dst src : Mac) (type : BitVec 16) (payload : Bytes) : Bytes :=
  dst.bytes ++ src.bytes ++ bytes16 type ++ payload

/-- An operation's frame: its code and its operand bytes. -/
def opFrame (code : Byte) (ops : Bytes) : OpFrame := ⟨.operation, code :: ops⟩

/-- The bytes of an instruction, from the same tables: R110 for the operations, R91, R93 and R95 for
the discriminators. -/
def encode (cfg : Cfg) : Instr → OpFrame
  | .init => opFrame 0x01 []
  | .poll => opFrame 0x02 []
  | .register proto handler => opFrame 0x03 (bytes16 proto ++ [handler])
  | .udpOpen port handler => opFrame 0x10 (bytes16 port ++ [handler])
  | .udpClose port => opFrame 0x11 (bytes16 port)
  | .udpSend data sport dip dport => opFrame 0x12 (bytes16 sport ++ dip.bytes ++ bytes16 dport ++ data)
  | .ipSend buf dip proto => opFrame 0x20 (dip.bytes ++ [proto] ++ buf)
  | .ethTx buf dstMac proto => opFrame 0x40 (dstMac.bytes ++ bytes16 proto ++ buf)
  | .ethRx frame => opFrame 0x41 frame
  | .dispatch buf proto (.ip a) => opFrame 0x48 (bytes16 proto ++ [0] ++ a.bytes ++ buf)
  | .dispatch buf proto (.mac m) => opFrame 0x48 (bytes16 proto ++ [1] ++ m.bytes ++ buf)
  | .arpOut buf ip => opFrame 0x50 (ip.bytes ++ buf)
  | .arpReq targetIp => opFrame 0x51 targetIp.bytes
  | .arpReply targetIp targetMac => opFrame 0x52 (targetIp.bytes ++ targetMac.bytes)
  | .arpRx buf srcMac => opFrame 0x53 (srcMac.bytes ++ buf)
  | .ipRx buf srcMac => opFrame 0x60 (srcMac.bytes ++ buf)
  | .ipFragTx buf dip proto id off mf =>
    opFrame 0x61 (dip.bytes ++ [proto] ++ bytes16 id ++ bytes16 off ++ [if mf then 1 else 0] ++ buf)
  | .udpCsum buf srcIp dstIp => opFrame 0x70 (srcIp.bytes ++ dstIp.bytes ++ buf)
  | .udpRx buf srcIp => opFrame 0x71 (srcIp.bytes ++ buf)
  | .ethTypeArp dst src payload => ⟨.ethernetFrame, ethBytes dst src cfg.ethertypeArp payload⟩
  | .ethTypeIp dst src payload => ⟨.ethernetFrame, ethBytes dst src cfg.ethertypeIp payload⟩
  | .arpOpRequest packet => ⟨.arpPacket, arpBytes arpOpRequestCode packet⟩
  | .arpOpReply packet => ⟨.arpPacket, arpBytes arpOpReplyCode packet⟩
  | .ipProtoUdp datagram => ⟨.ipv4Datagram, ipv4Bytes cfg.ipprotoUdp datagram⟩
  | .ipProtoIcmp datagram => ⟨.ipv4Datagram, ipv4Bytes cfg.ipprotoIcmp datagram⟩

/-! ## The opcode table's words -/

/-- How many operand bytes an operation has before its byte string (R110 with the layout of log entry
4); none for a reserved code. -/
def fixedOperandBytes (code : Byte) : Option Nat :=
  match code.toNat with
  | 0x01 => some 0
  | 0x02 => some 0
  | 0x03 => some 3
  | 0x10 => some 3
  | 0x11 => some 2
  | 0x12 => some 8
  | 0x20 => some 5
  | 0x40 => some 8
  | 0x41 => some 0
  | 0x48 => some 7
  | 0x50 => some 4
  | 0x51 => some 4
  | 0x52 => some 10
  | 0x53 => some 6
  | 0x60 => some 6
  | 0x61 => some 10
  | 0x70 => some 8
  | 0x71 => some 4
  | _ => none

/-- A word of spec/opcode_table.json laid out where the hardware holds it, every byte the table gives
no bits being 0. A 16-bit word is an Ethernet type (bytes 12 and 13 of a frame) where it is one of the
two types, an ARP opcode (bytes 6 and 7 of a packet) otherwise; an 8-bit word is an operation code
where it is one, an IPv4 protocol (byte 9 of a header) otherwise; both in network byte order. The
table's two `IP_PROTO` words are also operation codes and are read as those (log entry 13). -/
def tableFrame (cfg : Cfg) (nbits w : Nat) : OpFrame :=
  if nbits = 16 then
    let v := BitVec.ofNat 16 w
    if v = cfg.ethertypeArp ∨ v = cfg.ethertypeIp then ⟨.ethernetFrame, zeros 12 ++ bytes16 v⟩
    else ⟨.arpPacket, zeros 6 ++ bytes16 v ++ zeros 20⟩
  else
    let v := BitVec.ofNat 8 w
    match fixedOperandBytes v with
    | some n => ⟨.operation, v :: zeros n⟩
    | none => ⟨.ipv4Datagram, zeros 9 ++ [v] ++ zeros 10⟩

/-- The instruction the decoder reads from a word of spec/opcode_table.json under CFG0, whose values
the table's discriminator rows carry. -/
def decodeTableWord (nbits w : Nat) : Option Instr :=
  (decode Cfg.cfg0 (tableFrame Cfg.cfg0 nbits w)).toOption

end Sys2Proof
end

