-- ==== Sys2Proof/Machine/State.lean ====
section
/-! DEFINITION. The state of the block (10_state.md rule R20), its output events (00_scope.md rule
R10), the reasons a step can stop, and the state after reset (10_state.md rule R48). -/

namespace Sys2Proof.Machine

/-- The closed list of drop reasons, in the order of their codes 1 to 16 (60_exceptions.md rule R282). -/
inductive DropReason where
  | ethShort
  | noHandler
  | arpShort
  | arpBadHeader
  | arpBadOpcode
  | arpPendingBusy
  | ipShort
  | ipBadVersion
  | ipHdrlenLong
  | ipHdrlenShort
  | ipBadChecksum
  | ipNotMine
  | ipBadTotalLen
  | udpShort
  | udpTruncated
  | udpBadChecksum
deriving DecidableEq, Repr

/-- The output events of 00_scope.md rule R10. -/
inductive Event where
  /-- A frame handed to the driver (10_state.md R42). -/
  | driverSend (frame : Bytes)
  /-- A registry dispatch to external handler `h` (R43). -/
  | handlerCall (h : ExtHandler) (payload : Bytes) (proto : BitVec 16) (srcAddr : SrcAddr)
  /-- A UDP datagram delivered to the external handler of its destination port (R43). -/
  | udpDeliver (h : ExtHandler) (data : Bytes) (length : Nat) (srcIp : Ip) (srcPort : BitVec 16)
  /-- A notification to the ICMP collaborator (R44). -/
  | icmpUnreachable (datagram : Bytes) (dstIp : Ip) (code : Byte)
  /-- The result of `UDP_OPEN` (R27). -/
  | result (ok : Bool)
  /-- The model's label of a silent drop; at no port of the hardware (60_exceptions.md R281, D28). -/
  | drop (reason : DropReason)
deriving DecidableEq, Repr

/-- An entry of an expiring store: key, value, timestamp of its last `set` (40_primitives.md R140,
10_state.md R45). Keys are numbers, reached from an address, identifier or port with `toNat`. -/
structure Entry (ν : Type) where
  key : Nat
  value : ν
  stamp : Nat
deriving DecidableEq, Repr

/-- A store's entries, in the one canonical form `Table.wf` of Ops.lean: keys strictly rising. -/
abbrev Table (ν : Type) := List (Entry ν)

/-- A command presented on the host port: its bytes, with the current time (10_state.md R40, R38). -/
structure HostRequest where
  now : Nat
  bytes : Bytes
deriving DecidableEq, Repr

/-- The state of the block: the record of 10_state.md rule R20, then the environment's inputs, the
outputs and the model's own fields. -/
structure State where
  /-- The configuration, `IF_MAC` and `IF_IP` among it: straps, never written (R28, R29, R31). -/
  cfg : Cfg
  /-- `IP_ID`, the next datagram identification (R30). -/
  ipId : BitVec 16
  /-- `arp_table`: IP to MAC (R32). -/
  arpTable : Table Mac
  /-- `arp_pending`: IP to one parked packet (R33). -/
  arpPending : Table Bytes
  /-- `registry`: protocol identifier to handler (R35). -/
  registry : Table Handler
  /-- `port_table`: port to external handler (R36). -/
  portTable : Table ExtHandler
  /-- `tx_scratch`; no rule reads it (R21). -/
  txScratch : Bytes
  /-- `rx_scratch`, filled by `POLL`; no rule reads it between commands (R22). -/
  rxScratch : Bytes
  /-- `seq`: IDLE is the empty stack (R24). -/
  seq : List OpFrame
  /-- `inited`: whether `INIT` has run since reset (R26). -/
  inited : Bool
  /-- Model's own: the time of the last accepted command (R38). -/
  now : Nat
  /-- Input: the commands the host presents, in order (R40). -/
  hostPort : List HostRequest
  /-- Input: the driver's answers to the coming receives; none left is "nothing available" (R41). -/
  driverRx : List Bytes
  /-- Input: the reactions to the coming calls out of the block; none left is the empty reaction
  (60_exceptions.md R300). -/
  reactions : List (List Instr)
  /-- Output: the events so far, oldest first (00_scope.md R10). -/
  out : List Event
  /-- Model's own: how many free values have been drawn (00_scope.md R12). -/
  draws : Nat
  /-- Model's own: what the last `UDP_CSUM` run as an operation of its own returned (45_udp.md R251). -/
  returned : BitVec 16
deriving DecidableEq, Repr

/-- The machine has no fault: "No behaviour is treated as `fault` or `stuck`" (93_implementation_defined.md,
after U35), so this type is empty and no step answers with one. -/
inductive Fault where
deriving DecidableEq, Repr

/-- Why the model gives an input no meaning. All are safe: the model stops where the spec says a model
refuses (93_implementation_defined.md U1 to U7, 70_reset_and_hazards.md R324). -/
inductive Refusal where
  /-- Raised by `exec` for an instruction that has no meaning yet; safe. -/
  | notModelled (mnemonic : String)
  /-- Raised by `step`: the configuration is not legal (R8, U7); safe. -/
  | illegalConfiguration
  /-- Raised by `step`: the bytes are no operation or no known unit (R111, U1); safe. -/
  | undecodable (error : DecodeError)
  /-- Raised by `step`: an internal operation's code on the host port (R111, U1); safe. -/
  | internalCode
  /-- Raised by `step` and the meaning of REGISTER: a reserved handler identifier (R34, R111, U1); safe. -/
  | reservedHandler
  /-- Raised by `step` and the meaning of UDP_OPEN: a handler that is not H_EXT(n) (R111, U1); safe. -/
  | handlerNotExternal
  /-- Raised by `step` and the meanings of UDP_SEND and IP_SEND: a byte string longer than its rule
  allows (R111, U3); safe. -/
  | payloadTooLong
  /-- Raised by `step`: a command other than INIT before INIT (R26, U2); safe. -/
  | notInitialised
  /-- Raised by `step`: a second INIT (R26, U2); safe. -/
  | alreadyInitialised
  /-- Raised by `step`: a command whose time is before the previous command's (R38, U4); safe. -/
  | timeWentBack
  /-- Raised by POLL: a driver answer longer than RX_BUF_CAP (R41, U5); safe. -/
  | driverAnswerTooLong
  /-- Raised in a reaction: a command not allowed to the party that reacts (R300, U6); safe. -/
  | reactionNotAllowed
deriving DecidableEq, Repr

/-- What an operation that can be refused answers. -/
abbrev Answer := Host.Outcome State Fault Refusal

/-- The state after reset with a given configuration (10_state.md R48): the straps at the configured
addresses, `IP_ID` 0, the tables empty, `seq` IDLE, `inited` 0. The scratch buffers' content is
unspecified there; the empty string is a DESIGN CHOICE (log entry 9), unsafe only for a claim about it.
The model's own fields start empty or at 0, a DESIGN CHOICE (log entries 3, 5 to 8, 10). -/
def State.resetWith (cfg : Cfg) : State where
  cfg := cfg
  ipId := 0
  arpTable := []
  arpPending := []
  registry := []
  portTable := []
  txScratch := []
  rxScratch := []
  seq := []
  inited := false
  now := 0
  hostPort := []
  driverRx := []
  reactions := []
  out := []
  draws := 0
  returned := 0

/-- The state after reset in the reference configuration CFG0 of 00_scope.md rule R7. -/
def State.reset : State := State.resetWith Cfg.cfg0

end Sys2Proof.Machine
end

