-- ==== Sys2Proof/Machine/Ops.lean ====
section
/-! DEFINITION. The named operations over the state: the buffer primitives (40_primitives.md R134 to
R139), the expiring store (R140 to R144) and the block's four stores, the events, the drop, and the
call out of the block with its reaction (60_exceptions.md R281, R291, R300). -/

namespace Sys2Proof.Machine

/-! ## Sequencing -/

/-- Go on with `f` where an operation has completed; a refusal ends the command. -/
def andThen (a : Answer) (f : State → Answer) : Answer :=
  match a with
  | .next s => f s
  | .fault r => .fault r
  | .refused r => .refused r

/-! ## Buffers -/

/-- `buf[i : i + len(bs)] <- bs` (00_scope.md R12). -/
def writeAt (buf : Bytes) (i : Nat) (bs : Bytes) : Bytes :=
  buf.take i ++ bs ++ buf.drop (i + bs.length)

/-- `put_be16(buf, i, v)` (00_scope.md R11). -/
def putBe16 (buf : Bytes) (i : Nat) (v : BitVec 16) : Bytes := writeAt buf i (bytes16 v)

/-- `put_be32(buf, i, v)` (00_scope.md R11; 40_primitives.md R130). No field of this block is 32 bits wide
(20_memory.md R60), so no operation writes with it. -/
def putBe32 (buf : Bytes) (i : Nat) (v : BitVec 32) : Bytes := writeAt buf i (bytes32 v)

/-- `add_header(buf, n)` (R135): `n` new bytes at the front; every user of it writes them all, so
their first content, here 0, is not seen. -/
def addHeader (buf : Bytes) (n : Nat) : Bytes := zeros n ++ buf

/-- `remove_header(buf, n)` (R136). -/
def removeHeader (buf : Bytes) (n : Nat) : Bytes := buf.drop n

/-- `add_padding(buf, n)` (R137): the appended bytes are zero. -/
def addPadding (buf : Bytes) (n : Nat) : Bytes := buf ++ zeros n

/-- `remove_padding(buf, n)` (R138). -/
def removePadding (buf : Bytes) (n : Nat) : Bytes := buf.take (buf.length - n)

/-! ## The expiring store -/

/-- `live(t, e, now)` (R141): always where the time-to-live is 0, else while less than it has passed. -/
def Table.live {ν : Type} (ttl now : Nat) (e : Entry ν) : Bool :=
  decide (ttl = 0) || decide (now - e.stamp < ttl)

/-- `get(t, k, now)` (R141): the value of the live entry with the key; it refreshes nothing. -/
def Table.get {ν : Type} (ttl now k : Nat) (t : Table ν) : Option ν :=
  match t.find? (fun e => e.key == k) with
  | some e => if Table.live ttl now e then some e.value else none
  | none => none

/-- `count(t, now)` (R142): the number of live entries. -/
def Table.count {ν : Type} (ttl now : Nat) (t : Table ν) : Nat :=
  (t.filter (Table.live ttl now)).length

/-- Store an entry in its place, replacing one with the same key. -/
def Table.put {ν : Type} (e : Entry ν) : Table ν → Table ν
  | [] => [e]
  | x :: xs =>
    if e.key < x.key then e :: x :: xs
    else if e.key = x.key then e :: xs
    else x :: Table.put e xs

/-- `set(t, k, v, now)` (R143): overwrite and refresh a live entry with the key; else insert where
fewer than `cap` entries are live (an expired entry with the key goes); else fail, `t` unchanged. -/
def Table.set {ν : Type} (ttl cap now k : Nat) (v : ν) (t : Table ν) : Table ν × Bool :=
  if (Table.get ttl now k t).isSome then (Table.put ⟨k, v, now⟩ t, true)
  else if Table.count ttl now t < cap then (Table.put ⟨k, v, now⟩ t, true)
  else (t, false)

/-- `delete(t, k)` (R144): the entry with the key goes, live or expired. -/
def Table.delete {ν : Type} (k : Nat) (t : Table ν) : Table ν :=
  t.filter (fun e => !(e.key == k))

/-- The canonical form of a store: keys strictly rising, so that equal finite maps are equal data. -/
def Table.wf {ν : Type} (t : Table ν) : Bool :=
  decide ((t.map Entry.key).Pairwise (· < ·))

/-- The canonical form of everything keyed that the block holds (10_state.md R39(b)). -/
def Memory.wf (s : State) : Bool :=
  Table.wf s.arpTable && Table.wf s.arpPending && Table.wf s.registry && Table.wf s.portTable

/-- The key of an IP address: the number `be32` reads from its four bytes (log entry 14). -/
def ipKey (a : Ip) : Nat := (be32At a.bytes 0).toNat

/-! ## The four stores of the block (R140) -/

/-- `get(arp_table, ip, now)` (10_state.md R32). -/
def arpLookup (ip : Ip) (s : State) : Option Mac :=
  Table.get s.cfg.arpTimeout s.now (ipKey ip) s.arpTable

/-- `set(arp_table, ip, mac, now)`, result ignored (R146). -/
def arpLearn (ip : Ip) (mac : Mac) (s : State) : State :=
  { s with arpTable := (Table.set s.cfg.arpTimeout s.cfg.arpTableCap s.now (ipKey ip) mac s.arpTable).1 }

/-- `get(arp_pending, ip, now)` (10_state.md R33). -/
def pendingLookup (ip : Ip) (s : State) : Option Bytes :=
  Table.get s.cfg.arpPendingTimeout s.now (ipKey ip) s.arpPending

/-- `set(arp_pending, ip, buf, now)`, a copy (R139), result ignored (R146). -/
def park (ip : Ip) (buf : Bytes) (s : State) : State :=
  { s with
    arpPending := (Table.set s.cfg.arpPendingTimeout s.cfg.arpPendingCap s.now (ipKey ip) buf s.arpPending).1 }

/-- `delete(arp_pending, ip)`. -/
def unpark (ip : Ip) (s : State) : State :=
  { s with arpPending := Table.delete (ipKey ip) s.arpPending }

/-- `get(registry, proto, now)`: no expiry (10_state.md R35). -/
def registryLookup (proto : BitVec 16) (s : State) : Option Handler :=
  Table.get 0 s.now proto.toNat s.registry

/-- `set(registry, proto, handler, now)`, result ignored (42_protocol_registry.md R180). -/
def registrySet (proto : BitVec 16) (h : Handler) (s : State) : State :=
  { s with registry := (Table.set 0 s.cfg.registryCap s.now proto.toNat h s.registry).1 }

/-- `get(port_table, port, now)`: no expiry (10_state.md R36). -/
def portLookup (port : BitVec 16) (s : State) : Option ExtHandler :=
  Table.get 0 s.now port.toNat s.portTable

/-- `set(port_table, port, handler, now)` with its result (45_udp.md R270). -/
def portSet (port : BitVec 16) (h : ExtHandler) (s : State) : State × Bool :=
  ({ s with portTable := (Table.set 0 s.cfg.portTableCap s.now port.toNat h s.portTable).1 },
    (Table.set 0 s.cfg.portTableCap s.now port.toNat h s.portTable).2)

/-- `delete(port_table, port)` (45_udp.md R271). -/
def portDelete (port : BitVec 16) (s : State) : State :=
  { s with portTable := Table.delete port.toNat s.portTable }

/-! ## Events -/

/-- `emit E` (00_scope.md R12). -/
def emit (e : Event) (s : State) : State := { s with out := s.out ++ [e] }

/-- `drop(<Reason>)` (60_exceptions.md R281), the block's exception and its return: it emits the label,
leaves all other state, and the operation that executes it ends, its invoker going on as after any
completed call. -/
def drop (reason : DropReason) (s : State) : State := emit (.drop reason) s

/-- A list of commands in order, each run by `run`; a refusal ends it. -/
def runAll (run : Instr → State → Answer) : List Instr → State → Answer
  | [], s => .next s
  | c :: cs, s => andThen (run c s) (runAll run cs)

/-- A call out of the block (60_exceptions.md R300): emit the event, take the environment's reaction to
it, and execute its commands in order, nested, before the operation that called out goes on. -/
def callOut (run : Instr → State → Answer) (e : Event) (s : State) : Answer :=
  match s.reactions with
  | [] => .next (emit e s)
  | r :: rs => runAll run r { emit e s with reactions := rs }

/-! ## Free values -/

/-- `draw(placeholder)`: 20 bytes (45_udp.md R262). -/
def placeholder (draw : Nat) : Bytes := (List.range ipHdrLen).map (Config.placeholderByte draw)

/-- What a scratch buffer of at most `bound` bytes holds between commands (10_state.md R21, R22). -/
def staleBytes (draw bound : Nat) : Bytes :=
  (List.range (min (Config.staleLength draw) bound)).map (Config.staleByte draw)

/-- A command has completed: the content of both scratch buffers is unspecified from here on
(10_state.md R21, R22, R48). -/
def settle (s : State) : State :=
  { s with
    txScratch := staleBytes s.draws (ethHdrLen + s.cfg.ethMtu)
    rxScratch := staleBytes (s.draws + 1) s.cfg.rxBufCap
    draws := s.draws + 2 }

end Sys2Proof.Machine
end

