-- ==== Sys2Proof/Machine/Flags.lean ====
section
/-! DEFINITION. The block has no flags (10_state.md R27). What it computes to test is the 16-bit
checksum of 40_primitives.md R131, and the two checksum tests of R132. -/

namespace Sys2Proof.Machine

/-- The sum of the 16-bit words of a byte string, most significant byte first; a last odd byte counts
as the high byte of a word (R131, D11). -/
def wordSum : Bytes → Nat
  | [] => 0
  | [hi] => hi.toNat * 256
  | hi :: lo :: rest => hi.toNat * 256 + lo.toNat + wordSum rest

/-- At most `n` rounds of `while s > 0xFFFF: s <- s[15:0] + (s >> 16)` (R131). -/
def foldRounds : Nat → Nat → Nat
  | 0, s => s
  | n + 1, s => if s > 0xFFFF then foldRounds n (s % 65536 + s / 65536) else s

/-- The carries folded back in; `s` rounds are enough, since each makes `s` smaller (R131, R336). -/
def foldCarries (s : Nat) : Nat := foldRounds s s

/-- `checksum16(b)` (R131): the complement of the folded ones'-complement sum. -/
def checksum16 (b : Bytes) : BitVec 16 := BitVec.ofNat 16 (0xFFFF - foldCarries (wordSum b))

/-- The IPv4 header checksum recomputed with its field, bytes 10 and 11, zeroed, over the `hlen` bytes
of the header (44_ip.md R221; 40_primitives.md R132). The buffer itself stays as it is (R227). -/
def ipHeaderChecksum (buf : Bytes) (hlen : Nat) : BitVec 16 :=
  checksum16 ((putBe16 buf 10 0).take hlen)

/-- `UDP_CSUM(buf, src_ip, dst_ip)` (45_udp.md R251): the checksum over the pseudo-header of
30_encoding.md R101, the UDP header and payload, with a zero byte more where the length is odd. -/
def udpChecksum (protoUdp : Byte) (buf : Bytes) (srcIp dstIp : Ip) : BitVec 16 :=
  let n := BitVec.ofNat 16 buf.length
  let m := srcIp.bytes ++ dstIp.bytes ++ [0, protoUdp] ++ bytes16 n ++ buf
  checksum16 (if m.length % 2 = 1 then addPadding m 1 else m)

end Sys2Proof.Machine
end

