-- ==== Sys2Proof/Machine/Operands.lean ====
section
/-! DEFINITION. Operands of the operations: which a command may not carry (30_encoding.md R111), the
sender address as `UDP_RX` takes it, and the packets the block builds (R93, R95, R100). -/

namespace Sys2Proof.Machine

/-- Why a command's operands make it no legal command; none where they are legal (R111). -/
def operandRefusal (i : Instr) : Option Refusal :=
  match i with
  | .register _ handler => if handlerCodeDefined handler then none else some .reservedHandler
  | .udpOpen _ handler => if handlerCodeExternal handler then none else some .handlerNotExternal
  | .udpSend data _ _ _ => if data.length ≤ udpMaxData then none else some .payloadTooLong
  | .ipSend buf _ _ => if buf.length ≤ ipMaxPayload then none else some .payloadTooLong
  | _ => none

/-- The sender address as the 4-byte source IP `UDP_RX` needs: `src_addr[0:4]`
(42_protocol_registry.md R182, R183). -/
def SrcAddr.first4 : SrcAddr → Ip
  | .ip a => a
  | .mac m => ⟨m.b0, m.b1, m.b2, m.b3⟩

/-- `arp_packet(op, target_mac, target_ip)` (43_arp.md R191), field by field. -/
def arpPacket (cfg : Cfg) (op : BitVec 16) (targetMac : Mac) (targetIp : Ip) : Bytes :=
  let p := zeros arpPktLen
  let p := putBe16 p 0 cfg.arpHwEther
  let p := putBe16 p 2 cfg.arpProtoIp
  let p := writeAt p 4 [arpHwLen]
  let p := writeAt p 5 [arpProtoLen]
  let p := putBe16 p 6 op
  let p := writeAt p 8 cfg.ifMac.bytes
  let p := writeAt p 14 cfg.ifIp.bytes
  let p := writeAt p 18 targetMac.bytes
  writeAt p 24 targetIp.bytes

/-- The flags+fragment field of a byte offset and a more-fragments flag (30_encoding.md R98). -/
def flagsFragment (cfg : Cfg) (off : BitVec 16) (mf : Bool) : BitVec 16 :=
  (off >>> 3) ||| (if mf then cfg.ipMf else 0)

/-- The datagram `IP_FRAG_TX` builds (44_ip.md R231), field by field. -/
def ipDatagram (cfg : Cfg) (buf : Bytes) (dip : Ip) (proto : Byte) (id off : BitVec 16) (mf : Bool) : Bytes :=
  let n := buf.length
  let b := addHeader buf ipHdrLen
  let b := writeAt b 0 [BitVec.ofNat 8 (ipVersion.toNat * 16 + ipHdrLen / 4)]
  let b := writeAt b 1 [0]
  let b := putBe16 b 2 (BitVec.ofNat 16 (ipHdrLen + n))
  let b := putBe16 b 4 id
  let b := putBe16 b 6 (flagsFragment cfg off mf)
  let b := writeAt b 8 [cfg.ipDefaultTtl]
  let b := writeAt b 9 [proto]
  let b := putBe16 b 10 0
  let b := writeAt b 12 cfg.ifIp.bytes
  let b := writeAt b 16 dip.bytes
  putBe16 b 10 (checksum16 (b.take ipHdrLen))

/-- The UDP datagram `UDP_SEND` builds, its checksum field 0 (45_udp.md R265, R266). -/
def udpDatagram (data : Bytes) (sport dport : BitVec 16) : Bytes :=
  let b := addHeader data udpHdrLen
  let b := putBe16 b 0 sport
  let b := putBe16 b 2 dport
  let b := putBe16 b 4 (BitVec.ofNat 16 (udpHdrLen + data.length))
  putBe16 b 6 0

end Sys2Proof.Machine
end

