-- ==== Sys2Proof/Machine/FrameTransmit.lean ====
section
/-! DEFINITION. Frame Transport, transmit side: `ETH_TX` (41_frame_transport.md R160, R161). -/

namespace Sys2Proof.Machine

/-- `ETH_TX(buf, dst_mac, proto)` (R160): pad, prepend the header, hand the frame to the driver. -/
def ethTx (buf : Bytes) (dstMac : Mac) (proto : BitVec 16) (s : State) : State :=
  let b := if buf.length < s.cfg.ethMinPayload then addPadding buf (s.cfg.ethMinPayload - buf.length) else buf
  let b := addHeader b ethHdrLen
  let b := writeAt b 0 dstMac.bytes
  let b := writeAt b 6 s.cfg.ifMac.bytes
  let b := putBe16 b 12 proto
  emit (.driverSend b) s

/-- The meaning of `ETH_TX` (R160). -/
def execEthTx (buf : Bytes) (dstMac : Mac) (proto : BitVec 16) (s : State) : Answer :=
  .next (ethTx buf dstMac proto s)

end Sys2Proof.Machine
end

