-- ==== Sys2Proof/Machine/AddressResolution.lean ====
section
/-! DEFINITION. Address Resolution: `ARP_REQ`, `ARP_REPLY`, `ARP_OUT`, `ARP_RX` and the two ARP opcodes
(43_arp.md R190 to R204). -/

namespace Sys2Proof.Machine

/-- `ARP_REQ(target_ip)` (R192): broadcast a request, target MAC zero. -/
def arpReq (targetIp : Ip) (s : State) : State :=
  ethTx (arpPacket s.cfg arpOpRequestCode Mac.zero targetIp) s.cfg.ethBroadcast s.cfg.ethertypeArp s

/-- `ARP_REPLY(target_ip, target_mac)` (R193): a reply, unicast to the requester. -/
def arpReply (targetIp : Ip) (targetMac : Mac) (s : State) : State :=
  ethTx (arpPacket s.cfg arpOpReplyCode targetMac targetIp) targetMac s.cfg.ethertypeArp s

/-- `ARP_OUT(buf, ip)` (R196, R197): transmit to a Resolved IP, drop to a Pending one, park and request
for an Unresolved one, in that order. -/
def arpOut (buf : Bytes) (ip : Ip) (s : State) : State :=
  match arpLookup ip s with
  | some mac => ethTx buf mac s.cfg.ethertypeIp s
  | none =>
    match pendingLookup ip s with
    | some _ => drop .arpPendingBusy s
    | none => arpReq ip (park ip buf s)

/-- The header test of `ARP_RX`: hardware and protocol type and lengths (R200; 30_encoding.md R93). -/
def arpHeaderOk (cfg : Cfg) (p : ArpOperands) : Bool :=
  decide (p.hwType = cfg.arpHwEther) && decide (p.proType = cfg.arpProtoIp)
    && decide (p.hwLen = arpHwLen) && decide (p.proLen = arpProtoLen)

/-- What `ARP_RX` does with a packet that passed its tests (R200): learn the sender; then flush the
packet parked for it, or else answer a request for this interface's IP. -/
def arpLearnAndAnswer (op : BitVec 16) (p : ArpOperands) (s : State) : State :=
  let s := arpLearn p.senderIp p.senderMac s
  match pendingLookup p.senderIp s with
  | some packet => unpark p.senderIp (ethTx packet p.senderMac s.cfg.ethertypeIp s)
  | none =>
    if op = arpOpRequestCode ∧ p.targetIp = s.cfg.ifIp then arpReply p.senderIp p.senderMac s else s

/-- `ARP_RX` from its header test on (R200), for a packet of 28 bytes or more with opcode `op`. -/
def arpReceive (op : BitVec 16) (p : ArpOperands) (s : State) : State :=
  if !arpHeaderOk s.cfg p then drop .arpBadHeader s
  else if op ≠ arpOpRequestCode ∧ op ≠ arpOpReplyCode then drop .arpBadOpcode s
  else arpLearnAndAnswer op p s

/-- `ARP_RX(buf, src_mac)` (R200 to R202); the sender address is not used (R201(b)). -/
def arpRx (buf : Bytes) (s : State) : State :=
  if buf.length < arpPktLen then drop .arpShort s
  else arpReceive (be16At buf 6) (arpOperandsOf buf) s

/-- The meaning of `ARP_REQ` (R192). -/
def execArpReq (targetIp : Ip) (s : State) : Answer := .next (arpReq targetIp s)

/-- The meaning of `ARP_REPLY` (R193). -/
def execArpReply (targetIp : Ip) (targetMac : Mac) (s : State) : Answer := .next (arpReply targetIp targetMac s)

/-- The meaning of `ARP_OUT` (R196). -/
def execArpOut (buf : Bytes) (ip : Ip) (s : State) : Answer := .next (arpOut buf ip s)

/-- The meaning of `ARP_RX` (R200); `src_mac` is unused. -/
def execArpRx (buf : Bytes) (_srcMac : Mac) (s : State) : Answer := .next (arpRx buf s)

/-- The meaning of `ARP_OP.REQUEST`: `ARP_RX` of a packet with opcode 1 (30_encoding.md R103(b)). -/
def execArpOpRequest (packet : ArpOperands) (s : State) : Answer := .next (arpReceive arpOpRequestCode packet s)

/-- The meaning of `ARP_OP.REPLY`: `ARP_RX` of a packet with opcode 2 (30_encoding.md R103(b)). -/
def execArpOpReply (packet : ArpOperands) (s : State) : Answer := .next (arpReceive arpOpReplyCode packet s)

end Sys2Proof.Machine
end

