-- ==== Sys2Proof/Machine/Initialization.lean ====
section
/-! DEFINITION. `INIT` (70_reset_and_hazards.md R322). -/

namespace Sys2Proof.Machine

/-- The meaning of `INIT` (R322): register the three receive operations, broadcast the gratuitous
request for this interface's own IP (43_arp.md R203), and set `inited`. -/
def execInit (s : State) : Answer :=
  let s := registrySet s.cfg.ethertypeArp .arp s
  let s := registrySet s.cfg.ethertypeIp .ip s
  let s := registrySet (s.cfg.ipprotoUdp.setWidth 16) .udp s
  let s := arpReq s.cfg.ifIp s
  .next { s with inited := true }

end Sys2Proof.Machine
end

