-- ==== Sys2Proof/Machine/Registration.lean ====
section
/-! DEFINITION. The Protocol Registry's `REGISTER` (42_protocol_registry.md R180, R181). -/

namespace Sys2Proof.Machine

/-- The meaning of `REGISTER` (R180): last registration wins, a rejected insert is silent; a reserved
handler is no legal command (10_state.md R34). -/
def execRegister (proto : BitVec 16) (handler : BitVec 8) (s : State) : Answer :=
  match Handler.ofCode handler with
  | some h => .next (registrySet proto h s)
  | none => .refused .reservedHandler

end Sys2Proof.Machine
end

