-- ==== Sys2Proof/Machine/IpTransmit.lean ====
section
/-! DEFINITION. The IP layer, transmit side: `IP_FRAG_TX` and `IP_SEND` (44_ip.md R229 to R233). -/

namespace Sys2Proof.Machine

/-- `IP_FRAG_TX(buf, dip, proto, id, off, mf)` (R231): build one datagram and hand it to ARP. -/
def ipFragTx (buf : Bytes) (dip : Ip) (proto : Byte) (id off : BitVec 16) (mf : Bool) (s : State) : State :=
  arpOut (ipDatagram s.cfg buf dip proto id off mf) dip s

/-- The loop of `IP_SEND` (R229) on the `rest` of the payload from byte offset `off` on. Its first
argument bounds the passes; the payload's length is enough, since each pass takes `cap > 0` bytes. -/
def ipFragments (dip : Ip) (proto : Byte) (id : BitVec 16) : Nat → Bytes → Nat → State → State
  | 0, rest, off, s => ipFragTx rest dip proto id (BitVec.ofNat 16 off) false s
  | n + 1, rest, off, s =>
    if rest.length > s.cfg.fragCap then
      ipFragments dip proto id n (rest.drop s.cfg.fragCap) (off + s.cfg.fragCap)
        (ipFragTx (rest.take s.cfg.fragCap) dip proto id (BitVec.ofNat 16 off) true s)
    else ipFragTx rest dip proto id (BitVec.ofNat 16 off) false s

/-- `IP_SEND(buf, dip, proto)` (R229): the fragments under one id, then `IP_ID` one further, modulo 2^16. -/
def ipSend (buf : Bytes) (dip : Ip) (proto : Byte) (s : State) : State :=
  let id := s.ipId
  let s := ipFragments dip proto id buf.length buf 0 s
  { s with ipId := s.ipId + 1 }

/-- The meaning of `IP_FRAG_TX` (R231). -/
def execIpFragTx (buf : Bytes) (dip : Ip) (proto : Byte) (id off : BitVec 16) (mf : Bool) (s : State) : Answer :=
  .next (ipFragTx buf dip proto id off mf s)

/-- The meaning of `IP_SEND` (R229); a payload above `IP_MAX_PAYLOAD` is no legal command (30_encoding.md R111). -/
def execIpSend (buf : Bytes) (dip : Ip) (proto : Byte) (s : State) : Answer :=
  if buf.length ≤ ipMaxPayload then .next (ipSend buf dip proto s) else .refused .payloadTooLong

end Sys2Proof.Machine
end

