-- ==== Sys2Proof/Machine/UdpCommands.lean ====
section
/-! DEFINITION. The UDP layer but for its receive: `UDP_CSUM`, `UDP_SEND`, `UDP_OPEN`, `UDP_CLOSE`
(45_udp.md R251 to R253, R265 to R271). -/

namespace Sys2Proof.Machine

/-- `UDP_SEND(data, sport, dip, dport)` (R265): a UDP header with checksum 0, then `IP_SEND`. -/
def udpSend (data : Bytes) (sport : BitVec 16) (dip : Ip) (dport : BitVec 16) (s : State) : State :=
  ipSend (udpDatagram data sport dport) dip s.cfg.ipprotoUdp s

/-- `UDP_OPEN(port, handler)` (R270): set the port's handler and return whether the store took it. -/
def udpOpen (port : BitVec 16) (h : ExtHandler) (s : State) : State :=
  emit (.result (portSet port h s).2) (portSet port h s).1

/-- The meaning of `UDP_CSUM` (R251): it returns 16 bits and writes no state of the block; run as an
operation of its own it leaves them in the model's own field (DESIGN CHOICE, log entry 10). -/
def execUdpCsum (buf : Bytes) (srcIp dstIp : Ip) (s : State) : Answer :=
  .next { s with returned := udpChecksum s.cfg.ipprotoUdp buf srcIp dstIp }

/-- The meaning of `UDP_SEND` (R265); data above `IP_MAX_PAYLOAD - 8` is no legal command (30_encoding.md R111). -/
def execUdpSend (data : Bytes) (sport : BitVec 16) (dip : Ip) (dport : BitVec 16) (s : State) : Answer :=
  if data.length ≤ udpMaxData then .next (udpSend data sport dip dport s) else .refused .payloadTooLong

/-- The meaning of `UDP_OPEN` (R270); a handler not of the form `H_EXT(n)` is no legal command (30_encoding.md R111). -/
def execUdpOpen (port : BitVec 16) (handler : BitVec 8) (s : State) : Answer :=
  match extHandlerOfCode handler with
  | some h => .next (udpOpen port h s)
  | none => .refused .handlerNotExternal

/-- The meaning of `UDP_CLOSE` (R271). -/
def execUdpClose (port : BitVec 16) (s : State) : Answer := .next (portDelete port s)

end Sys2Proof.Machine
end

