-- ==== Sys2Proof/Machine/Reaction.lean ====
section
/-! DEFINITION. Reactions of the external parties (60_exceptions.md R300, R301) and the notification
(R291). -/

namespace Sys2Proof.Machine

/-- One command of an external handler's reaction: the five allowed to it, run as at top level; a model
refuses any other (R300). -/
def handlerReaction (c : Instr) (s : State) : Answer :=
  match c with
  | .udpSend data sport dip dport => execUdpSend data sport dip dport s
  | .ipSend buf dip proto => execIpSend buf dip proto s
  | .udpOpen port handler => execUdpOpen port handler s
  | .udpClose port => execUdpClose port s
  | .register proto handler => execRegister proto handler s
  | _ => .refused .reactionNotAllowed

/-- One command of the ICMP collaborator's reaction: `IP_SEND` only (R300). -/
def icmpReaction (c : Instr) (s : State) : Answer :=
  match c with
  | .ipSend buf dip proto => execIpSend buf dip proto s
  | _ => .refused .reactionNotAllowed

/-- `notify <Code>(datagram, dst_ip)` (R291): the event and the collaborator's reaction; the operation
that notified goes on. -/
def notify (code : Byte) (datagram : Bytes) (dstIp : Ip) (s : State) : Answer :=
  callOut icmpReaction (.icmpUnreachable datagram dstIp code) s

end Sys2Proof.Machine
end

