-- ==== Sys2Proof/Machine/Receive.lean ====
section
/-! DEFINITION. The receive path: `UDP_RX` (45_udp.md R260 to R264), `IP_RX` (44_ip.md R221 to R227),
`DISPATCH` (42_protocol_registry.md R182, R183), `ETH_RX` and `POLL` (41_frame_transport.md R162 to
R164), and the discriminators that select in it (30_encoding.md R103). -/

namespace Sys2Proof.Machine

/-- `UDP_RX` once its three tests are passed (R260): deliver to the port's handler, or notify that the
port is unreachable, with 20 drawn bytes in front of the datagram (R262). -/
def udpDeliver (buf : Bytes) (srcIp : Ip) (s : State) : Answer :=
  match portLookup (be16At buf 2) s with
  | none =>
    notify s.cfg.icmpPortUnreach (placeholder s.draws ++ buf) srcIp { s with draws := s.draws + 1 }
  | some h =>
    let data := removeHeader buf udpHdrLen
    callOut handlerReaction (.udpDeliver h data data.length srcIp (be16At buf 0)) s

/-- `UDP_RX(buf, src_ip)` (R260). -/
def udpRx (buf : Bytes) (srcIp : Ip) (s : State) : Answer :=
  if buf.length < udpHdrLen then .next (drop .udpShort s)
  else if buf.length < (be16At buf 4).toNat then .next (drop .udpTruncated s)
  else if udpChecksum s.cfg.ipprotoUdp (putBe16 buf 6 0) srcIp s.cfg.ifIp ≠ be16At buf 6 then
    .next (drop .udpBadChecksum s)
  else udpDeliver buf srcIp s

/-- `IP_RX` once every test up to the destination is passed (R221, R224, R225): notify where the
protocol is not recognised, then trim, strip and go on with `dispatch`. -/
def ipDeliver (dispatch : Bytes → BitVec 16 → SrcAddr → State → Answer) (buf : Bytes) (s : State) : Answer :=
  let d := ipv4OperandsOf buf
  let proto := byteAt buf 9
  let hlen := 4 * d.hdrLen.toNat
  let total := d.totalLen.toNat
  andThen
    (if s.cfg.ipRecognised.contains proto then .next s else notify s.cfg.icmpProtocolUnreach buf d.srcIp s)
    (fun s =>
      if total < hlen then .next (drop .ipBadTotalLen s)
      else
        let b := if buf.length > total then removePadding buf (buf.length - total) else buf
        dispatch (removeHeader b hlen) (proto.setWidth 16) (.ip d.srcIp) s)

/-- `IP_RX(buf, src_mac)` (R221), its tests in the order that is normative (R222); `dispatch` is what
its last call runs. The sender address is not used. -/
def ipRxWith (dispatch : Bytes → BitVec 16 → SrcAddr → State → Answer) (buf : Bytes) (s : State) : Answer :=
  let d := ipv4OperandsOf buf
  let hlen := 4 * d.hdrLen.toNat
  if buf.length < ipHdrLen then .next (drop .ipShort s)
  else if d.version ≠ ipVersion then .next (drop .ipBadVersion s)
  else if hlen > buf.length then .next (drop .ipHdrlenLong s)
  else if d.hdrLen.toNat < 5 then .next (drop .ipHdrlenShort s)
  else if ipHeaderChecksum buf hlen ≠ d.checksum then .next (drop .ipBadChecksum s)
  else if d.dstIp ≠ s.cfg.ifIp then .next (drop .ipNotMine s)
  else ipDeliver dispatch buf s

/-- `DISPATCH(buf, proto, src_addr)` (R182). Its first argument bounds the passes through the one cycle
of the call graph, `DISPATCH`, `IP_RX`, `DISPATCH` (R184): a buffer's length is enough, since each pass
removes at least 20 bytes (R336); at 0 the buffer is empty and `IP_RX` drops it. -/
def dispatchWithin : Nat → Bytes → BitVec 16 → SrcAddr → State → Answer
  | n, buf, proto, src, s =>
    match registryLookup proto s with
    | none => .next (drop .noHandler s)
    | some .arp => .next (arpRx buf s)
    | some .udp => udpRx buf (SrcAddr.first4 src) s
    | some (.ext h) => callOut handlerReaction (.handlerCall h buf proto src) s
    | some .ip =>
      match n with
      | 0 => ipRxWith (fun _ _ _ s => .next s) buf s
      | m + 1 => ipRxWith (fun b p a s => dispatchWithin m b p a s) buf s

/-- `DISPATCH(buf, proto, src_addr)` (R182). -/
def dispatch (buf : Bytes) (proto : BitVec 16) (src : SrcAddr) (s : State) : Answer :=
  dispatchWithin buf.length buf proto src s

/-- `IP_RX(buf, src_mac)` (R221). -/
def ipRx (buf : Bytes) (s : State) : Answer := ipRxWith dispatch buf s

/-- `ETH_RX(frame)` (41_frame_transport.md R162). -/
def ethRx (frame : Bytes) (s : State) : Answer :=
  if frame.length < ethHdrLen then .next (drop .ethShort s)
  else dispatch (removeHeader frame ethHdrLen) (be16At frame 12) (.mac (macAt frame 6)) s

/-- The meaning of `UDP_RX` (R260). -/
def execUdpRx (buf : Bytes) (srcIp : Ip) (s : State) : Answer := udpRx buf srcIp s

/-- The meaning of `IP_RX` (R221); `src_mac` is unused. -/
def execIpRx (buf : Bytes) (_srcMac : Mac) (s : State) : Answer := ipRx buf s

/-- The meaning of `DISPATCH` (R182). -/
def execDispatch (buf : Bytes) (proto : BitVec 16) (srcAddr : SrcAddr) (s : State) : Answer :=
  dispatch buf proto srcAddr s

/-- The meaning of `ETH_RX` (R162). -/
def execEthRx (frame : Bytes) (s : State) : Answer := ethRx frame s

/-- The meaning of `POLL` (R164): take the driver's next answer; where it is a frame, it fills
`rx_scratch` and is received. An answer above `RX_BUF_CAP` breaks the driver's contract and is refused
(10_state.md R41, U5). -/
def execPoll (s : State) : Answer :=
  match s.driverRx with
  | [] => .next s
  | f :: fs =>
    if f.length > s.cfg.rxBufCap then .refused .driverAnswerTooLong
    else if f.length > 0 then ethRx f { s with driverRx := fs, rxScratch := f }
    else .next { s with driverRx := fs }

/-- The meaning of `ETH_TYPE.ARP`: `ETH_RX` of a frame that carries the type `ETHERTYPE_ARP`; the
handler is the registry's (30_encoding.md R103(a)). -/
def execEthTypeArp (dst src : Mac) (payload : Bytes) (s : State) : Answer :=
  ethRx (ethBytes dst src s.cfg.ethertypeArp payload) s

/-- The meaning of `ETH_TYPE.IP`: `ETH_RX` of a frame that carries the type `ETHERTYPE_IP`; the handler
is the registry's (30_encoding.md R103(a)). -/
def execEthTypeIp (dst src : Mac) (payload : Bytes) (s : State) : Answer :=
  ethRx (ethBytes dst src s.cfg.ethertypeIp payload) s

/-- The meaning of `IP_PROTO.UDP`: `IP_RX` of a datagram that carries the protocol `IPPROTO_UDP`; the
handler is the registry's (30_encoding.md R103(c)). -/
def execIpProtoUdp (datagram : Ipv4Operands) (s : State) : Answer :=
  ipRx (ipv4Bytes s.cfg.ipprotoUdp datagram) s

/-- The meaning of `IP_PROTO.ICMP`: `IP_RX` of a datagram that carries the protocol `IPPROTO_ICMP`; a
handler only if one was registered (30_encoding.md R103(c); 44_ip.md R225(d)). -/
def execIpProtoIcmp (datagram : Ipv4Operands) (s : State) : Answer :=
  ipRx (ipv4Bytes s.cfg.ipprotoIcmp datagram) s

end Sys2Proof.Machine
end

