-- ==== Sys2Proof/Machine/Dispatch.lean ====
section
/-! DEFINITION. One arm per instruction. -/

namespace Sys2Proof.Machine

def exec (i : Instr) (s : State) : Host.Outcome State Fault Refusal :=
  match i with
  | .init => Sys2Proof.Machine.execInit s
  | .poll => Sys2Proof.Machine.execPoll s
  | .register proto handler => Sys2Proof.Machine.execRegister proto handler s
  | .udpOpen port handler => Sys2Proof.Machine.execUdpOpen port handler s
  | .udpClose port => Sys2Proof.Machine.execUdpClose port s
  | .udpSend data sport dip dport => Sys2Proof.Machine.execUdpSend data sport dip dport s
  | .ipSend buf dip proto => Sys2Proof.Machine.execIpSend buf dip proto s
  | .ethTx buf dstMac proto => Sys2Proof.Machine.execEthTx buf dstMac proto s
  | .ethRx frame => Sys2Proof.Machine.execEthRx frame s
  | .dispatch buf proto srcAddr => Sys2Proof.Machine.execDispatch buf proto srcAddr s
  | .arpOut buf ip => Sys2Proof.Machine.execArpOut buf ip s
  | .arpReq targetIp => Sys2Proof.Machine.execArpReq targetIp s
  | .arpReply targetIp targetMac => Sys2Proof.Machine.execArpReply targetIp targetMac s
  | .arpRx buf srcMac => Sys2Proof.Machine.execArpRx buf srcMac s
  | .ipRx buf srcMac => Sys2Proof.Machine.execIpRx buf srcMac s
  | .ipFragTx buf dip proto id off mf => Sys2Proof.Machine.execIpFragTx buf dip proto id off mf s
  | .udpCsum buf srcIp dstIp => Sys2Proof.Machine.execUdpCsum buf srcIp dstIp s
  | .udpRx buf srcIp => Sys2Proof.Machine.execUdpRx buf srcIp s
  | .ethTypeArp dst src payload => Sys2Proof.Machine.execEthTypeArp dst src payload s
  | .ethTypeIp dst src payload => Sys2Proof.Machine.execEthTypeIp dst src payload s
  | .arpOpRequest packet => Sys2Proof.Machine.execArpOpRequest packet s
  | .arpOpReply packet => Sys2Proof.Machine.execArpOpReply packet s
  | .ipProtoUdp datagram => Sys2Proof.Machine.execIpProtoUdp datagram s
  | .ipProtoIcmp datagram => Sys2Proof.Machine.execIpProtoIcmp datagram s

end Sys2Proof.Machine
end

