-- ==== Sys2Proof/Machine/Sequencer.lean ====
section
/-! DEFINITION. The operation sequencer (10_state.md R24, R25): accepting a command on the host port
(R26, R38, R40; 30_encoding.md R111), and running the operation on top of the stack. -/

namespace Sys2Proof.Machine

/-- Whether the boot order allows a command (10_state.md R26): `INIT` first, and only once. -/
def orderRefusal (i : Instr) (inited : Bool) : Option Refusal :=
  if i = .init then (if inited then some .alreadyInitialised else none)
  else (if inited then none else some .notInitialised)

/-- The block is idle: with no command presented it does nothing (41_frame_transport.md R165); a
presented command that is legal (30_encoding.md R111; 70_reset_and_hazards.md R324) is accepted, its
time becoming `now` and its operation being pushed; any other is refused. -/
def accept (s : State) : Answer :=
  match s.hostPort with
  | [] => .next s
  | r :: rs =>
    match decodeOperation r.bytes with
    | .error e => .refused (.undecodable e)
    | .ok i =>
      if !i.isCommand then .refused .internalCode
      else if r.now < s.now then .refused .timeWentBack
      else
        match orderRefusal i s.inited, operandRefusal i with
        | some why, _ => .refused why
        | none, some why => .refused why
        | none, none => .next { s with hostPort := rs, now := r.now, seq := [⟨.operation, r.bytes⟩] }

/-- Run the operation on top of the sequencer, `f`, to completion and pop it (10_state.md R24, R25). -/
def runTop (f : OpFrame) (rest : List OpFrame) (s : State) : Answer :=
  match decode s.cfg f with
  | .error e => .refused (.undecodable e)
  | .ok i => andThen (exec i { s with seq := rest }) (fun t => .next (settle t))

end Sys2Proof.Machine
end

