-- ==== Sys2Proof/Machine/Step.lean ====
section
/-! DEFINITION. One step of the block (00_scope.md R9; 10_state.md R24, R25): an idle block accepts the
next command of the host port, which pushes its operation on the sequencer; a block whose sequencer
holds an operation runs it to completion. -/

namespace Sys2Proof.Machine

/-- One step. A model refuses a configuration that is not legal (00_scope.md R8). -/
def step (s : State) : Host.Outcome State Fault Refusal :=
  if !s.cfg.legal then .refused .illegalConfiguration
  else
    match s.seq with
    | [] => accept s
    | f :: rest => runTop f rest s

/-- `s` with the instruction of a word of spec/opcode_table.json entered: its frame on top of the
sequencer, from where the next step fetches it (log entry 13). -/
def State.withFetchWord (s : State) (nbits w : Nat) : State :=
  { s with seq := tableFrame s.cfg nbits w :: s.seq }

end Sys2Proof.Machine
end

