-- ==== Sys2Proof/Safety.lean ====
section
/-! DEFINITION. What counts as a sound state and as an allowed environment, and the packets and frames
that claims speak of, as the fields of the wire formats in a row. -/

namespace Sys2Proof.Machine

/-! ## Packets and frames as claims speak of them -/

/-- The frame `ETH_TX` hands to the driver: the header of 30_encoding.md R91 with this interface's own
MAC as source, then the payload, zero-padded to `ETH_MIN_PAYLOAD` (R92). -/
def paddedFrame (cfg : Cfg) (dst : Mac) (type : BitVec 16) (payload : Bytes) : Bytes :=
  ethBytes dst cfg.ifMac type (payload ++ zeros (cfg.ethMinPayload - payload.length))

/-- The ARP packet the block sends, by the last column of 30_encoding.md R93. -/
def ownArpPacket (cfg : Cfg) (op : BitVec 16) (targetMac : Mac) (targetIp : Ip) : Bytes :=
  arpBytes op
    { hwType := cfg.arpHwEther, proType := cfg.arpProtoIp, hwLen := 6, proLen := 4, senderMac := cfg.ifMac,
      senderIp := cfg.ifIp, targetMac := targetMac, targetIp := targetIp, trailing := [] }

/-- The broadcast frame of an ARP request for `ip` (43_arp.md R192). -/
def requestFrame (cfg : Cfg) (ip : Ip) : Bytes :=
  paddedFrame cfg cfg.ethBroadcast cfg.ethertypeArp (ownArpPacket cfg 1 Mac.zero ip)

/-- The unicast frame of an ARP reply to the requester (43_arp.md R193). -/
def replyFrame (cfg : Cfg) (ip : Ip) (mac : Mac) : Bytes :=
  paddedFrame cfg mac cfg.ethertypeArp (ownArpPacket cfg 2 mac ip)

/-- The header fields of a transmitted datagram (30_encoding.md R96, R98, R99; 44_ip.md R231), with its
payload, around a given checksum. -/
def sentDatagram (cfg : Cfg) (payload : Bytes) (dip : Ip) (id off : BitVec 16) (mf : Bool) (checksum : BitVec 16) :
    Ipv4Operands :=
  { version := 4, hdrLen := 5, tos := 0, totalLen := BitVec.ofNat 16 (20 + payload.length), id := id,
    flagsFrag := (off >>> 3) ||| (if mf then cfg.ipMf else 0), ttl := cfg.ipDefaultTtl, checksum := checksum,
    srcIp := cfg.ifIp, dstIp := dip, rest := payload }

/-- The bytes of a transmitted datagram: its checksum is `checksum16` of the 20 header bytes with the
field 0 (44_ip.md R232). -/
def datagramBytes (cfg : Cfg) (payload : Bytes) (dip : Ip) (proto : Byte) (id off : BitVec 16) (mf : Bool) : Bytes :=
  ipv4Bytes proto (sentDatagram cfg payload dip id off mf
    (checksum16 ((ipv4Bytes proto (sentDatagram cfg payload dip id off mf 0)).take 20)))

/-- The checksum a header should carry: that of its `4 * hdr_len` bytes with the field 0 (44_ip.md R221). -/
def headerSum (proto : Byte) (d : Ipv4Operands) : BitVec 16 :=
  checksum16 ((ipv4Bytes proto { d with checksum := 0 }).take (4 * d.hdrLen.toNat))

/-- A datagram that passes every test of `IP_RX` up to the destination test (44_ip.md R221). -/
structure IpAccepted (cfg : Cfg) (proto : Byte) (d : Ipv4Operands) : Prop where
  version : d.version = 4
  fits : 4 * d.hdrLen.toNat ≤ 20 + d.rest.length
  fixedFields : 5 ≤ d.hdrLen.toNat
  checksum : headerSum proto d = d.checksum
  mine : d.dstIp = cfg.ifIp

/-- The payload of a received datagram: what is left when the bytes beyond `total_len` are trimmed and
the `4 * hdr_len` header bytes, 20 of them fixed, are stripped (44_ip.md R224). -/
def payloadOf (d : Ipv4Operands) : Bytes := (d.rest.take (d.totalLen.toNat - 20)).drop (4 * d.hdrLen.toNat - 20)

/-- A UDP header's fields and the payload in a row (30_encoding.md R100). -/
def udpBytes (sport dport len checksum : BitVec 16) (data : Bytes) : Bytes :=
  bytes16 sport ++ bytes16 dport ++ bytes16 len ++ bytes16 checksum ++ data

/-- The checksum of `b` behind the pseudo-header of 30_encoding.md R101, the length in it that of `b`,
with a zero byte more where the length is odd (45_udp.md R251). -/
def pseudoSum (cfg : Cfg) (src dst : Ip) (b : Bytes) : BitVec 16 :=
  checksum16 (src.bytes ++ dst.bytes ++ [0, cfg.ipprotoUdp] ++ bytes16 (BitVec.ofNat 16 b.length) ++ b
    ++ zeros (b.length % 2))

/-- The first four bytes of a sender address (42_protocol_registry.md R182, R183). -/
def firstFour : SrcAddr → Bytes
  | .ip a => a.bytes
  | .mac m => m.bytes.take 4

/-- The number of datagrams a payload of `len` bytes makes (44_ip.md R230): 1 if it fits, else
`ceil(len / cap)`. -/
def fragmentCount (cfg : Cfg) (len : Nat) : Nat :=
  if len ≤ cfg.fragCap then 1 else (len + cfg.fragCap - 1) / cfg.fragCap

/-- Fragment `k` of a payload (44_ip.md R230): offset `k * cap`, more-fragments on all but the last. -/
def fragmentBytes (cfg : Cfg) (payload : Bytes) (dip : Ip) (proto : Byte) (id : BitVec 16) (k : Nat) : Bytes :=
  datagramBytes cfg ((payload.drop (k * cfg.fragCap)).take cfg.fragCap) dip proto id
    (BitVec.ofNat 16 (k * cfg.fragCap)) (decide (k + 1 < fragmentCount cfg payload.length))

/-- A byte string with bit `k` flipped, counting from the most significant bit of the first byte. -/
def flipBit (b : Bytes) (k : Nat) : Bytes :=
  b.modify (k / 8) (fun x => x ^^^ (0x80#8 >>> (k % 8)))

/-- The `hdr_len` that a datagram has after the flip of its header's bit `k`, one of the bits 4 to 7. -/
def flippedHdrLen (d : Ipv4Operands) (k : Nat) : Nat := (d.hdrLen ^^^ (0x8#4 >>> (k - 4))).toNat

/-! ## The environment -/

/-- Events that end at a port of the block and call nobody who could react (60_exceptions.md R301). -/
def Event.isQuiet : Event → Bool
  | .driverSend _ => true
  | .result _ => true
  | .drop _ => true
  | .handlerCall _ _ _ _ => false
  | .udpDeliver _ _ _ _ _ => false
  | .icmpUnreachable _ _ _ => false

/-- The five commands an external handler may issue in a reaction (60_exceptions.md R300). -/
def handlerMayIssue : Instr → Bool
  | .udpSend _ _ _ _ => true
  | .ipSend _ _ _ => true
  | .udpOpen _ _ => true
  | .udpClose _ => true
  | .register _ _ => true
  | _ => false

/-- The one command the ICMP collaborator may issue in a reaction (60_exceptions.md R300). -/
def icmpMayIssue : Instr → Bool
  | .ipSend _ _ _ => true
  | _ => false

/-- A command any external handler may issue in a reaction, with legal operands (60_exceptions.md R300;
30_encoding.md R111). -/
def allowedToHandler (c : Instr) : Bool := handlerMayIssue c && c.wellFormed

/-- A command the ICMP collaborator may issue in a reaction, with legal operands (60_exceptions.md R300;
30_encoding.md R111). -/
def allowedToIcmp (c : Instr) : Bool := icmpMayIssue c && c.wellFormed

/-- Why a command is refused in a reaction: it is none the party may issue (60_exceptions.md R300), or its
operands make it no legal command (30_encoding.md R111). -/
def refusedInReaction (mayIssue : Instr → Bool) (c : Instr) (why : Refusal) : Prop :=
  if mayIssue c then operandRefusal c = some why else why = .reactionNotAllowed

/-- Every pending reaction holds only commands that any party may issue, so that none can be refused
whichever call out of the block takes it. -/
def reactionsAllowed (s : State) : Prop := ∀ r ∈ s.reactions, ∀ c ∈ r, allowedToIcmp c = true

/-- Commands in order, each at the state the one before it left (60_exceptions.md R300). -/
def execAll : List Instr → State → Answer
  | [], s => .next s
  | c :: cs, s => andThen (exec c s) (execAll cs)

/-- The instructions of the receive path: what `POLL` goes through from a frame on. -/
def receives : Instr → Bool
  | .ethRx _ => true
  | .dispatch _ _ _ => true
  | .arpRx _ _ => true
  | .ipRx _ _ => true
  | .udpRx _ _ => true
  | .ethTypeArp _ _ _ => true
  | .ethTypeIp _ _ _ => true
  | .arpOpRequest _ => true
  | .arpOpReply _ => true
  | .ipProtoUdp _ => true
  | .ipProtoIcmp _ => true
  | _ => false

/-- An entry of a store with time-to-live `ttl`, stored at `stored`, is live at `time` (40_primitives.md R141). -/
abbrev liveAt (ttl stored time : Nat) : Prop := ttl = 0 ∨ time < stored + ttl

/-- What a valid ARP packet with opcode `op` does to `s` (43_arp.md R200 to R202): the sender learned, for
a lifetime from now, where the table takes it; the packet parked for it sent to the learned MAC and
removed, or else a request for this interface's IP answered; nothing else, no other entry's lifetime
among it. -/
structure ArpHandled (op : BitVec 16) (p : ArpOperands) (s t : State) : Prop where
  rest : t = { s with arpTable := t.arpTable, arpPending := t.arpPending, out := t.out }
  learned : ∀ a time, s.now ≤ time → arpLookup a { t with now := time } =
    if a = p.senderIp ∧ ((arpLookup p.senderIp s).isSome ∨
        Table.count s.cfg.arpTimeout s.now s.arpTable < s.cfg.arpTableCap)
    then (if liveAt s.cfg.arpTimeout s.now time then some p.senderMac else none)
    else arpLookup a { s with now := time }
  flushed : ∀ a time, s.now ≤ time → pendingLookup a { t with now := time } =
    if a = p.senderIp then none else pendingLookup a { s with now := time }
  sent : t.out = s.out ++
    match pendingLookup p.senderIp s with
    | some packet => [.driverSend (paddedFrame s.cfg p.senderMac s.cfg.ethertypeIp packet)]
    | none =>
      if op = 1 ∧ p.targetIp = s.cfg.ifIp then [.driverSend (replyFrame s.cfg p.senderIp p.senderMac)] else []

/-- An ARP packet whose header fields are Ethernet's and IPv4's (30_encoding.md R93). -/
def arpHeaderValid (cfg : Cfg) (p : ArpOperands) : Prop :=
  p.hwType = cfg.arpHwEther ∧ p.proType = cfg.arpProtoIp ∧ p.hwLen = 6 ∧ p.proLen = 4

/-! ## Sound states -/

/-- No store holds more live entries than its capacity (40_primitives.md R143). -/
def withinCapacity (s : State) : Prop :=
  Table.count s.cfg.arpTimeout s.now s.arpTable ≤ s.cfg.arpTableCap ∧
  Table.count s.cfg.arpPendingTimeout s.now s.arpPending ≤ s.cfg.arpPendingCap ∧
  Table.count 0 s.now s.registry ≤ s.cfg.registryCap ∧
  Table.count 0 s.now s.portTable ≤ s.cfg.portTableCap

/-- No entry was stored later than now (40_primitives.md R133(g)). -/
def stampsPast (s : State) : Prop :=
  (∀ e ∈ s.arpTable, e.stamp ≤ s.now) ∧ (∀ e ∈ s.arpPending, e.stamp ≤ s.now) ∧
  (∀ e ∈ s.registry, e.stamp ≤ s.now) ∧ (∀ e ∈ s.portTable, e.stamp ≤ s.now)

/-- "No IP ever has a live table entry and a live pending entry at once" (10_state.md R37). -/
def neverBoth (s : State) : Prop := ∀ ip, arpLookup ip s = none ∨ pendingLookup ip s = none

/-- Before `INIT` every table is empty and `IP_ID` is 0 (10_state.md R48); after it the three receive
operations have handlers under their identifiers, since no operation removes a registration
(70_reset_and_hazards.md R322, 42_protocol_registry.md R180). -/
def bootOrder (s : State) : Prop :=
  if s.inited then
    (registryLookup s.cfg.ethertypeArp s).isSome ∧ (registryLookup s.cfg.ethertypeIp s).isSome ∧
    (registryLookup (s.cfg.ipprotoUdp.setWidth 16) s).isSome
  else s.arpTable = [] ∧ s.arpPending = [] ∧ s.registry = [] ∧ s.portTable = [] ∧ s.ipId = 0

/-- The sequencer is IDLE, or holds one accepted command: a legal one, `INIT` exactly where it has not
run (10_state.md R24, R26; 30_encoding.md R111). -/
def sequencerSound (s : State) : Prop :=
  s.seq = [] ∨
  ∃ b i, s.seq = [⟨.operation, b⟩] ∧ decodeOperation b = .ok i ∧ i.isCommand = true ∧ i.wellFormed = true ∧
    (i = .init ↔ s.inited = false)

/-- The scratch buffers hold at most a frame (10_state.md R21, R22). -/
def scratchBounded (s : State) : Prop :=
  s.txScratch.length ≤ ethHdrLen + s.cfg.ethMtu ∧ s.rxScratch.length ≤ s.cfg.rxBufCap

/-- What every state that a run from reset reaches is held to. -/
structure Inv (s : State) : Prop where
  legal : s.cfg.legal = true
  memory : Memory.wf s = true
  capacity : withinCapacity s
  stamps : stampsPast s
  exclusive : neverBoth s
  boot : bootOrder s
  sequencer : sequencerSound s
  scratch : scratchBounded s

end Sys2Proof.Machine
end

