-- ==== Sys2Proof/Certificates/Slice0/Obligations.lean ====
section
/-! DEFINITION. The statements for the provers. Each docstring names the rule it formalises, or says that
it rests on a choice of the model's and on which log entry. -/

open Sys2Proof Sys2Proof.Machine

/-! ## Encoding -/

/-- Words written out from the tables of R110, R91, R93 and R95, for each family, read as the instruction
they stand for: operations, frames, ARP packets, datagrams. The byte layout of operands on the host port,
that a received unit is an instruction by its discriminator, and how a word of the opcode table is laid
out are the model's (log entries 4, 11 and 13). -/
def Obligations.WrittenWordsDecode : Prop :=
  decodeOperation [0x01] = .ok .init ∧
  decodeOperation [0x03, 0x12, 0x34, 0x85] = .ok (.register 0x1234 0x85) ∧
  decodeOperation [0x12, 0x03, 0xe8, 192, 168, 1, 20, 0x07, 0xd0, 0x61]
    = .ok (.udpSend [0x61] 1000 ⟨192, 168, 1, 20⟩ 2000) ∧
  decodeOperation [0x20, 192, 168, 1, 20, 1, 0x61] = .ok (.ipSend [0x61] ⟨192, 168, 1, 20⟩ 1) ∧
  decodeOperation [0x40, 2, 0, 0, 0, 0, 9, 0x08, 0x06, 0x61] = .ok (.ethTx [0x61] ⟨2, 0, 0, 0, 0, 9⟩ 0x0806) ∧
  decodeOperation [0x51, 192, 168, 1, 20] = .ok (.arpReq ⟨192, 168, 1, 20⟩) ∧
  decodeOperation [0x61, 192, 168, 1, 20, 17, 0, 7, 0x05, 0xc8, 1, 0x61]
    = .ok (.ipFragTx [0x61] ⟨192, 168, 1, 20⟩ 17 7 1480 true) ∧
  decode Cfg.cfg0 ⟨.ethernetFrame, [2, 0, 0, 0, 0, 1, 2, 0, 0, 0, 0, 9, 0x08, 0x00, 0x61, 0x62]⟩
    = .ok (.ethTypeIp ⟨2, 0, 0, 0, 0, 1⟩ ⟨2, 0, 0, 0, 0, 9⟩ [0x61, 0x62]) ∧
  decode Cfg.cfg0 ⟨.arpPacket, [0x00, 0x01, 0x08, 0x00, 0x06, 0x04, 0x00, 0x02, 2, 0, 0, 0, 0, 9, 192, 168, 1, 20,
      2, 0, 0, 0, 0, 1, 192, 168, 1, 10, 0xaa]⟩
    = .ok (.arpOpReply {
        hwType := 1, proType := 0x0800, hwLen := 6, proLen := 4
        senderMac := ⟨2, 0, 0, 0, 0, 9⟩, senderIp := ⟨192, 168, 1, 20⟩
        targetMac := ⟨2, 0, 0, 0, 0, 1⟩, targetIp := ⟨192, 168, 1, 10⟩, trailing := [0xaa] }) ∧
  decode Cfg.cfg0 ⟨.ipv4Datagram, [0x46, 0x10, 0x01, 0x02, 0x03, 0x04, 0x20, 0x05, 0x3f, 0x11, 0x07, 0x08,
      192, 168, 1, 20, 192, 168, 1, 10, 0xbb, 0xcc]⟩
    = .ok (.ipProtoUdp {
        version := 4, hdrLen := 6, tos := 0x10, totalLen := 0x0102, id := 0x0304, flagsFrag := 0x2005, ttl := 63
        checksum := 0x0708, srcIp := ⟨192, 168, 1, 20⟩, dstIp := ⟨192, 168, 1, 10⟩, rest := [0xbb, 0xcc] }) ∧
  decodeTableWord 16 0x0806 = some (.ethTypeArp Mac.zero Mac.zero []) ∧
  decodeTableWord 8 0x51 = some (.arpReq Ip.zero)

/-- Decoding an instruction's encoding gives the instruction back, every operand at every value
(30_encoding.md R103, R110). -/
def Obligations.DecodeOfEncode : Prop :=
  ∀ (cfg : Cfg) (i : Instr), cfg.legal = true → decode cfg (encode cfg i) = .ok i

/-- Encoding what was decoded gives the bytes back: no two byte strings are one instruction. -/
def Obligations.EncodeOfDecode : Prop :=
  ∀ (cfg : Cfg) (f : OpFrame) (i : Instr), decode cfg f = .ok i → encode cfg i = f

/-- The handler codes of 10_state.md R34: `H_ARP` 0x01, `H_IP` 0x02, `H_UDP` 0x03, `H_EXT(n)` 0x80 + n,
each read as its handler; 0x00 and 0x04 to 0x7F name none. -/
def Obligations.HandlerCodes : Prop :=
  Handler.arp.code.toNat = 0x01 ∧ Handler.ip.code.toNat = 0x02 ∧ Handler.udp.code.toNat = 0x03 ∧
  (∀ n : ExtHandler, (Handler.ext n).code.toNat = 0x80 + n.val) ∧
  (∀ h : Handler, Handler.ofCode h.code = some h) ∧
  (∀ c : BitVec 8, Handler.ofCode c = none ↔ (c.toNat = 0 ∨ (4 ≤ c.toNat ∧ c.toNat ≤ 0x7F)))

/-! ## The step -/

/-- A block whose sequencer holds an operation pops it, runs it, and leaves both scratch buffers with
unspecified content of at most their size (10_state.md R21, R22, R24, R25; log entries 1 and 9). -/
def Obligations.StepRunsDecodedInstruction : Prop :=
  ∀ (s : State) (f : OpFrame) (rest : List OpFrame) (i : Instr),
    s.cfg.legal = true → s.seq = f :: rest → decode s.cfg f = .ok i →
    step s = match exec i { s with seq := rest } with
      | .next t => .next { t with
          txScratch := staleBytes t.draws (14 + t.cfg.ethMtu)
          rxScratch := staleBytes (t.draws + 1) t.cfg.rxBufCap
          draws := t.draws + 2 }
      | .fault r => .fault r
      | .refused r => .refused r

/-- An idle block accepts the next command of the host port when it is a legal one: a command's code,
operands within their rules, `INIT` exactly where it has not run, and a time not before the last
command's. It latches the time and pushes the operation (10_state.md R24, R26, R38; 30_encoding.md R111). -/
def Obligations.LegalCommandAccepted : Prop :=
  ∀ (s : State) (r : HostRequest) (rs : List HostRequest) (i : Instr),
    s.cfg.legal = true → s.seq = [] → s.hostPort = r :: rs → decodeOperation r.bytes = .ok i →
    i.isCommand = true → i.wellFormed = true → (i = .init ↔ s.inited = false) → s.now ≤ r.now →
    step s = .next { s with hostPort := rs, now := r.now, seq := [⟨.operation, r.bytes⟩] }

/-- Every other command presented to an idle block is refused, by a name that is not "not modelled"
(30_encoding.md R111; 10_state.md R26, R38; 70_reset_and_hazards.md R324). -/
def Obligations.IllegalCommandRefused : Prop :=
  ∀ (s : State) (r : HostRequest) (rs : List HostRequest),
    s.cfg.legal = true → s.seq = [] → s.hostPort = r :: rs →
    ¬ (s.now ≤ r.now ∧ ∃ i, decodeOperation r.bytes = .ok i ∧ i.isCommand = true ∧ i.wellFormed = true ∧
        (i = .init ↔ s.inited = false)) →
    ∃ why, step s = .refused why ∧ ∀ m, why ≠ .notModelled m

/-- A code that is not one of the seven commands' (01, 02, 03, 10, 11, 12, 20) is no legal command,
whatever follows it; nor is an empty transaction (30_encoding.md R110, R111). -/
def Obligations.OnlyCommandCodesAccepted : Prop :=
  ∀ (s t : State) (r : HostRequest) (rs : List HostRequest),
    s.seq = [] → s.hostPort = r :: rs → step s = .next t →
    ∃ code ∈ ([0x01, 0x02, 0x03, 0x10, 0x11, 0x12, 0x20] : List Byte), ∃ ops, r.bytes = code :: ops

/-- An idle block with no command presented does nothing (41_frame_transport.md R165), and a block with
an illegal configuration is refused (00_scope.md R8). -/
def Obligations.IdleBlockWaits : Prop :=
  (∀ s : State, s.cfg.legal = true → s.seq = [] → s.hostPort = [] → step s = .next s) ∧
  (∀ s : State, s.cfg.legal = false → step s = .refused .illegalConfiguration)

/-- The state after reset, for any configuration: the straps at the configured addresses, `IP_ID` 0, the
four tables empty, `seq` IDLE, `inited` 0 (10_state.md R48). The reference reset is the one of CFG0. -/
def Obligations.ResetValues : Prop :=
  State.reset = State.resetWith Cfg.cfg0 ∧
  ∀ cfg : Cfg,
    (State.resetWith cfg).cfg = cfg ∧ (State.resetWith cfg).ipId = 0 ∧ (State.resetWith cfg).arpTable = [] ∧
    (State.resetWith cfg).arpPending = [] ∧ (State.resetWith cfg).registry = [] ∧
    (State.resetWith cfg).portTable = [] ∧ (State.resetWith cfg).seq = [] ∧ (State.resetWith cfg).inited = false

/-- Right after reset `INIT` is accepted at any time and nothing else is (10_state.md R26). -/
def Obligations.OnlyInitAfterReset : Prop :=
  ∀ (cfg : Cfg) (r : HostRequest) (rs : List HostRequest), cfg.legal = true →
    ((∃ t, step { State.resetWith cfg with hostPort := r :: rs } = .next t) ↔ r.bytes = [0x01])

/-! ## Invariants -/

/-- The state after reset is sound, whatever the legal configuration. -/
def Obligations.ResetSound : Prop :=
  ∀ cfg : Cfg, cfg.legal = true → Inv (State.resetWith cfg)

/-- Every step keeps a sound state sound: the tables' canonical form, their capacities and timestamps,
"no IP ever has a live table entry and a live pending entry at once", the boot order, the sequencer
(10_state.md R24, R26, R37; 40_primitives.md R133(g), R143). -/
def Obligations.StepKeepsSound : Prop :=
  ∀ s t : State, Inv s → step s = .next t → Inv t

/-- No step changes the configuration, turns time back, takes back an event or unsets `inited`
(10_state.md R26, R28, R29, R31, R38; 20_memory.md R68). -/
def Obligations.StepNeverGoesBack : Prop :=
  ∀ s t : State, step s = .next t →
    t.cfg = s.cfg ∧ s.now ≤ t.now ∧ (∃ es, t.out = s.out ++ es) ∧ (s.inited = true → t.inited = true)

/-- A key once registered always has some handler (42_protocol_registry.md R180; 10_state.md R35). -/
def Obligations.RegistrationsStay : Prop :=
  ∀ (s t : State) (k : BitVec 16), step s = .next t →
    (registryLookup k s).isSome → (registryLookup k t).isSome

/-- Every accepted command completes and the block returns to idle, where the driver keeps its contract
and the pending reactions hold only legal `IP_SEND`s, which any party may issue (70_reset_and_hazards.md
R336; 10_state.md R24, R41; 60_exceptions.md R300). -/
def Obligations.AcceptedCommandCompletes : Prop :=
  ∀ s : State, Inv s → s.seq ≠ [] → reactionsAllowed s → (∀ f ∈ s.driverRx, f.length ≤ s.cfg.rxBufCap) →
    ∃ t, step s = .next t ∧ t.seq = []

/-! ## Frame transport -/

/-- `ETH_TX` hands one frame to the driver: destination, own MAC, type, payload, zero padding up to
`ETH_MIN_PAYLOAD`; nothing else changes (41_frame_transport.md R160, R161). -/
def Obligations.EthTxSendsFrame : Prop :=
  ∀ (buf : Bytes) (dst : Mac) (type : BitVec 16) (s : State),
    exec (.ethTx buf dst type) s = .next { s with
      out := s.out ++ [.driverSend (dst.bytes ++ s.cfg.ifMac.bytes ++ bytes16 type ++ buf
        ++ zeros (s.cfg.ethMinPayload - buf.length))] }

/-- `ETH_RX` drops a frame shorter than 14 bytes; any other is dispatched by its type, the header
stripped, its source MAC as sender address, its destination never looked at (41_frame_transport.md R162,
R163). -/
def Obligations.EthRxStripsAndDispatches : Prop :=
  (∀ (frame : Bytes) (s : State), frame.length < 14 →
    exec (.ethRx frame) s = .next { s with out := s.out ++ [.drop .ethShort] }) ∧
  (∀ (dst src : Mac) (type : BitVec 16) (payload : Bytes) (s : State),
    exec (.ethRx (dst.bytes ++ src.bytes ++ bytes16 type ++ payload)) s
      = exec (.dispatch payload type (.mac src)) s)

/-- `POLL`: no answer or an empty one is no frame; a frame within `RX_BUF_CAP` fills `rx_scratch` and is
received; a longer answer breaks the driver's contract and is refused (41_frame_transport.md R164;
10_state.md R41). That answers come from a list is the model's choice (log entry 5). -/
def Obligations.PollReceivesOneFrame : Prop :=
  ∀ s : State,
    (s.driverRx = [] → exec .poll s = .next s) ∧
    (∀ fs, s.driverRx = [] :: fs → exec .poll s = .next { s with driverRx := fs }) ∧
    (∀ f fs, s.driverRx = f :: fs → f ≠ [] → f.length ≤ s.cfg.rxBufCap →
      exec .poll s = exec (.ethRx f) { s with driverRx := fs, rxScratch := f }) ∧
    (∀ f fs, s.driverRx = f :: fs → s.cfg.rxBufCap < f.length → exec .poll s = .refused .driverAnswerTooLong)

/-- A frame whose type is `ETHERTYPE_ARP` or `ETHERTYPE_IP` goes where the registry says, and to `ARP_RX`
and `IP_RX` where it holds `H_ARP` and `H_IP` for the two types (30_encoding.md R103(a)). -/
def Obligations.EthernetTypeSelectsHandler : Prop :=
  ∀ (dst src m : Mac) (payload : Bytes) (s : State),
    exec (.ethTypeArp dst src payload) s = exec (.dispatch payload s.cfg.ethertypeArp (.mac src)) s ∧
    exec (.ethTypeIp dst src payload) s = exec (.dispatch payload s.cfg.ethertypeIp (.mac src)) s ∧
    (registryLookup s.cfg.ethertypeArp s = some .arp →
      exec (.ethTypeArp dst src payload) s = exec (.arpRx payload m) s) ∧
    (registryLookup s.cfg.ethertypeIp s = some .ip →
      exec (.ethTypeIp dst src payload) s = exec (.ipRx payload m) s)

/-! ## The registry -/

/-- `REGISTER` sets the handler of one key, replacing one that is there; a new key into a full registry
silently does nothing; no other key and no other state changes (42_protocol_registry.md R180). -/
def Obligations.RegisterSetsHandler : Prop :=
  ∀ (proto : BitVec 16) (h : Handler) (s : State),
    ∃ t, exec (.register proto h.code) s = .next t ∧ t = { s with registry := t.registry } ∧
      ∀ k, registryLookup k t =
        if k = proto ∧ ((registryLookup proto s).isSome ∨ Table.count 0 s.now s.registry < s.cfg.registryCap)
        then some h else registryLookup k s

/-- `DISPATCH` drops a payload whose key has no handler, and calls the block's own receive operation that
the registry holds for the key, `UDP_RX` getting the first four bytes of the sender address
(42_protocol_registry.md R182, R183). -/
def Obligations.DispatchFollowsRegistry : Prop :=
  ∀ (buf : Bytes) (proto : BitVec 16) (src : SrcAddr) (s : State),
    (registryLookup proto s = none →
      exec (.dispatch buf proto src) s = .next { s with out := s.out ++ [.drop .noHandler] }) ∧
    (registryLookup proto s = some .arp → ∀ m, exec (.dispatch buf proto src) s = exec (.arpRx buf m) s) ∧
    (registryLookup proto s = some .ip → ∀ m, exec (.dispatch buf proto src) s = exec (.ipRx buf m) s) ∧
    (registryLookup proto s = some .udp →
      ∀ a, a.bytes = firstFour src → exec (.dispatch buf proto src) s = exec (.udpRx buf a) s)

/-- `DISPATCH` to an external handler emits `HandlerCall` and runs the handler's reaction, where it holds
only allowed commands, at that point and in order (42_protocol_registry.md R182; 60_exceptions.md R300). -/
def Obligations.DispatchCallsExternalHandler : Prop :=
  ∀ (buf : Bytes) (proto : BitVec 16) (src : SrcAddr) (n : ExtHandler) (s : State),
    registryLookup proto s = some (.ext n) →
    (s.reactions = [] → exec (.dispatch buf proto src) s
      = .next { s with out := s.out ++ [.handlerCall n buf proto src] }) ∧
    (∀ r rs, s.reactions = r :: rs → (∀ c ∈ r, allowedToHandler c = true) →
      exec (.dispatch buf proto src) s
        = execAll r { s with out := s.out ++ [.handlerCall n buf proto src], reactions := rs } ∧
      ∃ t, exec (.dispatch buf proto src) s = .next t)

/-- The shared key space as a hazard: a frame whose type is the UDP protocol number reaches `UDP_RX`, the
first four bytes of its source MAC taken as source IP (70_reset_and_hazards.md R333). -/
def Obligations.SharedKeySpaceReachesUdp : Prop :=
  ∀ (dst src : Mac) (payload : Bytes) (s : State),
    registryLookup (s.cfg.ipprotoUdp.setWidth 16) s = some .udp →
    exec (.ethRx (dst.bytes ++ src.bytes ++ [0, s.cfg.ipprotoUdp] ++ payload)) s
      = exec (.udpRx payload ⟨src.b0, src.b1, src.b2, src.b3⟩) s

/-! ## Address resolution -/

/-- `ARP_REQ` broadcasts a request with target MAC zero, and changes no table (43_arp.md R191, R192). -/
def Obligations.ArpReqBroadcasts : Prop :=
  ∀ (ip : Ip) (s : State),
    exec (.arpReq ip) s = .next { s with out := s.out ++ [.driverSend (requestFrame s.cfg ip)] }

/-- `ARP_REPLY` answers the requester by unicast, and changes no table (43_arp.md R191, R193). -/
def Obligations.ArpReplyAnswers : Prop :=
  ∀ (ip : Ip) (mac : Mac) (s : State),
    exec (.arpReply ip mac) s = .next { s with out := s.out ++ [.driverSend (replyFrame s.cfg ip mac)] }

/-- `ARP_OUT`: a Resolved IP gets the packet at its cached MAC; a Pending one drops it and changes
nothing; an Unresolved one parks it where there is room, for `ARP_PENDING_TIMEOUT` from now, and requests
in any case (43_arp.md R190, R196, R197; 40_primitives.md R141). -/
def Obligations.ArpOutByState : Prop :=
  ∀ (buf : Bytes) (ip : Ip) (s : State),
    (∀ mac, arpLookup ip s = some mac →
      exec (.arpOut buf ip) s = .next { s with
        out := s.out ++ [.driverSend (paddedFrame s.cfg mac s.cfg.ethertypeIp buf)] }) ∧
    (arpLookup ip s = none → (pendingLookup ip s).isSome →
      exec (.arpOut buf ip) s = .next { s with out := s.out ++ [.drop .arpPendingBusy] }) ∧
    (arpLookup ip s = none → pendingLookup ip s = none →
      ∃ t, exec (.arpOut buf ip) s = .next t ∧
        t = { s with arpPending := t.arpPending, out := s.out ++ [.driverSend (requestFrame s.cfg ip)] } ∧
        ∀ a time, s.now ≤ time → pendingLookup a { t with now := time } =
          if a = ip ∧ Table.count s.cfg.arpPendingTimeout s.now s.arpPending < s.cfg.arpPendingCap
          then (if liveAt s.cfg.arpPendingTimeout s.now time then some buf else none)
          else pendingLookup a { s with now := time })

/-- `ARP_RX` drops a packet that is too short, has a wrong header field, or has an opcode other than 1
and 2, tested in that order, with no table mutation and no reply (43_arp.md R200; 30_encoding.md R112). -/
def Obligations.ArpRxDropsMalformed : Prop :=
  (∀ (buf : Bytes) (m : Mac) (s : State), buf.length < 28 →
    exec (.arpRx buf m) s = .next { s with out := s.out ++ [.drop .arpShort] }) ∧
  (∀ (op : BitVec 16) (p : ArpOperands) (m : Mac) (s : State), ¬ arpHeaderValid s.cfg p →
    exec (.arpRx (arpBytes op p) m) s = .next { s with out := s.out ++ [.drop .arpBadHeader] }) ∧
  (∀ (op : BitVec 16) (p : ArpOperands) (m : Mac) (s : State), arpHeaderValid s.cfg p → op ≠ 1 → op ≠ 2 →
    exec (.arpRx (arpBytes op p) m) s = .next { s with out := s.out ++ [.drop .arpBadOpcode] })

/-- A valid ARP packet teaches its sender, and flushes the packet parked for it or else is answered if it
asks for this interface's IP; the Ethernet source address and the bytes after the packet are not used
(43_arp.md R200, R201, R202). -/
def Obligations.ArpRxLearnsFlushesAnswers : Prop :=
  ∀ (op : BitVec 16) (p : ArpOperands) (m : Mac) (s : State), arpHeaderValid s.cfg p → op = 1 ∨ op = 2 →
    ∃ t, exec (.arpRx (arpBytes op p) m) s = .next t ∧ ArpHandled op p s t

/-- The two ARP opcodes select request and reply handling inside `ARP_RX`: for a valid packet each has the
effect of R200 with its opcode, for any other it is dropped (30_encoding.md R103(b)). -/
def Obligations.ArpOpcodeSelectsHandling : Prop :=
  ∀ (p : ArpOperands) (s : State),
    (arpHeaderValid s.cfg p →
      (∃ t, exec (.arpOpRequest p) s = .next t ∧ ArpHandled 1 p s t) ∧
      (∃ t, exec (.arpOpReply p) s = .next t ∧ ArpHandled 2 p s t)) ∧
    (¬ arpHeaderValid s.cfg p →
      exec (.arpOpRequest p) s = .next { s with out := s.out ++ [.drop .arpBadHeader] } ∧
      exec (.arpOpReply p) s = .next { s with out := s.out ++ [.drop .arpBadHeader] })

/-- A frame of type `ETHERTYPE_ARP` with a valid packet is received whole: from the driver's answer to the
table, the flushed packet or the reply (41_frame_transport.md R162, R164; 43_arp.md R200). -/
def Obligations.ArpFrameHandled : Prop :=
  ∀ (op : BitVec 16) (p : ArpOperands) (dst src : Mac) (s : State),
    registryLookup s.cfg.ethertypeArp s = some .arp → arpHeaderValid s.cfg p → op = 1 ∨ op = 2 →
    (∃ t, exec (.ethTypeArp dst src (arpBytes op p)) s = .next t ∧ ArpHandled op p s t) ∧
    (∃ t, exec (.ethRx (ethBytes dst src s.cfg.ethertypeArp (arpBytes op p))) s = .next t ∧ ArpHandled op p s t) ∧
    (∀ fs, s.driverRx = ethBytes dst src s.cfg.ethertypeArp (arpBytes op p) :: fs →
      (ethBytes dst src s.cfg.ethertypeArp (arpBytes op p)).length ≤ s.cfg.rxBufCap →
      ∃ t, exec .poll s = .next t ∧
        ArpHandled op p
          { s with driverRx := fs, rxScratch := ethBytes dst src s.cfg.ethertypeArp (arpBytes op p) } t)

/-- A packet to an unresolved IP is parked for `ARP_PENDING_TIMEOUT` from the time it was sent. A second
packet sent less than that later (90_conflicts.md C7) causes no second request and does not prolong the
time (43_arp.md R197(d)). On a valid ARP packet from that IP within the time only the first packet is transmitted
(70_reset_and_hazards.md R335(a)). When the time has passed the first is lost, and a third packet is parked in
its place and requested for again (43_arp.md R190, R197(e)). -/
def Obligations.SecondPacketSuppressed : Prop :=
  ∀ (first second : Bytes) (ip : Ip) (s : State) (mid later : Nat),
    arpLookup ip s = none → pendingLookup ip s = none →
    Table.count s.cfg.arpPendingTimeout s.now s.arpPending < s.cfg.arpPendingCap →
    s.now ≤ mid → mid < s.now + s.cfg.arpPendingTimeout → mid ≤ later →
    ∃ t u, exec (.arpOut first ip) s = .next t ∧ exec (.arpOut second ip) { t with now := mid } = .next u ∧
      u.out = s.out ++ [.driverSend (requestFrame s.cfg ip), .drop .arpPendingBusy] ∧
      pendingLookup ip { u with now := later }
        = (if later < s.now + s.cfg.arpPendingTimeout then some first else none) ∧
      (later < s.now + s.cfg.arpPendingTimeout →
        ∀ (op : BitVec 16) (p : ArpOperands) (m : Mac), arpHeaderValid s.cfg p → op = 1 ∨ op = 2 → p.senderIp = ip →
          ∃ v, exec (.arpRx (arpBytes op p) m) { u with now := later } = .next v ∧ pendingLookup ip v = none ∧
            v.out = u.out ++ [.driverSend (paddedFrame s.cfg p.senderMac s.cfg.ethertypeIp first)]) ∧
      (s.now + s.cfg.arpPendingTimeout ≤ later →
        ∀ third : Bytes, ∃ v, exec (.arpOut third ip) { u with now := later } = .next v ∧
          v.out = u.out ++ [.driverSend (requestFrame s.cfg ip)] ∧ pendingLookup ip v = some third)

/-- An address learned from a valid ARP packet is used until `ARP_TIMEOUT` after that packet and no longer: a
packet sent to it at any time before goes out to it at once and does not refresh the entry, one sent later
is requested for (40_primitives.md R141; 43_arp.md R190, R197(c); 70_reset_and_hazards.md R337(a)). -/
def Obligations.LearnedAddressExpires : Prop :=
  ∀ (op : BitVec 16) (p : ArpOperands) (m : Mac) (buf : Bytes) (s : State) (mid later : Nat),
    1 ≤ s.cfg.arpTimeout → arpHeaderValid s.cfg p → op = 1 ∨ op = 2 →
    ((arpLookup p.senderIp s).isSome ∨ Table.count s.cfg.arpTimeout s.now s.arpTable < s.cfg.arpTableCap) →
    s.now ≤ mid → mid ≤ later →
    ∃ t u, exec (.arpRx (arpBytes op p) m) s = .next t ∧
      exec (.arpOut buf p.senderIp) { t with now := mid } = .next u ∧
      (mid < s.now + s.cfg.arpTimeout → u = { t with
        now := mid
        out := t.out ++ [.driverSend (paddedFrame s.cfg p.senderMac s.cfg.ethertypeIp buf)] }) ∧
      (s.now + s.cfg.arpTimeout ≤ mid →
        u.out = t.out ++ [.driverSend (requestFrame s.cfg p.senderIp)]) ∧
      arpLookup p.senderIp { u with now := later }
        = if later < s.now + s.cfg.arpTimeout then some p.senderMac else none

/-! ## IP -/

/-- `IP_RX` makes its tests in the order of R221 and the first that fails decides the drop; no
notification is sent and nothing else changes (44_ip.md R221, R222, R223). -/
def Obligations.IpRxDropsInOrder : Prop :=
  (∀ (buf : Bytes) (m : Mac) (s : State), buf.length < 20 →
    exec (.ipRx buf m) s = .next { s with out := s.out ++ [.drop .ipShort] }) ∧
  (∀ (proto : Byte) (d : Ipv4Operands) (m : Mac) (s : State),
    if d.version ≠ 4 then
      exec (.ipRx (ipv4Bytes proto d) m) s = .next { s with out := s.out ++ [.drop .ipBadVersion] }
    else if 4 * d.hdrLen.toNat > 20 + d.rest.length then
      exec (.ipRx (ipv4Bytes proto d) m) s = .next { s with out := s.out ++ [.drop .ipHdrlenLong] }
    else if d.hdrLen.toNat < 5 then
      exec (.ipRx (ipv4Bytes proto d) m) s = .next { s with out := s.out ++ [.drop .ipHdrlenShort] }
    else if headerSum proto d ≠ d.checksum then
      exec (.ipRx (ipv4Bytes proto d) m) s = .next { s with out := s.out ++ [.drop .ipBadChecksum] }
    else if d.dstIp ≠ s.cfg.ifIp then
      exec (.ipRx (ipv4Bytes proto d) m) s = .next { s with out := s.out ++ [.drop .ipNotMine] }
    else IpAccepted s.cfg proto d)

/-- An accepted datagram with a recognised protocol: dropped where its declared length is below its
header's; else trimmed, stripped and dispatched by its protocol with its source IP (44_ip.md R221, R224). -/
def Obligations.IpRxDispatchesPayload : Prop :=
  ∀ (proto : Byte) (d : Ipv4Operands) (m : Mac) (s : State), IpAccepted s.cfg proto d →
    proto ∈ s.cfg.ipRecognised →
    if d.totalLen.toNat < 4 * d.hdrLen.toNat then
      exec (.ipRx (ipv4Bytes proto d) m) s = .next { s with out := s.out ++ [.drop .ipBadTotalLen] }
    else exec (.ipRx (ipv4Bytes proto d) m) s = exec (.dispatch (payloadOf d) (proto.setWidth 16) (.ip d.srcIp)) s

/-- An accepted datagram with any other protocol: the notification with the whole datagram and the
collaborator's reaction come first, then the datagram goes on as any other (44_ip.md R225; 60_exceptions.md
R291, R300). -/
def Obligations.UnrecognisedProtocolNotifiesThenDispatches : Prop :=
  ∀ (proto : Byte) (d : Ipv4Operands) (m : Mac) (s u : State), IpAccepted s.cfg proto d →
    proto ∉ s.cfg.ipRecognised →
    (s.reactions = [] ∧ u = { s with
        out := s.out ++ [.icmpUnreachable (ipv4Bytes proto d) d.srcIp s.cfg.icmpProtocolUnreach] } ∨
      ∃ r rs, s.reactions = r :: rs ∧ (∀ c ∈ r, allowedToIcmp c = true) ∧
        execAll r { s with
          out := s.out ++ [.icmpUnreachable (ipv4Bytes proto d) d.srcIp s.cfg.icmpProtocolUnreach],
          reactions := rs } = .next u) →
    if d.totalLen.toNat < 4 * d.hdrLen.toNat then
      exec (.ipRx (ipv4Bytes proto d) m) s = .next { u with out := u.out ++ [.drop .ipBadTotalLen] }
    else exec (.ipRx (ipv4Bytes proto d) m) s = exec (.dispatch (payloadOf d) (proto.setWidth 16) (.ip d.srcIp)) u

/-- Flipping any one bit of the header of an accepted datagram makes `IP_RX` drop it and do nothing else.
Of the four bits of `hdr_len` this holds for the flips that leave a header shorter than 5 words or longer
than the datagram: R227 claims it for all of them, and a datagram whose payload makes up for the change of
header length shows that it does not follow from R221 (log entry 15). -/
def Obligations.HeaderBitFlipDropped : Prop :=
  ∀ (proto : Byte) (d : Ipv4Operands) (m : Mac) (s : State) (k : Nat), IpAccepted s.cfg proto d →
    k < 32 * d.hdrLen.toNat →
    (4 ≤ k → k < 8 → flippedHdrLen d k < 5 ∨ 20 + d.rest.length < 4 * flippedHdrLen d k) →
    ∃ reason, exec (.ipRx (flipBit (ipv4Bytes proto d) k) m) s
      = .next { s with out := s.out ++ [.drop reason] }

/-- A receiver that sums the 20 header bytes of a transmitted datagram, the field included, gets
`checksum16` = 0 (44_ip.md R232). -/
def Obligations.TransmittedHeaderVerifies : Prop :=
  ∀ (cfg : Cfg) (payload : Bytes) (dip : Ip) (proto : Byte) (id off : BitVec 16) (mf : Bool),
    checksum16 ((datagramBytes cfg payload dip proto id off mf).take 20) = 0

/-- `IP_FRAG_TX` builds the datagram of R231, its flags and offset field by R98, and hands it to
`ARP_OUT`; to a Resolved destination it leaves as one frame and nothing else changes (44_ip.md R231). For an
offset that is no multiple of 8, or a payload too long for the length field, of which no rule speaks, that
is the model's choice (log entry 12). -/
def Obligations.IpFragTxBuildsDatagram : Prop :=
  ∀ (buf : Bytes) (dip : Ip) (proto : Byte) (id off : BitVec 16) (mf : Bool) (s : State),
    exec (.ipFragTx buf dip proto id off mf) s
      = exec (.arpOut (datagramBytes s.cfg buf dip proto id off mf) dip) s ∧
    ∀ mac, arpLookup dip s = some mac →
      exec (.ipFragTx buf dip proto id off mf) s = .next { s with
        out := s.out ++ [.driverSend (paddedFrame s.cfg mac s.cfg.ethertypeIp
          (datagramBytes s.cfg buf dip proto id off mf))] }

/-- `IP_SEND` to a Resolved destination: the fragments of R230 leave as frames in ascending offset order
under one identification, and `IP_ID` is one further, modulo 2^16 (44_ip.md R229, R230; 10_state.md R30). -/
def Obligations.IpSendToResolved : Prop :=
  ∀ (buf : Bytes) (dip : Ip) (proto : Byte) (mac : Mac) (s : State), s.cfg.legal = true →
    buf.length ≤ 65515 → arpLookup dip s = some mac →
    exec (.ipSend buf dip proto) s = .next { s with
      ipId := s.ipId + 1
      out := s.out ++ (List.range (fragmentCount s.cfg buf.length)).map (fun k =>
        .driverSend (paddedFrame s.cfg mac s.cfg.ethertypeIp (fragmentBytes s.cfg buf dip proto s.ipId k))) }

/-- `IP_SEND` to any other destination: to a Pending one every fragment is dropped; to an Unresolved one
with room the first is parked, for `ARP_PENDING_TIMEOUT` from now, and requested for and the rest dropped; with
no room every fragment only causes a request (44_ip.md R229; 43_arp.md R196, R197(f), R198; 40_primitives.md
R141). -/
def Obligations.IpSendToUnresolved : Prop :=
  ∀ (buf : Bytes) (dip : Ip) (proto : Byte) (s : State), s.cfg.legal = true → buf.length ≤ 65515 →
    arpLookup dip s = none →
    ((pendingLookup dip s).isSome →
      exec (.ipSend buf dip proto) s = .next { s with
        ipId := s.ipId + 1
        out := s.out ++ List.replicate (fragmentCount s.cfg buf.length) (.drop .arpPendingBusy) }) ∧
    (pendingLookup dip s = none →
      Table.count s.cfg.arpPendingTimeout s.now s.arpPending < s.cfg.arpPendingCap →
      ∃ t, exec (.ipSend buf dip proto) s = .next t ∧
        t = { s with
          ipId := s.ipId + 1
          arpPending := t.arpPending
          out := s.out ++ .driverSend (requestFrame s.cfg dip)
            :: List.replicate (fragmentCount s.cfg buf.length - 1) (.drop .arpPendingBusy) } ∧
        ∀ a time, s.now ≤ time → pendingLookup a { t with now := time } =
          if a = dip
          then (if liveAt s.cfg.arpPendingTimeout s.now time
            then some (fragmentBytes s.cfg buf dip proto s.ipId 0) else none)
          else pendingLookup a { s with now := time }) ∧
    (pendingLookup dip s = none →
      s.cfg.arpPendingCap ≤ Table.count s.cfg.arpPendingTimeout s.now s.arpPending →
      exec (.ipSend buf dip proto) s = .next { s with
        ipId := s.ipId + 1
        out := s.out ++ List.replicate (fragmentCount s.cfg buf.length)
          (.driverSend (requestFrame s.cfg dip)) })

/-- The fragments' payloads in a row are the payload; every fragment fits `ETH_MTU` and starts at a
multiple of 8; all but the last are full; the total lengths sum to `n * 20 + L` (44_ip.md R230). -/
def Obligations.FragmentsCoverPayload : Prop :=
  ∀ (cfg : Cfg) (buf : Bytes) (dip : Ip) (proto : Byte) (id : BitVec 16), cfg.legal = true → buf.length ≤ 65515 →
    ((List.range (fragmentCount cfg buf.length)).flatMap (fun k =>
      (fragmentBytes cfg buf dip proto id k).drop 20)) = buf ∧
    (∀ k, k < fragmentCount cfg buf.length →
      (fragmentBytes cfg buf dip proto id k).length ≤ cfg.ethMtu ∧
      (k * cfg.fragCap) % 8 = 0 ∧ k * cfg.fragCap ≤ 65512 ∧
      (k + 1 < fragmentCount cfg buf.length →
        (fragmentBytes cfg buf dip proto id k).length = 20 + cfg.fragCap)) ∧
    ((List.range (fragmentCount cfg buf.length)).map (fun k =>
      (fragmentBytes cfg buf dip proto id k).length)).sum = fragmentCount cfg buf.length * 20 + buf.length

/-! ## UDP -/

/-- `checksum16` is the complement of the ones'-complement sum: a 16-bit number congruent to the sum of
the words modulo 65535, and 0 only for a sum of 0 (40_primitives.md R131). -/
def Obligations.ChecksumIsOnesComplementSum : Prop :=
  ∀ b : Bytes, ∃ folded ≤ 0xFFFF, (checksum16 b).toNat + folded = 0xFFFF ∧
    folded % 65535 = wordSum b % 65535 ∧ (folded = 0 ↔ wordSum b = 0)

/-- `UDP_CSUM` returns the checksum over pseudo-header, header, payload and pad byte, the same with the
addresses swapped, and changes nothing else (45_udp.md R251, R252). That the result of an operation run
on its own is left in `returned` is the model's choice (log entry 10), and so is the result for a buffer
of fewer than 8 or more than 65535 bytes, which R251 does not have (log entry 12). -/
def Obligations.UdpCsumReturnsPseudoHeaderSum : Prop :=
  ∀ (buf : Bytes) (src dst : Ip) (s : State),
    exec (.udpCsum buf src dst) s = .next { s with returned := pseudoSum s.cfg src dst buf } ∧
    exec (.udpCsum buf dst src) s = exec (.udpCsum buf src dst) s

/-- `UDP_RX` drops a datagram shorter than its header, shorter than its declared length, or with a wrong
checksum, tested in that order, and changes nothing else (45_udp.md R260, R261, R264). -/
def Obligations.UdpRxDropsInOrder : Prop :=
  (∀ (buf : Bytes) (src : Ip) (s : State), buf.length < 8 →
    exec (.udpRx buf src) s = .next { s with out := s.out ++ [.drop .udpShort] }) ∧
  (∀ (sport dport len checksum : BitVec 16) (data : Bytes) (src : Ip) (s : State),
    (8 + data.length < len.toNat →
      exec (.udpRx (udpBytes sport dport len checksum data) src) s
        = .next { s with out := s.out ++ [.drop .udpTruncated] }) ∧
    (len.toNat ≤ 8 + data.length → pseudoSum s.cfg src s.cfg.ifIp (udpBytes sport dport len 0 data) ≠ checksum →
      exec (.udpRx (udpBytes sport dport len checksum data) src) s
        = .next { s with out := s.out ++ [.drop .udpBadChecksum] }))

/-- A datagram that passes the tests is delivered to the handler of its destination port, everything
after the 8-byte header, with source IP and port; the handler's reaction, where it holds only allowed
commands, follows (45_udp.md R260, R263). -/
def Obligations.UdpRxDelivers : Prop :=
  ∀ (sport dport len checksum : BitVec 16) (data : Bytes) (src : Ip) (h : ExtHandler) (s : State),
    len.toNat ≤ 8 + data.length → pseudoSum s.cfg src s.cfg.ifIp (udpBytes sport dport len 0 data) = checksum →
    portLookup dport s = some h →
    (s.reactions = [] → exec (.udpRx (udpBytes sport dport len checksum data) src) s
      = .next { s with out := s.out ++ [.udpDeliver h data data.length src sport] }) ∧
    (∀ r rs, s.reactions = r :: rs → (∀ c ∈ r, allowedToHandler c = true) →
      exec (.udpRx (udpBytes sport dport len checksum data) src) s
        = execAll r { s with out := s.out ++ [.udpDeliver h data data.length src sport], reactions := rs } ∧
      ∃ t, exec (.udpRx (udpBytes sport dport len checksum data) src) s = .next t)

/-- A datagram that passes the tests for a closed port causes exactly one port-unreachable notification,
of some 20 bytes and the datagram as received, and invokes no handler; the ICMP collaborator's reaction,
where it holds only allowed commands, follows. The 20 bytes are a free value (log entry 8), and that the
reaction is the next of a list is the model's form of R300 (log entry 6) (45_udp.md R262; 60_exceptions.md R291,
R300). -/
def Obligations.ClosedPortNotifies : Prop :=
  ∀ (sport dport len checksum : BitVec 16) (data : Bytes) (src : Ip) (s : State),
    len.toNat ≤ 8 + data.length → pseudoSum s.cfg src s.cfg.ifIp (udpBytes sport dport len 0 data) = checksum →
    portLookup dport s = none →
    ∃ placeholderBytes : Bytes, placeholderBytes.length = 20 ∧
      (s.reactions = [] → exec (.udpRx (udpBytes sport dport len checksum data) src) s = .next { s with
        draws := s.draws + 1
        out := s.out ++ [.icmpUnreachable (placeholderBytes ++ udpBytes sport dport len checksum data) src
          s.cfg.icmpPortUnreach] }) ∧
      (∀ r rs, s.reactions = r :: rs → (∀ c ∈ r, allowedToIcmp c = true) →
        exec (.udpRx (udpBytes sport dport len checksum data) src) s = execAll r { s with
          draws := s.draws + 1
          out := s.out ++ [.icmpUnreachable (placeholderBytes ++ udpBytes sport dport len checksum data) src
            s.cfg.icmpPortUnreach]
          reactions := rs } ∧
        ∃ t, exec (.udpRx (udpBytes sport dport len checksum data) src) s = .next t)

/-- `UDP_SEND` puts a UDP header with checksum 0 in front of the data and sends it by `IP_SEND` with
protocol `IPPROTO_UDP`; to a Resolved destination, where it fits one frame, that is one frame and `IP_ID`
one further (45_udp.md R265, R266). -/
def Obligations.UdpSendBuildsDatagram : Prop :=
  ∀ (data : Bytes) (sport dport : BitVec 16) (dip : Ip) (s : State), s.cfg.legal = true → data.length ≤ 65507 →
    exec (.udpSend data sport dip dport) s
      = exec (.ipSend (udpBytes sport dport (BitVec.ofNat 16 (8 + data.length)) 0 data) dip s.cfg.ipprotoUdp) s ∧
    ∀ mac, arpLookup dip s = some mac → 28 + data.length ≤ s.cfg.ethMtu →
      exec (.udpSend data sport dip dport) s = .next { s with
        ipId := s.ipId + 1
        out := s.out ++ [.driverSend (paddedFrame s.cfg mac s.cfg.ethertypeIp
          (datagramBytes s.cfg (udpBytes sport dport (BitVec.ofNat 16 (8 + data.length)) 0 data) dip
            s.cfg.ipprotoUdp s.ipId 0 false))] }

/-- Two instances of this block cannot exchange UDP datagrams, except where the computed checksum is 0:
what `UDP_SEND` sends, `UDP_RX` drops (70_reset_and_hazards.md R334; 45_udp.md R261). -/
def Obligations.OwnUdpDatagramNotAccepted : Prop :=
  ∀ (data : Bytes) (sport dport : BitVec 16) (src : Ip) (s : State), data.length ≤ 65507 →
    pseudoSum s.cfg src s.cfg.ifIp (udpBytes sport dport (BitVec.ofNat 16 (8 + data.length)) 0 data) ≠ 0 →
    exec (.udpRx (udpBytes sport dport (BitVec.ofNat 16 (8 + data.length)) 0 data) src) s
      = .next { s with out := s.out ++ [.drop .udpBadChecksum] }

/-- `UDP_OPEN` sets the port's handler, replacing one that is there, and returns `ok`; a new port into a
full table changes nothing and returns `fail` (45_udp.md R270; 60_exceptions.md R292). -/
def Obligations.UdpOpenReturnsResult : Prop :=
  ∀ (port : BitVec 16) (h : ExtHandler) (s : State),
    ∃ t ok, exec (.udpOpen port (Handler.ext h).code) s = .next t ∧
      t = { s with portTable := t.portTable, out := s.out ++ [.result ok] } ∧
      (ok = true ↔ (portLookup port s).isSome ∨ Table.count 0 s.now s.portTable < s.cfg.portTableCap) ∧
      (ok = false → t.portTable = s.portTable) ∧
      ∀ q, portLookup q t = if q = port ∧ ok = true then some h else portLookup q s

/-- `UDP_CLOSE` removes the port's handler, and does nothing where there is none (45_udp.md R271). -/
def Obligations.UdpCloseRemovesPort : Prop :=
  ∀ (port : BitVec 16) (s : State),
    ∃ t, exec (.udpClose port) s = .next t ∧ t = { s with portTable := t.portTable } ∧
      ∀ q, portLookup q t = if q = port then none else portLookup q s

/-- A UDP datagram with right checksums, in an IP datagram to this interface, is delivered once to the
handler of its port, from `IP_RX` on and as a received unit of protocol `IPPROTO_UDP`; no reaction is
pending (44_ip.md R221; 45_udp.md R260; 30_encoding.md R103(c)). -/
def Obligations.UdpDatagramDelivered : Prop :=
  ∀ (d : Ipv4Operands) (sport dport checksum : BitVec 16) (data pad : Bytes) (m : Mac) (h : ExtHandler) (s : State),
    IpAccepted s.cfg s.cfg.ipprotoUdp d → d.hdrLen = 5 → d.totalLen.toNat = 28 + data.length →
    d.rest = udpBytes sport dport (BitVec.ofNat 16 (8 + data.length)) checksum data ++ pad →
    pseudoSum s.cfg d.srcIp s.cfg.ifIp (udpBytes sport dport (BitVec.ofNat 16 (8 + data.length)) 0 data)
      = checksum →
    s.cfg.ipprotoUdp ∈ s.cfg.ipRecognised → registryLookup (s.cfg.ipprotoUdp.setWidth 16) s = some .udp →
    portLookup dport s = some h → s.reactions = [] →
    exec (.ipProtoUdp d) s
      = .next { s with out := s.out ++ [.udpDeliver h data data.length d.srcIp sport] } ∧
    exec (.ipRx (ipv4Bytes s.cfg.ipprotoUdp d) m) s
      = .next { s with out := s.out ++ [.udpDeliver h data data.length d.srcIp sport] }

/-- A frame that carries such a datagram is delivered from the driver to the handler, whatever its
Ethernet addresses; no reaction is pending (41_frame_transport.md R162 to R164; 44_ip.md R221; 45_udp.md R260). -/
def Obligations.UdpFrameDelivered : Prop :=
  ∀ (d : Ipv4Operands) (sport dport checksum : BitVec 16) (data pad : Bytes) (dst src : Mac) (h : ExtHandler)
    (s : State),
    IpAccepted s.cfg s.cfg.ipprotoUdp d → d.hdrLen = 5 → d.totalLen.toNat = 28 + data.length →
    d.rest = udpBytes sport dport (BitVec.ofNat 16 (8 + data.length)) checksum data ++ pad →
    pseudoSum s.cfg d.srcIp s.cfg.ifIp (udpBytes sport dport (BitVec.ofNat 16 (8 + data.length)) 0 data)
      = checksum →
    s.cfg.ipprotoUdp ∈ s.cfg.ipRecognised → registryLookup s.cfg.ethertypeIp s = some .ip →
    registryLookup (s.cfg.ipprotoUdp.setWidth 16) s = some .udp → portLookup dport s = some h →
    s.reactions = [] →
    exec (.ethTypeIp dst src (ipv4Bytes s.cfg.ipprotoUdp d)) s
      = .next { s with out := s.out ++ [.udpDeliver h data data.length d.srcIp sport] } ∧
    exec (.ethRx (ethBytes dst src s.cfg.ethertypeIp (ipv4Bytes s.cfg.ipprotoUdp d))) s
      = .next { s with out := s.out ++ [.udpDeliver h data data.length d.srcIp sport] } ∧
    (∀ fs, s.driverRx = ethBytes dst src s.cfg.ethertypeIp (ipv4Bytes s.cfg.ipprotoUdp d) :: fs →
      34 + d.rest.length ≤ s.cfg.rxBufCap →
      exec .poll s = .next { s with
        driverRx := fs
        rxScratch := ethBytes dst src s.cfg.ethertypeIp (ipv4Bytes s.cfg.ipprotoUdp d)
        out := s.out ++ [.udpDeliver h data data.length d.srcIp sport] })

/-- A datagram of protocol `IPPROTO_ICMP` goes where the registry says, as any other: `IP_RX` dispatches its
payload by its protocol. A registered external handler gets the payload, no reaction being pending; with none
registered it is dropped with no notification. That the discriminator stands for this is the model's reading
of R103(c), log entry 11 (30_encoding.md R103(c); 44_ip.md R225(d)). -/
def Obligations.IcmpDatagramByRegistry : Prop :=
  ∀ (d : Ipv4Operands) (s : State), IpAccepted s.cfg s.cfg.ipprotoIcmp d →
    4 * d.hdrLen.toNat ≤ d.totalLen.toNat → s.cfg.ipprotoIcmp ∈ s.cfg.ipRecognised →
    exec (.ipProtoIcmp d) s
      = exec (.dispatch (payloadOf d) (s.cfg.ipprotoIcmp.setWidth 16) (.ip d.srcIp)) s ∧
    (∀ n, registryLookup (s.cfg.ipprotoIcmp.setWidth 16) s = some (.ext n) → s.reactions = [] →
      exec (.ipProtoIcmp d) s = .next { s with
        out := s.out ++ [.handlerCall n (payloadOf d) (s.cfg.ipprotoIcmp.setWidth 16) (.ip d.srcIp)] }) ∧
    (registryLookup (s.cfg.ipprotoIcmp.setWidth 16) s = none →
      exec (.ipProtoIcmp d) s = .next { s with out := s.out ++ [.drop .noHandler] })

/-! ## Initialisation and reactions -/

/-- `INIT` registers the three receive operations, broadcasts the gratuitous request for this interface's
own IP, sets `inited`, and changes nothing else (70_reset_and_hazards.md R322; 43_arp.md R203). -/
def Obligations.InitRegistersAndAnnounces : Prop :=
  ∀ s : State, s.cfg.legal = true →
    ∃ t, exec .init s = .next t ∧
      t = { s with
        registry := t.registry
        inited := true
        out := s.out ++ [.driverSend (requestFrame s.cfg s.cfg.ifIp)] } ∧
      (s.registry = [] → ∀ k, registryLookup k t =
        if k = s.cfg.ethertypeArp then some .arp
        else if k = s.cfg.ethertypeIp then some .ip
        else if k = s.cfg.ipprotoUdp.setWidth 16 then some .udp
        else none)

/-- A command that a party may issue in a reaction completes, calls nobody out of the block and uses up no
reaction, so a reaction never causes a further one (60_exceptions.md R301). -/
def Obligations.ReactionsDoNotNest : Prop :=
  ∀ (c : Instr) (s : State), allowedToHandler c = true ∨ allowedToIcmp c = true →
    ∃ t es, exec c s = .next t ∧ t.out = s.out ++ es ∧ (∀ e ∈ es, e.isQuiet = true) ∧
      t = { s with
        ipId := t.ipId, arpPending := t.arpPending, registry := t.registry, portTable := t.portTable,
        out := t.out }

/-- A reaction may hold nothing but the commands R300 allows to the party, with legal operands: wherever
in the reaction one stands that is not, after commands that are, it is refused, and with it the operation
that called out, at each of the four calls out of the block: to an external handler from `DISPATCH` or from
`UDP_RX`, to the ICMP collaborator for a closed port or for an unrecognised protocol (60_exceptions.md R300;
30_encoding.md R111). That it refuses the whole command is the model's choice (log entry 6). -/
def Obligations.ForbiddenReactionsRefused : Prop :=
  ∀ (before after : List Instr) (c : Instr) (rs : List (List Instr)) (s : State),
    s.reactions = (before ++ c :: after) :: rs →
    ((∀ b ∈ before, allowedToHandler b = true) → allowedToHandler c = false →
      ∃ why, refusedInReaction handlerMayIssue c why ∧
        (∀ (buf : Bytes) (proto : BitVec 16) (a : SrcAddr) (n : ExtHandler),
          registryLookup proto s = some (.ext n) → exec (.dispatch buf proto a) s = .refused why) ∧
        (∀ (sport dport len checksum : BitVec 16) (data : Bytes) (src : Ip) (h : ExtHandler),
          len.toNat ≤ 8 + data.length →
          pseudoSum s.cfg src s.cfg.ifIp (udpBytes sport dport len 0 data) = checksum →
          portLookup dport s = some h →
          exec (.udpRx (udpBytes sport dport len checksum data) src) s = .refused why)) ∧
    ((∀ b ∈ before, allowedToIcmp b = true) → allowedToIcmp c = false →
      ∃ why, refusedInReaction icmpMayIssue c why ∧
        (∀ (sport dport len checksum : BitVec 16) (data : Bytes) (src : Ip),
          len.toNat ≤ 8 + data.length →
          pseudoSum s.cfg src s.cfg.ifIp (udpBytes sport dport len 0 data) = checksum →
          portLookup dport s = none →
          exec (.udpRx (udpBytes sport dport len checksum data) src) s = .refused why) ∧
        (∀ (proto : Byte) (d : Ipv4Operands) (m : Mac), IpAccepted s.cfg proto d → proto ∉ s.cfg.ipRecognised →
          exec (.ipRx (ipv4Bytes proto d) m) s = .refused why))

/-- The operands that make a command no legal one are refused by the operation too, as they are on the
host port: a reserved handler, a handler that is not `H_EXT(n)`, a byte string too long (30_encoding.md
R111). Where a check is made is the model's choice (log entry 17). -/
def Obligations.IllegalOperandsRefused : Prop :=
  (∀ (proto : BitVec 16) (code : BitVec 8) (s : State), (code.toNat = 0 ∨ (4 ≤ code.toNat ∧ code.toNat ≤ 0x7F)) →
    exec (.register proto code) s = .refused .reservedHandler) ∧
  (∀ (port : BitVec 16) (code : BitVec 8) (s : State), code.toNat < 0x80 →
    exec (.udpOpen port code) s = .refused .handlerNotExternal) ∧
  (∀ (data : Bytes) (sport : BitVec 16) (dip : Ip) (dport : BitVec 16) (s : State), 65507 < data.length →
    exec (.udpSend data sport dip dport) s = .refused .payloadTooLong) ∧
  (∀ (buf : Bytes) (dip : Ip) (proto : Byte) (s : State), 65515 < buf.length →
    exec (.ipSend buf dip proto) s = .refused .payloadTooLong)

/-! ## The receive path as a whole -/

/-- Every operation of the receive path terminates with a next state, on any bytes, any registry and any
port table, where the pending reactions hold only legal `IP_SEND`s, which any party may issue
(70_reset_and_hazards.md R336). -/
def Obligations.ReceivePathCompletes : Prop :=
  ∀ (i : Instr) (s : State), receives i = true → reactionsAllowed s → ∃ t, exec i s = .next t

/-- The receive path and `POLL` change nothing but the ARP tables, the events, the free values drawn and,
for `POLL`, its input and buffer, as long as no reaction is pending (60_exceptions.md R283, R291). -/
def Obligations.ReceivePathFrame : Prop :=
  ∀ (i : Instr) (s t : State), s.reactions = [] → exec i s = .next t →
    (receives i = true → t = { s with
      arpTable := t.arpTable, arpPending := t.arpPending, out := t.out, draws := t.draws }) ∧
    (i = .poll → t = { s with
      arpTable := t.arpTable, arpPending := t.arpPending, out := t.out, draws := t.draws,
      driverRx := t.driverRx, rxScratch := t.rxScratch })
end

