-- ==== Sys2Proof/Laws/State.lean ====
section
/-! SUPPORT. What each named update of the state does to each of its fields, one lemma a field. -/

namespace Sys2Proof.Machine

/-! ## emit -/

@[simp] theorem emit_cfg (e : Event) (s : State) : (emit e s).cfg = s.cfg := rfl
@[simp] theorem emit_ipId (e : Event) (s : State) : (emit e s).ipId = s.ipId := rfl
@[simp] theorem emit_arpTable (e : Event) (s : State) : (emit e s).arpTable = s.arpTable := rfl
@[simp] theorem emit_arpPending (e : Event) (s : State) : (emit e s).arpPending = s.arpPending := rfl
@[simp] theorem emit_registry (e : Event) (s : State) : (emit e s).registry = s.registry := rfl
@[simp] theorem emit_portTable (e : Event) (s : State) : (emit e s).portTable = s.portTable := rfl
@[simp] theorem emit_txScratch (e : Event) (s : State) : (emit e s).txScratch = s.txScratch := rfl
@[simp] theorem emit_rxScratch (e : Event) (s : State) : (emit e s).rxScratch = s.rxScratch := rfl
@[simp] theorem emit_seq (e : Event) (s : State) : (emit e s).seq = s.seq := rfl
@[simp] theorem emit_inited (e : Event) (s : State) : (emit e s).inited = s.inited := rfl
@[simp] theorem emit_now (e : Event) (s : State) : (emit e s).now = s.now := rfl
@[simp] theorem emit_hostPort (e : Event) (s : State) : (emit e s).hostPort = s.hostPort := rfl
@[simp] theorem emit_driverRx (e : Event) (s : State) : (emit e s).driverRx = s.driverRx := rfl
@[simp] theorem emit_reactions (e : Event) (s : State) : (emit e s).reactions = s.reactions := rfl
@[simp] theorem emit_out (e : Event) (s : State) : (emit e s).out = s.out ++ [e] := rfl
@[simp] theorem emit_draws (e : Event) (s : State) : (emit e s).draws = s.draws := rfl
@[simp] theorem emit_returned (e : Event) (s : State) : (emit e s).returned = s.returned := rfl

/-! ## drop -/

@[simp] theorem drop_cfg (r : DropReason) (s : State) : (drop r s).cfg = s.cfg := rfl
@[simp] theorem drop_ipId (r : DropReason) (s : State) : (drop r s).ipId = s.ipId := rfl
@[simp] theorem drop_arpTable (r : DropReason) (s : State) : (drop r s).arpTable = s.arpTable := rfl
@[simp] theorem drop_arpPending (r : DropReason) (s : State) : (drop r s).arpPending = s.arpPending := rfl
@[simp] theorem drop_registry (r : DropReason) (s : State) : (drop r s).registry = s.registry := rfl
@[simp] theorem drop_portTable (r : DropReason) (s : State) : (drop r s).portTable = s.portTable := rfl
@[simp] theorem drop_txScratch (r : DropReason) (s : State) : (drop r s).txScratch = s.txScratch := rfl
@[simp] theorem drop_rxScratch (r : DropReason) (s : State) : (drop r s).rxScratch = s.rxScratch := rfl
@[simp] theorem drop_seq (r : DropReason) (s : State) : (drop r s).seq = s.seq := rfl
@[simp] theorem drop_inited (r : DropReason) (s : State) : (drop r s).inited = s.inited := rfl
@[simp] theorem drop_now (r : DropReason) (s : State) : (drop r s).now = s.now := rfl
@[simp] theorem drop_hostPort (r : DropReason) (s : State) : (drop r s).hostPort = s.hostPort := rfl
@[simp] theorem drop_driverRx (r : DropReason) (s : State) : (drop r s).driverRx = s.driverRx := rfl
@[simp] theorem drop_reactions (r : DropReason) (s : State) : (drop r s).reactions = s.reactions := rfl
@[simp] theorem drop_out (r : DropReason) (s : State) : (drop r s).out = s.out ++ [.drop r] := rfl
@[simp] theorem drop_draws (r : DropReason) (s : State) : (drop r s).draws = s.draws := rfl
@[simp] theorem drop_returned (r : DropReason) (s : State) : (drop r s).returned = s.returned := rfl

/-! ## arpLearn -/

@[simp] theorem arpLearn_cfg (ip : Ip) (mac : Mac) (s : State) : (arpLearn ip mac s).cfg = s.cfg := rfl
@[simp] theorem arpLearn_ipId (ip : Ip) (mac : Mac) (s : State) : (arpLearn ip mac s).ipId = s.ipId := rfl
@[simp] theorem arpLearn_arpTable (ip : Ip) (mac : Mac) (s : State) : (arpLearn ip mac s).arpTable = (Table.set s.cfg.arpTimeout s.cfg.arpTableCap s.now (ipKey ip) mac s.arpTable).1 := rfl
@[simp] theorem arpLearn_arpPending (ip : Ip) (mac : Mac) (s : State) : (arpLearn ip mac s).arpPending = s.arpPending := rfl
@[simp] theorem arpLearn_registry (ip : Ip) (mac : Mac) (s : State) : (arpLearn ip mac s).registry = s.registry := rfl
@[simp] theorem arpLearn_portTable (ip : Ip) (mac : Mac) (s : State) : (arpLearn ip mac s).portTable = s.portTable := rfl
@[simp] theorem arpLearn_txScratch (ip : Ip) (mac : Mac) (s : State) : (arpLearn ip mac s).txScratch = s.txScratch := rfl
@[simp] theorem arpLearn_rxScratch (ip : Ip) (mac : Mac) (s : State) : (arpLearn ip mac s).rxScratch = s.rxScratch := rfl
@[simp] theorem arpLearn_seq (ip : Ip) (mac : Mac) (s : State) : (arpLearn ip mac s).seq = s.seq := rfl
@[simp] theorem arpLearn_inited (ip : Ip) (mac : Mac) (s : State) : (arpLearn ip mac s).inited = s.inited := rfl
@[simp] theorem arpLearn_now (ip : Ip) (mac : Mac) (s : State) : (arpLearn ip mac s).now = s.now := rfl
@[simp] theorem arpLearn_hostPort (ip : Ip) (mac : Mac) (s : State) : (arpLearn ip mac s).hostPort = s.hostPort := rfl
@[simp] theorem arpLearn_driverRx (ip : Ip) (mac : Mac) (s : State) : (arpLearn ip mac s).driverRx = s.driverRx := rfl
@[simp] theorem arpLearn_reactions (ip : Ip) (mac : Mac) (s : State) : (arpLearn ip mac s).reactions = s.reactions := rfl
@[simp] theorem arpLearn_out (ip : Ip) (mac : Mac) (s : State) : (arpLearn ip mac s).out = s.out := rfl
@[simp] theorem arpLearn_draws (ip : Ip) (mac : Mac) (s : State) : (arpLearn ip mac s).draws = s.draws := rfl
@[simp] theorem arpLearn_returned (ip : Ip) (mac : Mac) (s : State) : (arpLearn ip mac s).returned = s.returned := rfl

/-! ## park -/

@[simp] theorem park_cfg (ip : Ip) (buf : Bytes) (s : State) : (park ip buf s).cfg = s.cfg := rfl
@[simp] theorem park_ipId (ip : Ip) (buf : Bytes) (s : State) : (park ip buf s).ipId = s.ipId := rfl
@[simp] theorem park_arpTable (ip : Ip) (buf : Bytes) (s : State) : (park ip buf s).arpTable = s.arpTable := rfl
@[simp] theorem park_arpPending (ip : Ip) (buf : Bytes) (s : State) : (park ip buf s).arpPending = (Table.set s.cfg.arpPendingTimeout s.cfg.arpPendingCap s.now (ipKey ip) buf s.arpPending).1 := rfl
@[simp] theorem park_registry (ip : Ip) (buf : Bytes) (s : State) : (park ip buf s).registry = s.registry := rfl
@[simp] theorem park_portTable (ip : Ip) (buf : Bytes) (s : State) : (park ip buf s).portTable = s.portTable := rfl
@[simp] theorem park_txScratch (ip : Ip) (buf : Bytes) (s : State) : (park ip buf s).txScratch = s.txScratch := rfl
@[simp] theorem park_rxScratch (ip : Ip) (buf : Bytes) (s : State) : (park ip buf s).rxScratch = s.rxScratch := rfl
@[simp] theorem park_seq (ip : Ip) (buf : Bytes) (s : State) : (park ip buf s).seq = s.seq := rfl
@[simp] theorem park_inited (ip : Ip) (buf : Bytes) (s : State) : (park ip buf s).inited = s.inited := rfl
@[simp] theorem park_now (ip : Ip) (buf : Bytes) (s : State) : (park ip buf s).now = s.now := rfl
@[simp] theorem park_hostPort (ip : Ip) (buf : Bytes) (s : State) : (park ip buf s).hostPort = s.hostPort := rfl
@[simp] theorem park_driverRx (ip : Ip) (buf : Bytes) (s : State) : (park ip buf s).driverRx = s.driverRx := rfl
@[simp] theorem park_reactions (ip : Ip) (buf : Bytes) (s : State) : (park ip buf s).reactions = s.reactions := rfl
@[simp] theorem park_out (ip : Ip) (buf : Bytes) (s : State) : (park ip buf s).out = s.out := rfl
@[simp] theorem park_draws (ip : Ip) (buf : Bytes) (s : State) : (park ip buf s).draws = s.draws := rfl
@[simp] theorem park_returned (ip : Ip) (buf : Bytes) (s : State) : (park ip buf s).returned = s.returned := rfl

/-! ## unpark -/

@[simp] theorem unpark_cfg (ip : Ip) (s : State) : (unpark ip s).cfg = s.cfg := rfl
@[simp] theorem unpark_ipId (ip : Ip) (s : State) : (unpark ip s).ipId = s.ipId := rfl
@[simp] theorem unpark_arpTable (ip : Ip) (s : State) : (unpark ip s).arpTable = s.arpTable := rfl
@[simp] theorem unpark_arpPending (ip : Ip) (s : State) : (unpark ip s).arpPending = Table.delete (ipKey ip) s.arpPending := rfl
@[simp] theorem unpark_registry (ip : Ip) (s : State) : (unpark ip s).registry = s.registry := rfl
@[simp] theorem unpark_portTable (ip : Ip) (s : State) : (unpark ip s).portTable = s.portTable := rfl
@[simp] theorem unpark_txScratch (ip : Ip) (s : State) : (unpark ip s).txScratch = s.txScratch := rfl
@[simp] theorem unpark_rxScratch (ip : Ip) (s : State) : (unpark ip s).rxScratch = s.rxScratch := rfl
@[simp] theorem unpark_seq (ip : Ip) (s : State) : (unpark ip s).seq = s.seq := rfl
@[simp] theorem unpark_inited (ip : Ip) (s : State) : (unpark ip s).inited = s.inited := rfl
@[simp] theorem unpark_now (ip : Ip) (s : State) : (unpark ip s).now = s.now := rfl
@[simp] theorem unpark_hostPort (ip : Ip) (s : State) : (unpark ip s).hostPort = s.hostPort := rfl
@[simp] theorem unpark_driverRx (ip : Ip) (s : State) : (unpark ip s).driverRx = s.driverRx := rfl
@[simp] theorem unpark_reactions (ip : Ip) (s : State) : (unpark ip s).reactions = s.reactions := rfl
@[simp] theorem unpark_out (ip : Ip) (s : State) : (unpark ip s).out = s.out := rfl
@[simp] theorem unpark_draws (ip : Ip) (s : State) : (unpark ip s).draws = s.draws := rfl
@[simp] theorem unpark_returned (ip : Ip) (s : State) : (unpark ip s).returned = s.returned := rfl

/-! ## registrySet -/

@[simp] theorem registrySet_cfg (p : BitVec 16) (h : Handler) (s : State) : (registrySet p h s).cfg = s.cfg := rfl
@[simp] theorem registrySet_ipId (p : BitVec 16) (h : Handler) (s : State) : (registrySet p h s).ipId = s.ipId := rfl
@[simp] theorem registrySet_arpTable (p : BitVec 16) (h : Handler) (s : State) : (registrySet p h s).arpTable = s.arpTable := rfl
@[simp] theorem registrySet_arpPending (p : BitVec 16) (h : Handler) (s : State) : (registrySet p h s).arpPending = s.arpPending := rfl
@[simp] theorem registrySet_registry (p : BitVec 16) (h : Handler) (s : State) : (registrySet p h s).registry = (Table.set 0 s.cfg.registryCap s.now p.toNat h s.registry).1 := rfl
@[simp] theorem registrySet_portTable (p : BitVec 16) (h : Handler) (s : State) : (registrySet p h s).portTable = s.portTable := rfl
@[simp] theorem registrySet_txScratch (p : BitVec 16) (h : Handler) (s : State) : (registrySet p h s).txScratch = s.txScratch := rfl
@[simp] theorem registrySet_rxScratch (p : BitVec 16) (h : Handler) (s : State) : (registrySet p h s).rxScratch = s.rxScratch := rfl
@[simp] theorem registrySet_seq (p : BitVec 16) (h : Handler) (s : State) : (registrySet p h s).seq = s.seq := rfl
@[simp] theorem registrySet_inited (p : BitVec 16) (h : Handler) (s : State) : (registrySet p h s).inited = s.inited := rfl
@[simp] theorem registrySet_now (p : BitVec 16) (h : Handler) (s : State) : (registrySet p h s).now = s.now := rfl
@[simp] theorem registrySet_hostPort (p : BitVec 16) (h : Handler) (s : State) : (registrySet p h s).hostPort = s.hostPort := rfl
@[simp] theorem registrySet_driverRx (p : BitVec 16) (h : Handler) (s : State) : (registrySet p h s).driverRx = s.driverRx := rfl
@[simp] theorem registrySet_reactions (p : BitVec 16) (h : Handler) (s : State) : (registrySet p h s).reactions = s.reactions := rfl
@[simp] theorem registrySet_out (p : BitVec 16) (h : Handler) (s : State) : (registrySet p h s).out = s.out := rfl
@[simp] theorem registrySet_draws (p : BitVec 16) (h : Handler) (s : State) : (registrySet p h s).draws = s.draws := rfl
@[simp] theorem registrySet_returned (p : BitVec 16) (h : Handler) (s : State) : (registrySet p h s).returned = s.returned := rfl

/-! ## portSet -/

@[simp] theorem portSet_cfg (p : BitVec 16) (h : ExtHandler) (s : State) : (portSet p h s).1.cfg = s.cfg := rfl
@[simp] theorem portSet_ipId (p : BitVec 16) (h : ExtHandler) (s : State) : (portSet p h s).1.ipId = s.ipId := rfl
@[simp] theorem portSet_arpTable (p : BitVec 16) (h : ExtHandler) (s : State) : (portSet p h s).1.arpTable = s.arpTable := rfl
@[simp] theorem portSet_arpPending (p : BitVec 16) (h : ExtHandler) (s : State) : (portSet p h s).1.arpPending = s.arpPending := rfl
@[simp] theorem portSet_registry (p : BitVec 16) (h : ExtHandler) (s : State) : (portSet p h s).1.registry = s.registry := rfl
@[simp] theorem portSet_portTable (p : BitVec 16) (h : ExtHandler) (s : State) : (portSet p h s).1.portTable = (Table.set 0 s.cfg.portTableCap s.now p.toNat h s.portTable).1 := rfl
@[simp] theorem portSet_txScratch (p : BitVec 16) (h : ExtHandler) (s : State) : (portSet p h s).1.txScratch = s.txScratch := rfl
@[simp] theorem portSet_rxScratch (p : BitVec 16) (h : ExtHandler) (s : State) : (portSet p h s).1.rxScratch = s.rxScratch := rfl
@[simp] theorem portSet_seq (p : BitVec 16) (h : ExtHandler) (s : State) : (portSet p h s).1.seq = s.seq := rfl
@[simp] theorem portSet_inited (p : BitVec 16) (h : ExtHandler) (s : State) : (portSet p h s).1.inited = s.inited := rfl
@[simp] theorem portSet_now (p : BitVec 16) (h : ExtHandler) (s : State) : (portSet p h s).1.now = s.now := rfl
@[simp] theorem portSet_hostPort (p : BitVec 16) (h : ExtHandler) (s : State) : (portSet p h s).1.hostPort = s.hostPort := rfl
@[simp] theorem portSet_driverRx (p : BitVec 16) (h : ExtHandler) (s : State) : (portSet p h s).1.driverRx = s.driverRx := rfl
@[simp] theorem portSet_reactions (p : BitVec 16) (h : ExtHandler) (s : State) : (portSet p h s).1.reactions = s.reactions := rfl
@[simp] theorem portSet_out (p : BitVec 16) (h : ExtHandler) (s : State) : (portSet p h s).1.out = s.out := rfl
@[simp] theorem portSet_draws (p : BitVec 16) (h : ExtHandler) (s : State) : (portSet p h s).1.draws = s.draws := rfl
@[simp] theorem portSet_returned (p : BitVec 16) (h : ExtHandler) (s : State) : (portSet p h s).1.returned = s.returned := rfl

/-! ## portDelete -/

@[simp] theorem portDelete_cfg (p : BitVec 16) (s : State) : (portDelete p s).cfg = s.cfg := rfl
@[simp] theorem portDelete_ipId (p : BitVec 16) (s : State) : (portDelete p s).ipId = s.ipId := rfl
@[simp] theorem portDelete_arpTable (p : BitVec 16) (s : State) : (portDelete p s).arpTable = s.arpTable := rfl
@[simp] theorem portDelete_arpPending (p : BitVec 16) (s : State) : (portDelete p s).arpPending = s.arpPending := rfl
@[simp] theorem portDelete_registry (p : BitVec 16) (s : State) : (portDelete p s).registry = s.registry := rfl
@[simp] theorem portDelete_portTable (p : BitVec 16) (s : State) : (portDelete p s).portTable = Table.delete p.toNat s.portTable := rfl
@[simp] theorem portDelete_txScratch (p : BitVec 16) (s : State) : (portDelete p s).txScratch = s.txScratch := rfl
@[simp] theorem portDelete_rxScratch (p : BitVec 16) (s : State) : (portDelete p s).rxScratch = s.rxScratch := rfl
@[simp] theorem portDelete_seq (p : BitVec 16) (s : State) : (portDelete p s).seq = s.seq := rfl
@[simp] theorem portDelete_inited (p : BitVec 16) (s : State) : (portDelete p s).inited = s.inited := rfl
@[simp] theorem portDelete_now (p : BitVec 16) (s : State) : (portDelete p s).now = s.now := rfl
@[simp] theorem portDelete_hostPort (p : BitVec 16) (s : State) : (portDelete p s).hostPort = s.hostPort := rfl
@[simp] theorem portDelete_driverRx (p : BitVec 16) (s : State) : (portDelete p s).driverRx = s.driverRx := rfl
@[simp] theorem portDelete_reactions (p : BitVec 16) (s : State) : (portDelete p s).reactions = s.reactions := rfl
@[simp] theorem portDelete_out (p : BitVec 16) (s : State) : (portDelete p s).out = s.out := rfl
@[simp] theorem portDelete_draws (p : BitVec 16) (s : State) : (portDelete p s).draws = s.draws := rfl
@[simp] theorem portDelete_returned (p : BitVec 16) (s : State) : (portDelete p s).returned = s.returned := rfl

/-! ## settle -/

@[simp] theorem settle_cfg (s : State) : (settle s).cfg = s.cfg := rfl
@[simp] theorem settle_ipId (s : State) : (settle s).ipId = s.ipId := rfl
@[simp] theorem settle_arpTable (s : State) : (settle s).arpTable = s.arpTable := rfl
@[simp] theorem settle_arpPending (s : State) : (settle s).arpPending = s.arpPending := rfl
@[simp] theorem settle_registry (s : State) : (settle s).registry = s.registry := rfl
@[simp] theorem settle_portTable (s : State) : (settle s).portTable = s.portTable := rfl
@[simp] theorem settle_txScratch (s : State) : (settle s).txScratch = staleBytes s.draws (ethHdrLen + s.cfg.ethMtu) := rfl
@[simp] theorem settle_rxScratch (s : State) : (settle s).rxScratch = staleBytes (s.draws + 1) s.cfg.rxBufCap := rfl
@[simp] theorem settle_seq (s : State) : (settle s).seq = s.seq := rfl
@[simp] theorem settle_inited (s : State) : (settle s).inited = s.inited := rfl
@[simp] theorem settle_now (s : State) : (settle s).now = s.now := rfl
@[simp] theorem settle_hostPort (s : State) : (settle s).hostPort = s.hostPort := rfl
@[simp] theorem settle_driverRx (s : State) : (settle s).driverRx = s.driverRx := rfl
@[simp] theorem settle_reactions (s : State) : (settle s).reactions = s.reactions := rfl
@[simp] theorem settle_out (s : State) : (settle s).out = s.out := rfl
@[simp] theorem settle_draws (s : State) : (settle s).draws = s.draws + 2 := rfl
@[simp] theorem settle_returned (s : State) : (settle s).returned = s.returned := rfl

/-! ## ethTx -/

@[simp] theorem ethTx_cfg (b : Bytes) (m : Mac) (p : BitVec 16) (s : State) : (ethTx b m p s).cfg = s.cfg := rfl
@[simp] theorem ethTx_ipId (b : Bytes) (m : Mac) (p : BitVec 16) (s : State) : (ethTx b m p s).ipId = s.ipId := rfl
@[simp] theorem ethTx_arpTable (b : Bytes) (m : Mac) (p : BitVec 16) (s : State) : (ethTx b m p s).arpTable = s.arpTable := rfl
@[simp] theorem ethTx_arpPending (b : Bytes) (m : Mac) (p : BitVec 16) (s : State) : (ethTx b m p s).arpPending = s.arpPending := rfl
@[simp] theorem ethTx_registry (b : Bytes) (m : Mac) (p : BitVec 16) (s : State) : (ethTx b m p s).registry = s.registry := rfl
@[simp] theorem ethTx_portTable (b : Bytes) (m : Mac) (p : BitVec 16) (s : State) : (ethTx b m p s).portTable = s.portTable := rfl
@[simp] theorem ethTx_txScratch (b : Bytes) (m : Mac) (p : BitVec 16) (s : State) : (ethTx b m p s).txScratch = s.txScratch := rfl
@[simp] theorem ethTx_rxScratch (b : Bytes) (m : Mac) (p : BitVec 16) (s : State) : (ethTx b m p s).rxScratch = s.rxScratch := rfl
@[simp] theorem ethTx_seq (b : Bytes) (m : Mac) (p : BitVec 16) (s : State) : (ethTx b m p s).seq = s.seq := rfl
@[simp] theorem ethTx_inited (b : Bytes) (m : Mac) (p : BitVec 16) (s : State) : (ethTx b m p s).inited = s.inited := rfl
@[simp] theorem ethTx_now (b : Bytes) (m : Mac) (p : BitVec 16) (s : State) : (ethTx b m p s).now = s.now := rfl
@[simp] theorem ethTx_hostPort (b : Bytes) (m : Mac) (p : BitVec 16) (s : State) : (ethTx b m p s).hostPort = s.hostPort := rfl
@[simp] theorem ethTx_driverRx (b : Bytes) (m : Mac) (p : BitVec 16) (s : State) : (ethTx b m p s).driverRx = s.driverRx := rfl
@[simp] theorem ethTx_reactions (b : Bytes) (m : Mac) (p : BitVec 16) (s : State) : (ethTx b m p s).reactions = s.reactions := rfl
@[simp] theorem ethTx_draws (b : Bytes) (m : Mac) (p : BitVec 16) (s : State) : (ethTx b m p s).draws = s.draws := rfl
@[simp] theorem ethTx_returned (b : Bytes) (m : Mac) (p : BitVec 16) (s : State) : (ethTx b m p s).returned = s.returned := rfl

/-! ## arpReq -/

@[simp] theorem arpReq_cfg (ip : Ip) (s : State) : (arpReq ip s).cfg = s.cfg := rfl
@[simp] theorem arpReq_ipId (ip : Ip) (s : State) : (arpReq ip s).ipId = s.ipId := rfl
@[simp] theorem arpReq_arpTable (ip : Ip) (s : State) : (arpReq ip s).arpTable = s.arpTable := rfl
@[simp] theorem arpReq_arpPending (ip : Ip) (s : State) : (arpReq ip s).arpPending = s.arpPending := rfl
@[simp] theorem arpReq_registry (ip : Ip) (s : State) : (arpReq ip s).registry = s.registry := rfl
@[simp] theorem arpReq_portTable (ip : Ip) (s : State) : (arpReq ip s).portTable = s.portTable := rfl
@[simp] theorem arpReq_txScratch (ip : Ip) (s : State) : (arpReq ip s).txScratch = s.txScratch := rfl
@[simp] theorem arpReq_rxScratch (ip : Ip) (s : State) : (arpReq ip s).rxScratch = s.rxScratch := rfl
@[simp] theorem arpReq_seq (ip : Ip) (s : State) : (arpReq ip s).seq = s.seq := rfl
@[simp] theorem arpReq_inited (ip : Ip) (s : State) : (arpReq ip s).inited = s.inited := rfl
@[simp] theorem arpReq_now (ip : Ip) (s : State) : (arpReq ip s).now = s.now := rfl
@[simp] theorem arpReq_hostPort (ip : Ip) (s : State) : (arpReq ip s).hostPort = s.hostPort := rfl
@[simp] theorem arpReq_driverRx (ip : Ip) (s : State) : (arpReq ip s).driverRx = s.driverRx := rfl
@[simp] theorem arpReq_reactions (ip : Ip) (s : State) : (arpReq ip s).reactions = s.reactions := rfl
@[simp] theorem arpReq_draws (ip : Ip) (s : State) : (arpReq ip s).draws = s.draws := rfl
@[simp] theorem arpReq_returned (ip : Ip) (s : State) : (arpReq ip s).returned = s.returned := rfl

/-! ## arpReply -/

@[simp] theorem arpReply_cfg (ip : Ip) (m : Mac) (s : State) : (arpReply ip m s).cfg = s.cfg := rfl
@[simp] theorem arpReply_ipId (ip : Ip) (m : Mac) (s : State) : (arpReply ip m s).ipId = s.ipId := rfl
@[simp] theorem arpReply_arpTable (ip : Ip) (m : Mac) (s : State) : (arpReply ip m s).arpTable = s.arpTable := rfl
@[simp] theorem arpReply_arpPending (ip : Ip) (m : Mac) (s : State) : (arpReply ip m s).arpPending = s.arpPending := rfl
@[simp] theorem arpReply_registry (ip : Ip) (m : Mac) (s : State) : (arpReply ip m s).registry = s.registry := rfl
@[simp] theorem arpReply_portTable (ip : Ip) (m : Mac) (s : State) : (arpReply ip m s).portTable = s.portTable := rfl
@[simp] theorem arpReply_txScratch (ip : Ip) (m : Mac) (s : State) : (arpReply ip m s).txScratch = s.txScratch := rfl
@[simp] theorem arpReply_rxScratch (ip : Ip) (m : Mac) (s : State) : (arpReply ip m s).rxScratch = s.rxScratch := rfl
@[simp] theorem arpReply_seq (ip : Ip) (m : Mac) (s : State) : (arpReply ip m s).seq = s.seq := rfl
@[simp] theorem arpReply_inited (ip : Ip) (m : Mac) (s : State) : (arpReply ip m s).inited = s.inited := rfl
@[simp] theorem arpReply_now (ip : Ip) (m : Mac) (s : State) : (arpReply ip m s).now = s.now := rfl
@[simp] theorem arpReply_hostPort (ip : Ip) (m : Mac) (s : State) : (arpReply ip m s).hostPort = s.hostPort := rfl
@[simp] theorem arpReply_driverRx (ip : Ip) (m : Mac) (s : State) : (arpReply ip m s).driverRx = s.driverRx := rfl
@[simp] theorem arpReply_reactions (ip : Ip) (m : Mac) (s : State) : (arpReply ip m s).reactions = s.reactions := rfl
@[simp] theorem arpReply_draws (ip : Ip) (m : Mac) (s : State) : (arpReply ip m s).draws = s.draws := rfl
@[simp] theorem arpReply_returned (ip : Ip) (m : Mac) (s : State) : (arpReply ip m s).returned = s.returned := rfl

end Sys2Proof.Machine
end

