-- ==== Sys2Proof/Laws/Answers.lean ====
section
/-! SUPPORT. Sequencing (`andThen`, `runAll`, `callOut`): when an operation made of operations answers a
next state, and what then relates the two states. -/

namespace Sys2Proof.Machine

@[simp] theorem andThen_next (s : State) (f : State → Answer) : andThen (.next s) f = f s := rfl
@[simp] theorem andThen_refused (r : Refusal) (f : State → Answer) : andThen (.refused r) f = .refused r := rfl

/-- Both parts have answered a next state. -/
theorem andThen_eq_next {a : Answer} {f : State → Answer} {t : State} (h : andThen a f = .next t) :
    ∃ u, a = .next u ∧ f u = .next t := by
  cases a with
  | next u => exact ⟨u, rfl, h⟩
  | fault r => cases r
  | refused r => cases h

/-- A relation that holds over every command of a list, and composes, holds over the list. -/
theorem runAll_induct {R : State → State → Prop} (refl : ∀ s, R s s)
    (trans : ∀ {a b c}, R a b → R b c → R a c) {run : Instr → State → Answer}
    (step : ∀ c s t, run c s = .next t → R s t) :
    ∀ (cs : List Instr) (s t : State), runAll run cs s = .next t → R s t := by
  intro cs
  induction cs with
  | nil =>
    intro s t h
    simp only [runAll, Host.Outcome.next.injEq] at h
    exact h ▸ refl s
  | cons c cs ih =>
    intro s t h
    obtain ⟨u, hu, ht⟩ := andThen_eq_next (f := runAll run cs) h
    exact trans (step c s u hu) (ih u t ht)

/-- A call out of the block emits its event, then runs the commands of at most one reaction (R300). -/
theorem callOut_eq_next {run : Instr → State → Answer} {e : Event} {s t : State} (h : callOut run e s = .next t) :
    (s.reactions = [] ∧ t = emit e s) ∨
    ∃ r rs, s.reactions = r :: rs ∧ runAll run r { emit e s with reactions := rs } = .next t := by
  unfold callOut at h
  split at h
  · next hr => exact .inl ⟨hr, by simpa using h.symm⟩
  · next r rs hr => exact .inr ⟨r, rs, hr, h⟩

/-- With no reaction pending a call out of the block is its event (R300: the empty reaction). -/
theorem callOut_quiet {run : Instr → State → Answer} {e : Event} {s : State} (h : s.reactions = []) :
    callOut run e s = .next (emit e s) := by simp [callOut, h]

/-- The commands an external handler's reaction may hold (R300). -/
theorem handlerReaction_cases {c : Instr} {s t : State} (h : handlerReaction c s = .next t) :
    (∃ data sport dip dport, c = .udpSend data sport dip dport ∧ data.length ≤ udpMaxData ∧
      t = udpSend data sport dip dport s) ∨
    (∃ buf dip proto, c = .ipSend buf dip proto ∧ buf.length ≤ ipMaxPayload ∧ t = ipSend buf dip proto s) ∨
    (∃ port code x, c = .udpOpen port code ∧ extHandlerOfCode code = some x ∧ t = udpOpen port x s) ∨
    (∃ port, c = .udpClose port ∧ t = portDelete port s) ∨
    (∃ proto code x, c = .register proto code ∧ Handler.ofCode code = some x ∧ t = registrySet proto x s) := by
  cases c <;> simp only [handlerReaction, execUdpSend, execIpSend, execUdpOpen, execUdpClose, execRegister] at h
  all_goals try cases h
  case udpSend data sport dip dport =>
    split at h <;> simp only [Host.Outcome.next.injEq, reduceCtorEq] at h
    exact .inl ⟨_, _, _, _, rfl, ‹_›, h.symm⟩
  case ipSend buf dip proto =>
    split at h <;> simp only [Host.Outcome.next.injEq, reduceCtorEq] at h
    exact .inr (.inl ⟨_, _, _, rfl, ‹_›, h.symm⟩)
  case udpOpen port code =>
    split at h <;> simp only [Host.Outcome.next.injEq, reduceCtorEq] at h
    exact .inr (.inr (.inl ⟨_, _, _, rfl, ‹_›, h.symm⟩))
  case register proto code =>
    split at h <;> simp only [Host.Outcome.next.injEq, reduceCtorEq] at h
    exact .inr (.inr (.inr (.inr ⟨_, _, _, rfl, ‹_›, h.symm⟩)))
  case udpClose port => exact .inr (.inr (.inr (.inl ⟨_, rfl, rfl⟩)))

/-- The ICMP collaborator's reaction holds `IP_SEND` only (R300). -/
theorem icmpReaction_cases {c : Instr} {s t : State} (h : icmpReaction c s = .next t) :
    ∃ buf dip proto, c = .ipSend buf dip proto ∧ buf.length ≤ ipMaxPayload ∧ t = ipSend buf dip proto s := by
  cases c <;> simp only [icmpReaction, execIpSend] at h
  all_goals try cases h
  split at h <;> simp only [Host.Outcome.next.injEq, reduceCtorEq] at h
  exact ⟨_, _, _, rfl, ‹_›, h.symm⟩

end Sys2Proof.Machine
end

