-- ==== Sys2Proof/Laws/Words.lean ====
section
/-! SUPPORT. Byte order: a 16-bit number and its two bytes, a 32-bit number and its four (00_scope.md
R11, 40_primitives.md R130), and the bytes of MAC and IP addresses. -/

namespace Sys2Proof

@[simp] theorem word16_bytes16 (v : BitVec 16) : word16 (v.extractLsb' 8 8) (v.extractLsb' 0 8) = v := by
  apply BitVec.eq_of_toNat_eq
  simp only [word16, BitVec.toNat_append, BitVec.extractLsb'_toNat, Nat.shiftRight_zero]
  have := v.isLt
  rw [Nat.shiftLeft_eq, Nat.shiftRight_eq_div_pow, Nat.mul_comm, ← Nat.two_pow_add_eq_or_of_lt (by omega)]
  omega

theorem word16_toNat (hi lo : Byte) : (word16 hi lo).toNat = hi.toNat * 256 + lo.toNat := by
  simp only [word16, BitVec.toNat_append]
  have := lo.isLt
  rw [Nat.shiftLeft_eq, Nat.mul_comm, ← Nat.two_pow_add_eq_or_of_lt (by omega), Nat.mul_comm]

@[simp] theorem bytes16_word16 (hi lo : Byte) : bytes16 (word16 hi lo) = [hi, lo] := by
  have h := word16_toNat hi lo
  have h1 := hi.isLt
  have h0 := lo.isLt
  simp only [bytes16, List.cons.injEq, and_true]
  constructor
  · apply BitVec.eq_of_toNat_eq
    rw [BitVec.extractLsb'_toNat, h, Nat.shiftRight_eq_div_pow]
    omega
  · apply BitVec.eq_of_toNat_eq
    rw [BitVec.extractLsb'_toNat, h, Nat.shiftRight_zero]
    omega

theorem bytes16_toNat (v : BitVec 16) :
    (v.extractLsb' 8 8).toNat * 256 + (v.extractLsb' 0 8).toNat = v.toNat := by
  rw [← word16_toNat, word16_bytes16]

/-- `be16` is `b[i] * 256 + b[i+1]` (R11). -/
theorem be16At_toNat (b : Bytes) (i : Nat) :
    (be16At b i).toNat = (byteAt b i).toNat * 256 + (byteAt b (i + 1)).toNat := word16_toNat _ _

/-- `be32` is the same over four bytes, most significant first (R11). -/
theorem be32At_toNat (b : Bytes) (i : Nat) : (be32At b i).toNat =
    (((byteAt b i).toNat * 256 + (byteAt b (i + 1)).toNat) * 256 + (byteAt b (i + 2)).toNat) * 256
      + (byteAt b (i + 3)).toNat := by
  have h := (be16At b (i + 2)).isLt
  rw [be32At, BitVec.toNat_append, Nat.shiftLeft_eq, Nat.mul_comm, ← Nat.two_pow_add_eq_or_of_lt (by omega),
    be16At_toNat, be16At_toNat, Nat.add_assoc i 2 1]
  omega

/-- What `put_be16` writes, `be16` reads (R130). -/
@[simp] theorem be16At_bytes16 (v : BitVec 16) : be16At (bytes16 v) 0 = v := word16_bytes16 v

/-- What `put_be32` writes, `be32` reads (R130). -/
@[simp] theorem be32At_bytes32 (v : BitVec 32) : be32At (bytes32 v) 0 = v := by
  have hi : be16At (bytes32 v) 0 = v.extractLsb' 16 16 := word16_bytes16 _
  have lo : be16At (bytes32 v) 2 = v.extractLsb' 0 16 := word16_bytes16 _
  apply BitVec.eq_of_toNat_eq
  have := v.isLt
  rw [be32At, hi, lo, BitVec.toNat_append, BitVec.extractLsb'_toNat, BitVec.extractLsb'_toNat, Nat.shiftRight_zero,
    Nat.shiftLeft_eq, Nat.shiftRight_eq_div_pow, Nat.mul_comm, ← Nat.two_pow_add_eq_or_of_lt (by omega)]
  omega

@[simp] theorem bytes32_length (v : BitVec 32) : (bytes32 v).length = 4 := rfl
@[simp] theorem bytes16_length (v : BitVec 16) : (bytes16 v).length = 2 := rfl
@[simp] theorem Mac.bytes_length (m : Mac) : m.bytes.length = 6 := rfl
@[simp] theorem Ip.bytes_length (a : Ip) : a.bytes.length = 4 := rfl
@[simp] theorem zeros_length (n : Nat) : (zeros n).length = n := List.length_replicate

@[simp] theorem nibbles_high (v h : BitVec 4) : (v ++ h : BitVec 8).extractLsb' 4 4 = v := by
  revert v h; decide

@[simp] theorem nibbles_low (v h : BitVec 4) : (v ++ h : BitVec 8).extractLsb' 0 4 = h := by
  revert v h; decide

@[simp] theorem nibbles_join (b : Byte) : (b.extractLsb' 4 4 ++ b.extractLsb' 0 4 : BitVec 8) = b := by
  revert b; decide

end Sys2Proof
end

