-- ==== Sys2Proof/Laws/Buffers.lean ====
section
/-! SUPPORT. The packets the block builds field by field, as the concatenation of their fields
(30_encoding.md R91, R93, R95, R100). -/

namespace Sys2Proof.Machine

/-- Overwriting no byte changes nothing. -/
@[simp] theorem writeAt_nil (b : Bytes) : writeAt b 0 [] = b := by simp [writeAt]

/-- Overwriting from the front replaces the first byte by the first new one. -/
@[simp] theorem writeAt_zero (x y : Byte) (b bs : Bytes) : writeAt (x :: b) 0 (y :: bs) = y :: writeAt b 0 bs := by
  simp [writeAt]

/-- Overwriting further in leaves the first byte. -/
@[simp] theorem writeAt_succ (x : Byte) (b bs : Bytes) (i : Nat) : writeAt (x :: b) (i + 1) bs = x :: writeAt b i bs := by
  rw [writeAt, writeAt, show i + 1 + bs.length = (i + bs.length) + 1 by omega]
  simp

/-- A byte inside what was written. -/
theorem byteAt_writeAt {b bs : Bytes} {i j : Nat} (hi : i ≤ b.length) (hj : j < bs.length) :
    byteAt (writeAt b i bs) (i + j) = byteAt bs j := by
  have hl : (b.take i).length = i := by simpa using hi
  simp only [byteAt, writeAt, List.getD_eq_getElem?_getD]
  rw [List.append_assoc, List.getElem?_append_right (by omega), hl, Nat.add_sub_cancel_left,
    List.getElem?_append_left hj]

/-- A byte outside what was written. -/
theorem byteAt_writeAt_outside {b bs : Bytes} {i k : Nat} (hi : i + bs.length ≤ b.length)
    (hk : k < i ∨ i + bs.length ≤ k) : byteAt (writeAt b i bs) k = byteAt b k := by
  have hl : (b.take i ++ bs).length = i + bs.length := by simp; omega
  simp only [byteAt, writeAt, List.getD_eq_getElem?_getD]
  rcases hk with hk | hk
  · rw [List.append_assoc, List.getElem?_append_left (by simp; omega), List.getElem?_take, if_pos hk]
  · rw [List.getElem?_append_right (by omega), hl, List.getElem?_drop, Nat.add_sub_cancel' hk]

/-- `put_be16` then `be16` at one place (40_primitives.md R130). -/
theorem be16At_putBe16 (b : Bytes) (i : Nat) (v : BitVec 16) (hi : i ≤ b.length) : be16At (putBe16 b i v) i = v := by
  have h : ∀ j < 2, byteAt (putBe16 b i v) (i + j) = byteAt (bytes16 v) j := fun j hj => byteAt_writeAt hi hj
  rw [be16At, h 1 (by decide), show byteAt (putBe16 b i v) i = _ from h 0 (by decide)]
  exact be16At_bytes16 v

/-- `put_be32` then `be32` at one place (40_primitives.md R130). -/
theorem be32At_putBe32 (b : Bytes) (i : Nat) (v : BitVec 32) (hi : i ≤ b.length) : be32At (putBe32 b i v) i = v := by
  have h : ∀ j < 4, byteAt (putBe32 b i v) (i + j) = byteAt (bytes32 v) j := fun j hj => byteAt_writeAt hi hj
  rw [be32At, be16At, be16At, show i + 2 + 1 = i + 3 by omega, h 1 (by decide), h 2 (by decide), h 3 (by decide),
    show byteAt (putBe32 b i v) i = _ from h 0 (by decide)]
  exact be32At_bytes32 v

/-- The 14 header bytes written one field at a time (R160) are `dst`, `src`, `type` in a row (R91). -/
theorem ethTx_eq (buf : Bytes) (dstMac : Mac) (proto : BitVec 16) (s : State) :
    ethTx buf dstMac proto s
      = emit (.driverSend (ethBytes dstMac s.cfg.ifMac proto (buf ++ zeros (s.cfg.ethMinPayload - buf.length)))) s := by
  have pad : (if buf.length < s.cfg.ethMinPayload then addPadding buf (s.cfg.ethMinPayload - buf.length) else buf)
      = buf ++ zeros (s.cfg.ethMinPayload - buf.length) := by
    split
    · rfl
    · have : s.cfg.ethMinPayload - buf.length = 0 := by omega
      simp [this, zeros]
  unfold ethTx
  simp only [pad]
  rfl

/-- The ARP packet built by R191 is the fields of R93 in a row. -/
theorem arpPacket_eq (cfg : Cfg) (op : BitVec 16) (targetMac : Mac) (targetIp : Ip) :
    arpPacket cfg op targetMac targetIp
      = arpBytes op ⟨cfg.arpHwEther, cfg.arpProtoIp, 6, 4, cfg.ifMac, cfg.ifIp, targetMac, targetIp, []⟩ := by
  simp [arpPacket, arpBytes, zeros, List.replicate, arpPktLen, putBe16, bytes16, Mac.bytes, Ip.bytes, arpHwLen, arpProtoLen]

@[simp] theorem arpPacket_length (cfg : Cfg) (op : BitVec 16) (m : Mac) (a : Ip) :
    (arpPacket cfg op m a).length = 28 := by
  rw [arpPacket_eq]; rfl

/-- The header fields of a transmitted datagram (R96, R98, R99, R231), with a checksum still to choose. -/
def sentHeader (cfg : Cfg) (buf : Bytes) (dip : Ip) (id off : BitVec 16) (mf : Bool) (checksum : BitVec 16) :
    Ipv4Operands :=
  ⟨4, 5, 0, BitVec.ofNat 16 (ipHdrLen + buf.length), id, flagsFragment cfg off mf, cfg.ipDefaultTtl, checksum,
    cfg.ifIp, dip, buf⟩

/-- The datagram built by R231 is the fields of R95 in a row, its checksum taken over the 20 header
bytes with the field 0 (R232). -/
theorem ipDatagram_eq (cfg : Cfg) (buf : Bytes) (dip : Ip) (proto : Byte) (id off : BitVec 16) (mf : Bool) :
    ipDatagram cfg buf dip proto id off mf
      = ipv4Bytes proto (sentHeader cfg buf dip id off mf
          (checksum16 ((ipv4Bytes proto (sentHeader cfg buf dip id off mf 0)).take 20))) := by
  simp [ipDatagram, ipv4Bytes, sentHeader, zeros, List.replicate, addHeader, ipHdrLen, putBe16, bytes16, Ip.bytes,
    ipVersion]

@[simp] theorem ipv4Bytes_length (proto : Byte) (d : Ipv4Operands) :
    (ipv4Bytes proto d).length = 20 + d.rest.length := by
  simp [ipv4Bytes]; omega

@[simp] theorem arpBytes_length (op : BitVec 16) (p : ArpOperands) :
    (arpBytes op p).length = 28 + p.trailing.length := by
  simp [arpBytes]; omega

@[simp] theorem ethBytes_length (d m : Mac) (t : BitVec 16) (b : Bytes) :
    (ethBytes d m t b).length = 14 + b.length := by
  simp [ethBytes]; omega

@[simp] theorem ipDatagram_length (cfg : Cfg) (buf : Bytes) (dip : Ip) (proto : Byte) (id off : BitVec 16) (mf : Bool) :
    (ipDatagram cfg buf dip proto id off mf).length = 20 + buf.length := by
  rw [ipDatagram_eq, ipv4Bytes_length]; rfl

/-- The UDP datagram built by R265 is the fields of R100 in a row, the checksum 0 (R266). -/
theorem udpDatagram_eq (data : Bytes) (sport dport : BitVec 16) :
    udpDatagram data sport dport
      = bytes16 sport ++ bytes16 dport ++ bytes16 (BitVec.ofNat 16 (8 + data.length)) ++ [0, 0] ++ data := by
  simp [udpDatagram, zeros, List.replicate, addHeader, udpHdrLen, putBe16, bytes16]

@[simp] theorem udpDatagram_length (data : Bytes) (sport dport : BitVec 16) :
    (udpDatagram data sport dport).length = 8 + data.length := by
  rw [udpDatagram_eq]; simp; omega

/-! ## Reading the fields back -/

@[simp] theorem macAt_bytes (m : Mac) (rest : Bytes) : macAt (m.bytes ++ rest) 0 = m := rfl

/-- The header of a frame read back: type, source, payload (R91). -/
theorem ethBytes_type (d m : Mac) (t : BitVec 16) (b : Bytes) : be16At (ethBytes d m t b) 12 = t :=
  word16_bytes16 t

theorem ethBytes_src (d m : Mac) (t : BitVec 16) (b : Bytes) : macAt (ethBytes d m t b) 6 = m := rfl

theorem ethBytes_dst (d m : Mac) (t : BitVec 16) (b : Bytes) : macAt (ethBytes d m t b) 0 = d := rfl

theorem ethBytes_payload (d m : Mac) (t : BitVec 16) (b : Bytes) : (ethBytes d m t b).drop 14 = b := rfl

theorem arpBytes_opcode (op : BitVec 16) (p : ArpOperands) : be16At (arpBytes op p) 6 = op :=
  word16_bytes16 op

/-- The fields of an ARP packet read back (R93). -/
theorem arpOperandsOf_arpBytes (op : BitVec 16) (p : ArpOperands) : arpOperandsOf (arpBytes op p) = p := by
  obtain ⟨h, t, hl, pl, sm, si, tm, ti, tr⟩ := p
  have e1 : be16At (arpBytes op ⟨h, t, hl, pl, sm, si, tm, ti, tr⟩) 0 = h := word16_bytes16 h
  have e2 : be16At (arpBytes op ⟨h, t, hl, pl, sm, si, tm, ti, tr⟩) 2 = t := word16_bytes16 t
  simp only [arpOperandsOf, e1, e2]
  rfl

theorem ipv4Bytes_protocol (proto : Byte) (d : Ipv4Operands) : byteAt (ipv4Bytes proto d) 9 = proto := rfl

/-- The fields of an IPv4 header read back (R95, R96). -/
theorem ipv4OperandsOf_ipv4Bytes (proto : Byte) (d : Ipv4Operands) : ipv4OperandsOf (ipv4Bytes proto d) = d := by
  obtain ⟨v, hl, tos, tl, id, ff, ttl, ck, si, di, rest⟩ := d
  have e0 : (byteAt (ipv4Bytes proto ⟨v, hl, tos, tl, id, ff, ttl, ck, si, di, rest⟩) 0) = v ++ hl := rfl
  have e2 : be16At (ipv4Bytes proto ⟨v, hl, tos, tl, id, ff, ttl, ck, si, di, rest⟩) 2 = tl := word16_bytes16 tl
  have e4 : be16At (ipv4Bytes proto ⟨v, hl, tos, tl, id, ff, ttl, ck, si, di, rest⟩) 4 = id := word16_bytes16 id
  have e6 : be16At (ipv4Bytes proto ⟨v, hl, tos, tl, id, ff, ttl, ck, si, di, rest⟩) 6 = ff := word16_bytes16 ff
  have e10 : be16At (ipv4Bytes proto ⟨v, hl, tos, tl, id, ff, ttl, ck, si, di, rest⟩) 10 = ck := word16_bytes16 ck
  simp only [ipv4OperandsOf, e0, e2, e4, e6, e10, nibbles_high, nibbles_low]
  rfl

end Sys2Proof.Machine
end

