-- ==== Sys2Proof/Laws/Checksum.lean ====
section
/-! SUPPORT. The checksum primitive (40_primitives.md R131): the fold is the residue modulo 65535 with 0
only for 0, and what follows for the result. -/

namespace Sys2Proof.Machine

/-! ## The fold -/

theorem foldRounds_mod (n s : Nat) : foldRounds n s % 65535 = s % 65535 := by
  induction n generalizing s with
  | zero => rfl
  | succ n ih =>
    simp only [foldRounds]
    split
    · rw [ih]; omega
    · rfl

theorem foldRounds_le (n s : Nat) (h : s ≤ n) : foldRounds n s ≤ 0xFFFF := by
  induction n generalizing s with
  | zero => simp only [foldRounds]; omega
  | succ n ih =>
    simp only [foldRounds]
    split
    · exact ih _ (by omega)
    · omega

theorem foldRounds_pos (n s : Nat) (h : 0 < s) : 0 < foldRounds n s := by
  induction n generalizing s with
  | zero => exact h
  | succ n ih =>
    simp only [foldRounds]
    split
    · exact ih _ (by omega)
    · exact h

/-- The folded sum fits 16 bits (R131). -/
theorem foldCarries_le (s : Nat) : foldCarries s ≤ 0xFFFF := foldRounds_le s s (Nat.le_refl s)

/-- The folded sum is the sum modulo 65535 (R131). -/
theorem foldCarries_mod (s : Nat) : foldCarries s % 65535 = s % 65535 := foldRounds_mod s s

@[simp] theorem foldCarries_zero : foldCarries 0 = 0 := rfl

theorem foldCarries_pos {s : Nat} (h : 0 < s) : 0 < foldCarries s := foldRounds_pos s s h

/-- Sums that differ modulo 65535 fold to different numbers (R227). -/
theorem foldCarries_ne {a b : Nat} (h : a % 65535 ≠ b % 65535) : foldCarries a ≠ foldCarries b := by
  intro he
  rw [← foldCarries_mod a, ← foldCarries_mod b, he] at h
  exact h rfl

/-- Positive sums equal modulo 65535 fold to the same number. -/
theorem foldCarries_congr {a b : Nat} (ha : 0 < a) (hb : 0 < b) (h : a % 65535 = b % 65535) :
    foldCarries a = foldCarries b := by
  have h1 := foldCarries_mod a
  have h2 := foldCarries_mod b
  have := foldCarries_le a
  have := foldCarries_le b
  have := foldCarries_pos ha
  have := foldCarries_pos hb
  omega

/-- The loop of R131: the fold unfolds one round. -/
theorem foldCarries_round (s : Nat) (h : 0xFFFF < s) : foldCarries s = foldCarries (s % 65536 + s / 65536) :=
  foldCarries_congr (by omega) (by omega) (by omega)

theorem foldCarries_small (s : Nat) (h : s ≤ 0xFFFF) : foldCarries s = s := by
  have h1 := foldCarries_mod s
  have h2 := foldCarries_le s
  rcases Nat.eq_zero_or_pos s with rfl | hp
  · rfl
  · have := foldCarries_pos hp; omega

/-! ## The result -/

theorem checksum16_toNat (b : Bytes) : (checksum16 b).toNat = 0xFFFF - foldCarries (wordSum b) := by
  have := foldCarries_le (wordSum b)
  simp only [checksum16, BitVec.toNat_ofNat]
  omega

/-- Byte strings whose word sums differ modulo 65535 have different checksums (R227). -/
theorem checksum16_ne {a b : Bytes} (h : wordSum a % 65535 ≠ wordSum b % 65535) : checksum16 a ≠ checksum16 b := by
  intro he
  have := congrArg BitVec.toNat he
  rw [checksum16_toNat, checksum16_toNat] at this
  have := foldCarries_ne h
  have := foldCarries_le (wordSum a)
  have := foldCarries_le (wordSum b)
  omega

theorem checksum16_congr {a b : Bytes} (h : wordSum a = wordSum b) : checksum16 a = checksum16 b := by
  simp only [checksum16, h]

/-- The word sum of a byte string after an even-length one. -/
theorem wordSum_append (a b : Bytes) (h : a.length % 2 = 0) : wordSum (a ++ b) = wordSum a + wordSum b := by
  induction a using wordSum.induct with
  | case1 => simp [wordSum]
  | case2 x => simp at h
  | case3 x y rest ih =>
    have : rest.length % 2 = 0 := by simp only [List.length_cons] at h; omega
    simp only [List.cons_append, wordSum, ih this]
    omega

/-- A zero byte after an odd-length byte string changes no sum (R131, R252). -/
theorem wordSum_pad (b : Bytes) : wordSum (b ++ [0]) = wordSum b := by
  induction b using wordSum.induct with
  | case1 => rfl
  | case2 x => simp [wordSum]
  | case3 x y rest ih => simp only [List.cons_append, wordSum, ih]

@[simp] theorem wordSum_bytes16 (v : BitVec 16) : wordSum (bytes16 v) = v.toNat := by
  simp only [bytes16, wordSum, Nat.add_zero]
  exact bytes16_toNat v

end Sys2Proof.Machine
end

