-- ==== Sys2Proof/Laws/Receive.lean ====
section
/-! SUPPORT. `DISPATCH` and `IP_RX` without the bound on their cycle: each calls the other as the
pseudocode of 42_protocol_registry.md R182 and 44_ip.md R221 says (R184, R336). -/

namespace Sys2Proof.Machine

/-- The payload `IP_RX` goes on with is at least 20 bytes shorter (R336). -/
theorem trimmed_length (buf : Bytes) (hlen total : Nat) (h20 : 20 ≤ hlen) (hl : hlen ≤ buf.length) :
    (removeHeader (if buf.length > total then removePadding buf (buf.length - total) else buf) hlen).length + 20
      ≤ buf.length := by
  simp only [removeHeader, removePadding, List.length_drop]
  split
  · simp only [List.length_take]; omega
  · omega

/-- `IP_RX` depends on what it calls last only for buffers at least 20 bytes shorter. -/
theorem ipRxWith_congr {k k' : Bytes → BitVec 16 → SrcAddr → State → Answer} (buf : Bytes) (s : State)
    (h : ∀ b p a u, b.length + 20 ≤ buf.length → k b p a u = k' b p a u) :
    ipRxWith k buf s = ipRxWith k' buf s := by
  unfold ipRxWith
  simp only []
  split
  · rfl
  split
  · rfl
  split
  · rfl
  split
  · rfl
  split
  · rfl
  split
  · rfl
  · next h1 h2 h3 h4 h5 h6 =>
    unfold ipDeliver
    simp only []
    congr 1
    funext u
    split
    · rfl
    · exact h _ _ _ _ (trimmed_length _ _ _ (by omega) (by omega))

/-- The case split of R182, with what its `H_IP` branch runs as a parameter. -/
theorem dispatchWithin_congr {n m : Nat} {buf : Bytes} {proto : BitVec 16} {src : SrcAddr} {s : State}
    (h : ipRxWith (match n with
        | 0 => fun _ _ _ s => .next s
        | k + 1 => fun b p a s => dispatchWithin k b p a s) buf s
      = ipRxWith (match m with
        | 0 => fun _ _ _ s => .next s
        | k + 1 => fun b p a s => dispatchWithin k b p a s) buf s) :
    dispatchWithin n buf proto src s = dispatchWithin m buf proto src s := by
  cases n <;> cases m <;> unfold dispatchWithin <;> cases registryLookup proto s with
  | none => rfl
  | some x => cases x with
    | ip => exact h
    | _ => rfl

/-- Any bound that the buffer's length does not exceed gives the same result (R336). -/
theorem dispatchWithin_eq : ∀ (n m : Nat) (buf : Bytes) (proto : BitVec 16) (src : SrcAddr) (s : State),
    buf.length ≤ n → buf.length ≤ m → dispatchWithin n buf proto src s = dispatchWithin m buf proto src s := by
  intro n
  induction n with
  | zero =>
    intro m buf proto src s hn hm
    exact dispatchWithin_congr (ipRxWith_congr _ _ (fun b _ _ _ hb => by omega))
  | succ n ih =>
    intro m buf proto src s hn hm
    cases m with
    | zero => exact dispatchWithin_congr (ipRxWith_congr _ _ (fun b _ _ _ hb => by omega))
    | succ m =>
      exact dispatchWithin_congr (ipRxWith_congr _ _ (fun b p a u hb => ih m b p a u (by omega) (by omega)))

/-- `DISPATCH` is the case split of R182, the `H_IP` branch calling `IP_RX`. -/
theorem dispatch_eq (buf : Bytes) (proto : BitVec 16) (src : SrcAddr) (s : State) :
    dispatch buf proto src s =
      match registryLookup proto s with
      | none => .next (drop .noHandler s)
      | some .arp => .next (arpRx buf s)
      | some .ip => ipRx buf s
      | some .udp => udpRx buf (SrcAddr.first4 src) s
      | some (.ext h) => callOut handlerReaction (.handlerCall h buf proto src) s := by
  have key : ∀ n, n = buf.length → dispatchWithin n buf proto src s =
      match registryLookup proto s with
      | none => .next (drop .noHandler s)
      | some .arp => .next (arpRx buf s)
      | some .ip => ipRx buf s
      | some .udp => udpRx buf (SrcAddr.first4 src) s
      | some (.ext h) => callOut handlerReaction (.handlerCall h buf proto src) s := by
    intro n hn
    cases n with
    | zero =>
      unfold dispatchWithin
      cases registryLookup proto s with
      | none => rfl
      | some x => cases x with
        | ip => exact ipRxWith_congr buf s (fun b _ _ _ h => by omega)
        | _ => rfl
    | succ m =>
      unfold dispatchWithin
      cases registryLookup proto s with
      | none => rfl
      | some x => cases x with
        | ip =>
          exact ipRxWith_congr buf s
            (fun b p a u h => dispatchWithin_eq _ _ b p a u (by omega) (Nat.le_refl _))
        | _ => rfl
  exact key _ rfl

/-- The tests of `IP_RX` up to the destination test (R221). -/
structure TestsPassed (buf : Bytes) (s : State) : Prop where
  short : ipHdrLen ≤ buf.length
  version : (ipv4OperandsOf buf).version = ipVersion
  hdrlenLong : 4 * (ipv4OperandsOf buf).hdrLen.toNat ≤ buf.length
  hdrlenShort : 5 ≤ (ipv4OperandsOf buf).hdrLen.toNat
  checksum : ipHeaderChecksum buf (4 * (ipv4OperandsOf buf).hdrLen.toNat) = (ipv4OperandsOf buf).checksum
  mine : (ipv4OperandsOf buf).dstIp = s.cfg.ifIp

/-- `IP_RX` either drops and does nothing else, or has passed every test up to the destination (R221). -/
theorem ipRxWith_cases (k : Bytes → BitVec 16 → SrcAddr → State → Answer) (buf : Bytes) (s : State) :
    (∃ r, ipRxWith k buf s = .next (drop r s)) ∨ (TestsPassed buf s ∧ ipRxWith k buf s = ipDeliver k buf s) := by
  unfold ipRxWith
  simp only []
  split
  · exact .inl ⟨_, rfl⟩
  split
  · exact .inl ⟨_, rfl⟩
  split
  · exact .inl ⟨_, rfl⟩
  split
  · exact .inl ⟨_, rfl⟩
  split
  · exact .inl ⟨_, rfl⟩
  split
  · exact .inl ⟨_, rfl⟩
  · next h1 h2 h3 h4 h5 h6 =>
    exact .inr ⟨⟨by omega, by simpa using h2, by omega, by omega, by simpa using h5, by simpa using h6⟩, rfl⟩

theorem ipRxWith_accepted {k : Bytes → BitVec 16 → SrcAddr → State → Answer} {buf : Bytes} {s : State}
    (h : TestsPassed buf s) : ipRxWith k buf s = ipDeliver k buf s := by
  obtain ⟨h1, h2, h3, h4, h5, h6⟩ := h
  unfold ipRxWith
  simp only []
  rw [if_neg (by omega), if_neg (by simpa using h2), if_neg (by omega), if_neg (by omega),
    if_neg (by simpa using h5), if_neg (by simpa using h6)]

/-- Trimming to the declared total length keeps that many bytes, or all where there are fewer (R224). -/
theorem trim_eq (buf : Bytes) (total : Nat) :
    (if buf.length > total then removePadding buf (buf.length - total) else buf) = buf.take total := by
  split
  · rw [removePadding]; congr 1; omega
  · rw [List.take_of_length_le (by omega)]

end Sys2Proof.Machine
end

