-- ==== Sys2Proof/Laws/Store.lean ====
section
/-! SUPPORT. The expiring store (40_primitives.md R140 to R144): what `get`, `set` and `delete` answer
and keep. -/

namespace Sys2Proof.Machine

variable {ν : Type}

/-! ## Liveness -/

theorem Table.live_of_later {ttl a b : Nat} {e : Entry ν} (hab : a ≤ b)
    (h : Table.live ttl b e = true) : Table.live ttl a e = true := by
  simp only [Table.live, Bool.or_eq_true, decide_eq_true_eq] at h ⊢
  omega

@[simp] theorem Table.live_zero (now : Nat) (e : Entry ν) : Table.live 0 now e = true := by simp [Table.live]

/-- A fresh entry is live for its whole lifetime (R141). -/
theorem Table.live_fresh {ttl now k : Nat} {v : ν} : Table.live ttl now ⟨k, v, now⟩ = true ↔ (ttl = 0 ∨ 0 < ttl) := by
  simp [Table.live]

@[simp] theorem Table.live_fresh_true {ttl now k : Nat} {v : ν} : Table.live ttl now ⟨k, v, now⟩ = true := by
  rw [Table.live_fresh]; omega

/-! ## Lookup after an update -/

theorem Table.find?_put_self (e : Entry ν) (t : Table ν) :
    (Table.put e t).find? (fun x => x.key == e.key) = some e := by
  induction t with
  | nil => simp [Table.put]
  | cons x xs ih =>
    simp only [Table.put]
    split
    · simp
    · split
      · simp
      · have : x.key ≠ e.key := by omega
        simp [this, ih]

theorem Table.find?_put_other {e : Entry ν} {k : Nat} (h : k ≠ e.key) (t : Table ν) :
    (Table.put e t).find? (fun x => x.key == k) = t.find? (fun x => x.key == k) := by
  induction t with
  | nil => simp [Table.put, Ne.symm h]
  | cons x xs ih =>
    simp only [Table.put]
    split
    · simp [Ne.symm h]
    · split
      · next hx => simp [← hx, Ne.symm h]
      · simp only [List.find?_cons, ih]

@[simp] theorem Table.get_put_self {ttl now k : Nat} {v : ν} {t : Table ν} :
    Table.get ttl now k (Table.put ⟨k, v, now⟩ t) = some v := by
  have := Table.find?_put_self ⟨k, v, now⟩ t
  simp only at this
  simp [Table.get, this]

/-- A value just stored is there for its lifetime and no longer (R141). -/
theorem Table.get_put_later {ttl now later k : Nat} {v : ν} {t : Table ν} (h : now ≤ later) :
    Table.get ttl later k (Table.put ⟨k, v, now⟩ t) = if ttl = 0 ∨ later < now + ttl then some v else none := by
  have := Table.find?_put_self ⟨k, v, now⟩ t
  simp only at this
  rw [Table.get, this]
  have e : Table.live ttl later ⟨k, v, now⟩ = true ↔ (ttl = 0 ∨ later < now + ttl) := by
    simp only [Table.live, Bool.or_eq_true, decide_eq_true_eq]; omega
  simp only [e]

theorem Table.get_put_other {ttl now k : Nat} {e : Entry ν} (h : k ≠ e.key) (t : Table ν) :
    Table.get ttl now k (Table.put e t) = Table.get ttl now k t := by
  simp [Table.get, Table.find?_put_other h]

theorem Table.get_delete_self {ttl now k : Nat} (t : Table ν) :
    Table.get ttl now k (Table.delete k t) = none := by
  have : (Table.delete k t).find? (fun e => e.key == k) = none := by
    simp only [Table.delete, List.find?_eq_none, List.mem_filter]
    intro x hx
    simpa using hx.2
  simp [Table.get, this]

theorem Table.get_delete_other {ttl now k j : Nat} (h : k ≠ j) (t : Table ν) :
    Table.get ttl now k (Table.delete j t) = Table.get ttl now k t := by
  have : (Table.delete j t).find? (fun e => e.key == k) = t.find? (fun e => e.key == k) := by
    induction t with
    | nil => rfl
    | cons x xs ih =>
      unfold Table.delete at ih ⊢
      by_cases hx : x.key = j
      · have : x.key ≠ k := by omega
        rw [List.filter_cons_of_neg (by simp [hx]), ih, List.find?_cons_of_neg (by simpa using this)]
      · rw [List.filter_cons_of_pos (by simp [hx])]
        simp only [List.find?_cons, ih]
  simp [Table.get, this]

/-- Time alone only makes entries absent (R141). -/
theorem Table.get_none_of_later {ttl a b k : Nat} {t : Table ν} (hab : a ≤ b)
    (h : Table.get ttl a k t = none) : Table.get ttl b k t = none := by
  unfold Table.get at h ⊢
  split at h
  · next e he =>
    split at h
    · cases h
    · next hl =>
      split
      · exact absurd (Table.live_of_later hab ‹_›) hl
      · rfl
  · rfl

/-! ## `set` -/

/-- The two ways `set` ends (R143). -/
theorem Table.set_cases (ttl cap now k : Nat) (v : ν) (t : Table ν) :
    (((Table.get ttl now k t).isSome ∨ Table.count ttl now t < cap) ∧
      Table.set ttl cap now k v t = (Table.put ⟨k, v, now⟩ t, true)) ∨
    (Table.get ttl now k t = none ∧ cap ≤ Table.count ttl now t ∧ Table.set ttl cap now k v t = (t, false)) := by
  unfold Table.set
  split
  · next h => exact .inl ⟨.inl h, rfl⟩
  · next h =>
    split
    · next h' => exact .inl ⟨.inr h', rfl⟩
    · exact .inr ⟨by simpa using h, by omega, rfl⟩

theorem Table.get_set_other {ttl cap now later k j : Nat} (v : ν) (h : k ≠ j) (t : Table ν) :
    Table.get ttl later k (Table.set ttl cap now j v t).1 = Table.get ttl later k t := by
  rcases Table.set_cases ttl cap now j v t with ⟨_, hs⟩ | ⟨_, _, hs⟩ <;> rw [hs]
  exact Table.get_put_other h t

/-- What `set` leaves under its own key: the new value, or what was there where it failed. -/
theorem Table.get_set_self (ttl cap now k : Nat) (v : ν) (t : Table ν) :
    Table.get ttl now k (Table.set ttl cap now k v t).1
      = if (Table.set ttl cap now k v t).2 then some v else none := by
  rcases Table.set_cases ttl cap now k v t with ⟨_, hs⟩ | ⟨hn, _, hs⟩ <;> rw [hs]
  · simp
  · simpa using hn

/-- What `set` leaves at every time from now on: under its own key, where it succeeded, the new value for
a lifetime from now; everywhere else what was there (R141, R143). -/
theorem Table.get_set_later {ttl cap now later k j : Nat} (v : ν) (h : now ≤ later) (t : Table ν) :
    Table.get ttl later k (Table.set ttl cap now j v t).1 =
      if k = j ∧ ((Table.get ttl now j t).isSome ∨ Table.count ttl now t < cap)
      then (if ttl = 0 ∨ later < now + ttl then some v else none) else Table.get ttl later k t := by
  by_cases hk : k = j
  · subst hk
    rcases Table.set_cases ttl cap now k v t with ⟨hc, hs⟩ | ⟨hn, hc, hs⟩ <;> rw [hs]
    · rw [if_pos ⟨rfl, hc⟩, Table.get_put_later h]
    · rw [if_neg]
      rintro ⟨_, h | h⟩
      · simp [hn] at h
      · omega
  · rw [if_neg (fun h => hk h.1), Table.get_set_other v hk]

/-- `set` fails exactly for a key not present in a store that holds `cap` live entries (R143, D8). -/
theorem Table.set_fails_iff (ttl cap now k : Nat) (v : ν) (t : Table ν) :
    (Table.set ttl cap now k v t).2 = false ↔ Table.get ttl now k t = none ∧ cap ≤ Table.count ttl now t := by
  rcases Table.set_cases ttl cap now k v t with ⟨h, hs⟩ | ⟨hn, hc, hs⟩ <;> rw [hs]
  · constructor
    · intro h'; simp at h'
    · rintro ⟨hn, hc⟩
      rcases h with h | h
      · simp [hn] at h
      · omega
  · simp [hn, hc]

theorem Table.set_failed {ttl cap now k : Nat} {v : ν} {t : Table ν}
    (h : (Table.set ttl cap now k v t).2 = false) : (Table.set ttl cap now k v t).1 = t := by
  rcases Table.set_cases ttl cap now k v t with ⟨_, hs⟩ | ⟨_, _, hs⟩ <;> rw [hs] at h ⊢
  simp at h

/-! ## The canonical form -/

theorem Table.mem_put {e x : Entry ν} {t : Table ν} (h : x ∈ Table.put e t) : x = e ∨ x ∈ t := by
  induction t with
  | nil => simpa [Table.put] using h
  | cons y ys ih =>
    simp only [Table.put] at h
    split at h
    · simpa using h
    · split at h
      · simp only [List.mem_cons] at h ⊢; tauto
      · simp only [List.mem_cons] at h ⊢
        rcases h with h | h
        · tauto
        · rcases ih h with h | h <;> tauto

theorem Table.wf_iff {t : Table ν} : Table.wf t = true ↔ (t.map Entry.key).Pairwise (· < ·) := by
  simp [Table.wf]

theorem Table.wf_nil : Table.wf ([] : Table ν) = true := by simp [Table.wf]

theorem Table.wf_put {e : Entry ν} {t : Table ν} (h : Table.wf t = true) : Table.wf (Table.put e t) = true := by
  rw [Table.wf_iff, List.pairwise_map] at h ⊢
  induction t with
  | nil => simp [Table.put]
  | cons x xs ih =>
    rw [List.pairwise_cons] at h
    simp only [Table.put]
    split
    · next hlt =>
      refine List.pairwise_cons.2 ⟨?_, List.pairwise_cons.2 h⟩
      intro y hy
      rcases List.mem_cons.1 hy with rfl | hy
      · exact hlt
      · exact Nat.lt_trans hlt (h.1 y hy)
    · split
      · next heq => exact List.pairwise_cons.2 ⟨fun y hy => heq ▸ h.1 y hy, h.2⟩
      · refine List.pairwise_cons.2 ⟨?_, ih h.2⟩
        intro y hy
        rcases Table.mem_put hy with rfl | hy
        · omega
        · exact h.1 y hy

theorem Table.wf_set {ttl cap now k : Nat} {v : ν} {t : Table ν} (h : Table.wf t = true) :
    Table.wf (Table.set ttl cap now k v t).1 = true := by
  rcases Table.set_cases ttl cap now k v t with ⟨_, hs⟩ | ⟨_, _, hs⟩ <;> rw [hs]
  · exact Table.wf_put h
  · exact h

theorem Table.wf_delete {k : Nat} {t : Table ν} (h : Table.wf t = true) : Table.wf (Table.delete k t) = true := by
  rw [Table.wf_iff, List.pairwise_map] at h ⊢
  exact h.filter _

/-! ## Capacity -/

theorem Table.count_le_of_later {ttl a b : Nat} (hab : a ≤ b) (t : Table ν) :
    Table.count ttl b t ≤ Table.count ttl a t := by
  unfold Table.count
  exact (List.monotone_filter_right t (fun e h => Table.live_of_later hab h)).length_le

theorem Table.count_delete_le {ttl now k : Nat} (t : Table ν) :
    Table.count ttl now (Table.delete k t) ≤ Table.count ttl now t := by
  unfold Table.count Table.delete
  exact (List.filter_sublist.filter _).length_le

theorem Table.count_put_le {ttl now k : Nat} {v : ν} (t : Table ν) :
    Table.count ttl now (Table.put ⟨k, v, now⟩ t) ≤ Table.count ttl now t + 1 := by
  unfold Table.count
  induction t with
  | nil => simp [Table.put]
  | cons x xs ih =>
    simp only [Table.put]
    split
    · simp
    · split
      · simp only [List.filter_cons, Table.live_fresh_true, if_true, List.length_cons]
        split
        · simp only [List.length_cons]; omega
        · omega
      · simp only [List.filter_cons]
        split
        · simp only [List.length_cons]; omega
        · exact ih

/-- An entry that has expired does not count (R142). -/
theorem Table.count_put_expired {ttl later : Nat} {e : Entry ν} (h : Table.live ttl later e = false) (t : Table ν) :
    Table.count ttl later (Table.put e t) ≤ Table.count ttl later t := by
  unfold Table.count
  induction t with
  | nil => simp [Table.put, h]
  | cons x xs ih =>
    simp only [Table.put]
    split
    · simp [h]
    · split
      · simp only [List.filter_cons, h, Bool.false_eq_true, if_false]
        split
        · simp only [List.length_cons]; omega
        · omega
      · simp only [List.filter_cons]
        split
        · simp only [List.length_cons]; omega
        · exact ih

/-- After a value's lifetime no more entries are live than when it was stored (R141, R142). -/
theorem Table.count_set_expired {ttl cap now later k : Nat} {v : ν} {t : Table ν} (h0 : ttl ≠ 0)
    (h : now + ttl ≤ later) :
    Table.count ttl later (Table.set ttl cap now k v t).1 ≤ Table.count ttl now t := by
  refine Nat.le_trans ?_ (Table.count_le_of_later (Nat.le_trans (Nat.le_add_right now ttl) h) t)
  rcases Table.set_cases ttl cap now k v t with ⟨_, hs⟩ | ⟨_, _, hs⟩ <;> rw [hs]
  exact Table.count_put_expired (by simp [Table.live, h0]; omega) t

theorem Table.count_put_live {ttl now k : Nat} {v : ν} {t : Table ν}
    (h : (Table.get ttl now k t).isSome) (hwf : Table.wf t = true) :
    Table.count ttl now (Table.put ⟨k, v, now⟩ t) = Table.count ttl now t := by
  rw [Table.wf_iff, List.pairwise_map] at hwf
  unfold Table.count
  unfold Table.get at h
  induction t with
  | nil => simp at h
  | cons x xs ih =>
    rw [List.pairwise_cons] at hwf
    simp only [Table.put]
    by_cases hx : x.key = k
    · rw [if_neg (by omega), if_pos hx.symm]
      rw [List.find?_cons_of_pos (by simpa using hx)] at h
      have hl : Table.live ttl now x = true := by
        by_contra hn
        simp [hn] at h
      simp [hl]
    · rw [List.find?_cons_of_neg (by simpa using hx)] at h
      have hlt : ¬ k < x.key := by
        intro hlt
        have : xs.find? (fun e => e.key == k) = none := by
          rw [List.find?_eq_none]
          intro y hy
          have := hwf.1 y hy
          simp; omega
        simp [this] at h
      rw [if_neg hlt, if_neg (by omega)]
      have := ih h hwf.2
      simp only [List.filter_cons]
      split <;> simp [this]

theorem Table.count_set_le {ttl cap now k : Nat} {v : ν} {t : Table ν} (hwf : Table.wf t = true)
    (h : Table.count ttl now t ≤ cap) : Table.count ttl now (Table.set ttl cap now k v t).1 ≤ cap := by
  rcases Table.set_cases ttl cap now k v t with ⟨hc, hs⟩ | ⟨_, _, hs⟩ <;> rw [hs]
  · rcases hc with hc | hc
    · rw [Table.count_put_live hc hwf]; exact h
    · have := @Table.count_put_le ν ttl now k v t
      simp only; omega
  · exact h

/-! ## Timestamps -/

theorem Table.stamps_set {ttl cap now k : Nat} {v : ν} {t : Table ν} (h : ∀ e ∈ t, e.stamp ≤ now) :
    ∀ e ∈ (Table.set ttl cap now k v t).1, e.stamp ≤ now := by
  rcases Table.set_cases ttl cap now k v t with ⟨_, hs⟩ | ⟨_, _, hs⟩ <;> rw [hs]
  · intro e he
    rcases Table.mem_put he with rfl | he
    · exact Nat.le_refl _
    · exact h e he
  · exact h

theorem Table.stamps_delete {now k : Nat} {t : Table ν} (h : ∀ e ∈ t, e.stamp ≤ now) :
    ∀ e ∈ Table.delete k t, e.stamp ≤ now :=
  fun e he => h e (List.mem_filter.1 he).1

/-! ## Keys -/

/-- The key of an IP address, byte 0 the most significant (log entry 14). -/
theorem ipKey_eq (a : Ip) :
    ipKey a = ((a.b0.toNat * 256 + a.b1.toNat) * 256 + a.b2.toNat) * 256 + a.b3.toNat := be32At_toNat _ _

theorem ipKey_inj {a b : Ip} (h : ipKey a = ipKey b) : a = b := by
  obtain ⟨a0, a1, a2, a3⟩ := a
  obtain ⟨b0, b1, b2, b3⟩ := b
  simp only [ipKey_eq] at h
  have := a0.isLt; have := a1.isLt; have := a2.isLt; have := a3.isLt
  have := b0.isLt; have := b1.isLt; have := b2.isLt; have := b3.isLt
  congr 1 <;> apply BitVec.eq_of_toNat_eq <;> omega

theorem ipKey_ne {a b : Ip} (h : a ≠ b) : ipKey a ≠ ipKey b := fun hk => h (ipKey_inj hk)

end Sys2Proof.Machine
end

