-- ==== Sys2Proof/Laws/Frames.lean ====
section
/-! SUPPORT. Once for each shared operation: what it may change (20_memory.md R68; the "State written"
lines of the rules). -/

namespace Sys2Proof.Machine

/-! ## The send path -/

/-- What the operations of the send path may change: `IP_ID`, `arp_pending`, and the events, to which
they only append frames and drops (43_arp.md R196, 44_ip.md R229, R231, 45_udp.md R265). -/
structure SendFrame (s t : State) : Prop where
  rest : t = { s with ipId := t.ipId, arpPending := t.arpPending, out := t.out }
  events : ∃ es, t.out = s.out ++ es ∧ ∀ e ∈ es, (∃ f, e = .driverSend f) ∨ e = .drop .arpPendingBusy

theorem SendFrame.refl (s : State) : SendFrame s s := ⟨rfl, [], by simp, by simp⟩

theorem SendFrame.trans {a b c : State} (h : SendFrame a b) (h' : SendFrame b c) : SendFrame a c := by
  obtain ⟨r, es, e1, e2⟩ := h
  obtain ⟨r', es', e1', e2'⟩ := h'
  refine ⟨?_, es ++ es', by rw [e1', e1, List.append_assoc], ?_⟩
  · rw [r', r]
  · intro e he
    rcases List.mem_append.1 he with he | he
    · exact e2 e he
    · exact e2' e he

theorem SendFrame.cfg {s t : State} (h : SendFrame s t) : t.cfg = s.cfg := by rw [h.rest]
theorem SendFrame.now {s t : State} (h : SendFrame s t) : t.now = s.now := by rw [h.rest]
theorem SendFrame.arpTable {s t : State} (h : SendFrame s t) : t.arpTable = s.arpTable := by rw [h.rest]
theorem SendFrame.registry {s t : State} (h : SendFrame s t) : t.registry = s.registry := by rw [h.rest]
theorem SendFrame.portTable {s t : State} (h : SendFrame s t) : t.portTable = s.portTable := by rw [h.rest]

theorem ethTx_frame (b : Bytes) (m : Mac) (p : BitVec 16) (s : State) : SendFrame s (ethTx b m p s) := by
  rw [ethTx_eq]
  exact ⟨rfl, [_], rfl, by simp⟩

theorem arpReq_frame (ip : Ip) (s : State) : SendFrame s (arpReq ip s) := ethTx_frame _ _ _ _

theorem arpReply_frame (ip : Ip) (m : Mac) (s : State) : SendFrame s (arpReply ip m s) := ethTx_frame _ _ _ _

theorem park_frame (ip : Ip) (b : Bytes) (s : State) : SendFrame s (park ip b s) := ⟨rfl, [], by simp, by simp⟩

theorem drop_busy_frame (s : State) : SendFrame s (drop .arpPendingBusy s) := ⟨rfl, [_], rfl, by simp⟩

/-- The three ways `ARP_OUT` ends (43_arp.md R196). -/
theorem arpOut_cases (buf : Bytes) (ip : Ip) (s : State) :
    (∃ mac, arpLookup ip s = some mac ∧ arpOut buf ip s = ethTx buf mac s.cfg.ethertypeIp s) ∨
    (arpLookup ip s = none ∧ (∃ b, pendingLookup ip s = some b) ∧ arpOut buf ip s = drop .arpPendingBusy s) ∨
    (arpLookup ip s = none ∧ pendingLookup ip s = none ∧ arpOut buf ip s = arpReq ip (park ip buf s)) := by
  unfold arpOut
  split
  · next mac h => exact .inl ⟨mac, h, rfl⟩
  · next h =>
    split
    · next b hb => exact .inr (.inl ⟨h, ⟨b, hb⟩, rfl⟩)
    · next hb => exact .inr (.inr ⟨h, hb, rfl⟩)

theorem arpOut_frame (buf : Bytes) (ip : Ip) (s : State) : SendFrame s (arpOut buf ip s) := by
  rcases arpOut_cases buf ip s with ⟨m, _, h⟩ | ⟨_, _, h⟩ | ⟨_, _, h⟩ <;> rw [h]
  · exact ethTx_frame _ _ _ _
  · exact drop_busy_frame _
  · exact (park_frame _ _ _).trans (arpReq_frame _ _)

@[simp] theorem arpOut_ipId (buf : Bytes) (ip : Ip) (s : State) : (arpOut buf ip s).ipId = s.ipId := by
  rcases arpOut_cases buf ip s with ⟨m, _, h⟩ | ⟨_, _, h⟩ | ⟨_, _, h⟩ <;> rw [h] <;> rfl

theorem ipFragTx_frame (buf : Bytes) (dip : Ip) (proto : Byte) (id off : BitVec 16) (mf : Bool) (s : State) :
    SendFrame s (ipFragTx buf dip proto id off mf s) := arpOut_frame _ _ _

/-- A relation that every `ARP_OUT` to a destination keeps, the loop of `IP_SEND` keeps (44_ip.md R229). -/
theorem ipFragments_induct {R : State → State → Prop} (dip : Ip) (proto : Byte) (id : BitVec 16)
    (trans : ∀ {a b c}, R a b → R b c → R a c) (step : ∀ buf s, R s (arpOut buf dip s)) :
    ∀ (n : Nat) (rest : Bytes) (off : Nat) (s : State), R s (ipFragments dip proto id n rest off s) := by
  intro n
  induction n with
  | zero => intro rest off s; exact step _ _
  | succ n ih =>
    intro rest off s
    unfold ipFragments
    split
    · exact trans (step _ _) (ih _ _ _)
    · exact step _ _

theorem ipFragments_frame (dip : Ip) (proto : Byte) (id : BitVec 16) (n : Nat) (rest : Bytes) (off : Nat) (s : State) :
    SendFrame s (ipFragments dip proto id n rest off s) :=
  ipFragments_induct (R := SendFrame) dip proto id SendFrame.trans (fun b u => arpOut_frame b dip u) n rest off s

@[simp] theorem ipFragments_ipId (dip : Ip) (proto : Byte) (id : BitVec 16) (n : Nat) (rest : Bytes) (off : Nat)
    (s : State) : (ipFragments dip proto id n rest off s).ipId = s.ipId :=
  ipFragments_induct (R := fun a b => b.ipId = a.ipId) dip proto id (fun h h' => h'.trans h)
    (fun b u => arpOut_ipId b dip u) n rest off s

/-- `IP_SEND` advances `IP_ID` by one (10_state.md R30). -/
@[simp] theorem ipSend_ipId (buf : Bytes) (dip : Ip) (proto : Byte) (s : State) :
    (ipSend buf dip proto s).ipId = s.ipId + 1 := by
  simp [ipSend]

theorem setIpId_frame (s : State) (v : BitVec 16) : SendFrame s { s with ipId := v } := ⟨rfl, [], by simp, by simp⟩

theorem ipSend_frame (buf : Bytes) (dip : Ip) (proto : Byte) (s : State) : SendFrame s (ipSend buf dip proto s) :=
  (ipFragments_frame dip proto s.ipId buf.length buf 0 s).trans (setIpId_frame _ _)

theorem udpSend_frame (data : Bytes) (sp : BitVec 16) (dip : Ip) (dp : BitVec 16) (s : State) :
    SendFrame s (udpSend data sp dip dp s) := ipSend_frame _ _ _ _

/-! ## Any operation -/

/-- What any operation of the receive path or of a reaction may change: `IP_ID`, the four stores, the
reactions and draws used up, and the events, to which it only appends (60_exceptions.md R281, R283,
R291, R301). -/
structure Grown (s t : State) : Prop where
  rest : t = { s with
    ipId := t.ipId, arpTable := t.arpTable, arpPending := t.arpPending, registry := t.registry,
    portTable := t.portTable, reactions := t.reactions, out := t.out, draws := t.draws }
  events : ∃ es, t.out = s.out ++ es

theorem Grown.refl (s : State) : Grown s s := ⟨rfl, [], by simp⟩

theorem Grown.trans {a b c : State} (h : Grown a b) (h' : Grown b c) : Grown a c := by
  obtain ⟨r, es, e⟩ := h
  obtain ⟨r', es', e'⟩ := h'
  refine ⟨?_, es ++ es', by rw [e', e, List.append_assoc]⟩
  rw [r', r]

theorem SendFrame.grown {s t : State} (h : SendFrame s t) : Grown s t := by
  obtain ⟨r, es, e, _⟩ := h
  refine ⟨?_, es, e⟩
  rw [r]

theorem emit_grown (e : Event) (s : State) : Grown s (emit e s) := ⟨rfl, [e], rfl⟩
theorem drop_grown (r : DropReason) (s : State) : Grown s (drop r s) := emit_grown _ _
theorem arpLearn_grown (ip : Ip) (m : Mac) (s : State) : Grown s (arpLearn ip m s) := ⟨rfl, [], by simp⟩
theorem unpark_grown (ip : Ip) (s : State) : Grown s (unpark ip s) := ⟨rfl, [], by simp⟩
theorem registrySet_grown (p : BitVec 16) (h : Handler) (s : State) : Grown s (registrySet p h s) := ⟨rfl, [], by simp⟩
theorem portDelete_grown (p : BitVec 16) (s : State) : Grown s (portDelete p s) := ⟨rfl, [], by simp⟩
theorem udpOpen_grown (p : BitVec 16) (h : ExtHandler) (s : State) : Grown s (udpOpen p h s) := ⟨rfl, [_], rfl⟩
theorem reactions_grown (rs : List (List Instr)) (s : State) : Grown s { s with reactions := rs } := ⟨rfl, [], by simp⟩
theorem draws_grown (n : Nat) (s : State) : Grown s { s with draws := n } := ⟨rfl, [], by simp⟩

/-! ## `ARP_RX` -/

/-- The three ways `ARP_RX` ends for a packet that passed its tests (43_arp.md R200). -/
theorem arpLearnAndAnswer_cases (op : BitVec 16) (p : ArpOperands) (s : State) :
    (∃ b, pendingLookup p.senderIp s = some b ∧ arpLearnAndAnswer op p s
        = unpark p.senderIp (ethTx b p.senderMac s.cfg.ethertypeIp (arpLearn p.senderIp p.senderMac s))) ∨
    (pendingLookup p.senderIp s = none ∧ op = arpOpRequestCode ∧ p.targetIp = s.cfg.ifIp ∧
      arpLearnAndAnswer op p s = arpReply p.senderIp p.senderMac (arpLearn p.senderIp p.senderMac s)) ∨
    (pendingLookup p.senderIp s = none ∧ ¬ (op = arpOpRequestCode ∧ p.targetIp = s.cfg.ifIp) ∧
      arpLearnAndAnswer op p s = arpLearn p.senderIp p.senderMac s) := by
  unfold arpLearnAndAnswer
  simp only []
  have hp : pendingLookup p.senderIp (arpLearn p.senderIp p.senderMac s) = pendingLookup p.senderIp s := rfl
  rw [hp]
  split
  · next b h => exact .inl ⟨b, h, rfl⟩
  · next h =>
    split
    · next h' => exact .inr (.inl ⟨h, h'.1, h'.2, rfl⟩)
    · next h' => exact .inr (.inr ⟨h, h', rfl⟩)

/-- `ARP_RX` drops and does nothing else, or learns and answers (43_arp.md R200). -/
theorem arpRx_cases (buf : Bytes) (s : State) :
    (∃ r, arpRx buf s = drop r s) ∨
    (arpRx buf s = arpLearnAndAnswer (be16At buf 6) (arpOperandsOf buf) s) := by
  unfold arpRx arpReceive
  split
  · exact .inl ⟨_, rfl⟩
  split
  · exact .inl ⟨_, rfl⟩
  split
  · exact .inl ⟨_, rfl⟩
  · exact .inr rfl

theorem arpReceive_cases (op : BitVec 16) (p : ArpOperands) (s : State) :
    (∃ r, arpReceive op p s = drop r s) ∨ (arpReceive op p s = arpLearnAndAnswer op p s) := by
  unfold arpReceive
  split
  · exact .inl ⟨_, rfl⟩
  split
  · exact .inl ⟨_, rfl⟩
  · exact .inr rfl

/-! ## Induction over the receive path -/

/-- A relation that composes and holds over every basic change the receive path and the reactions make,
holds over each of their operations. The basic changes are the parameters. -/
structure Closed (R : State → State → Prop) : Prop where
  refl : ∀ s, R s s
  trans : ∀ {a b c}, R a b → R b c → R a c
  emit : ∀ e s, R s (emit e s)
  setIpId : ∀ v s, R s { s with ipId := v }
  park : ∀ ip b s, arpLookup ip s = none → R s (park ip b s)
  learnAnswer : ∀ op p s, R s (arpLearnAndAnswer op p s)
  registrySet : ∀ p h s, R s (registrySet p h s)
  portSet : ∀ p h s, R s (portSet p h s).1
  portDelete : ∀ p s, R s (portDelete p s)
  reactions : ∀ rs s, R s { s with reactions := rs }
  draws : ∀ n s, R s { s with draws := n }

namespace Closed

variable {R : State → State → Prop}

theorem drop (h : Closed R) (r : DropReason) (s : State) : R s (drop r s) := h.emit _ _

theorem ethTx (h : Closed R) (b : Bytes) (m : Mac) (p : BitVec 16) (s : State) : R s (ethTx b m p s) := by
  rw [ethTx_eq]; exact h.emit _ _

theorem arpOut (h : Closed R) (buf : Bytes) (ip : Ip) (s : State) : R s (arpOut buf ip s) := by
  rcases arpOut_cases buf ip s with ⟨m, _, e⟩ | ⟨_, _, e⟩ | ⟨hn, _, e⟩ <;> rw [e]
  · exact h.ethTx _ _ _ _
  · exact h.drop _ _
  · exact h.trans (h.park _ _ _ hn) (h.ethTx _ _ _ _)

theorem ipSend (h : Closed R) (buf : Bytes) (dip : Ip) (proto : Byte) (s : State) : R s (ipSend buf dip proto s) :=
  h.trans (ipFragments_induct (R := R) dip proto s.ipId h.trans (fun b u => h.arpOut b dip u) _ _ _ _) (h.setIpId _ _)

theorem udpOpen (h : Closed R) (p : BitVec 16) (x : ExtHandler) (s : State) : R s (udpOpen p x s) :=
  h.trans (h.portSet p x s) (h.emit _ _)

theorem handlerReaction (h : Closed R) (c : Instr) (s t : State) (ht : handlerReaction c s = .next t) : R s t := by
  rcases handlerReaction_cases ht with ⟨_, _, _, _, _, _, e⟩ | ⟨_, _, _, _, _, e⟩ | ⟨_, _, _, _, _, e⟩ | ⟨_, _, e⟩ |
    ⟨_, _, _, _, _, e⟩ <;> rw [e]
  · exact h.ipSend _ _ _ _
  · exact h.ipSend _ _ _ _
  · exact h.udpOpen _ _ _
  · exact h.portDelete _ _
  · exact h.registrySet _ _ _

theorem icmpReaction (h : Closed R) (c : Instr) (s t : State) (ht : icmpReaction c s = .next t) : R s t := by
  obtain ⟨_, _, _, _, _, e⟩ := icmpReaction_cases ht
  rw [e]; exact h.ipSend _ _ _ _

theorem callOut (h : Closed R) {run : Instr → State → Answer} (hrun : ∀ c s t, run c s = .next t → R s t)
    {e : Event} {s t : State} (ht : callOut run e s = .next t) : R s t := by
  rcases callOut_eq_next ht with ⟨_, rfl⟩ | ⟨r, rs, _, hr⟩
  · exact h.emit _ _
  · exact h.trans (h.trans (h.emit e s) (h.reactions rs _)) (runAll_induct h.refl h.trans hrun r _ _ hr)

theorem arpRx (h : Closed R) (buf : Bytes) (s : State) : R s (arpRx buf s) := by
  rcases arpRx_cases buf s with ⟨r, e⟩ | e <;> rw [e]
  · exact h.drop _ _
  · exact h.learnAnswer _ _ _

theorem arpReceive (h : Closed R) (op : BitVec 16) (p : ArpOperands) (s : State) : R s (arpReceive op p s) := by
  rcases arpReceive_cases op p s with ⟨r, e⟩ | e <;> rw [e]
  · exact h.drop _ _
  · exact h.learnAnswer _ _ _

theorem udpRx (h : Closed R) {buf : Bytes} {a : Ip} {s t : State} (ht : udpRx buf a s = .next t) : R s t := by
  unfold Sys2Proof.Machine.udpRx at ht
  split at ht
  · cases ht; exact h.drop _ _
  split at ht
  · cases ht; exact h.drop _ _
  split at ht
  · cases ht; exact h.drop _ _
  unfold udpDeliver at ht
  split at ht
  · exact h.trans (h.draws _ _) (h.callOut h.icmpReaction ht)
  · exact h.callOut h.handlerReaction ht

theorem ipRxWith (h : Closed R) {k : Bytes → BitVec 16 → SrcAddr → State → Answer}
    (hk : ∀ b p a s t, k b p a s = .next t → R s t) {buf : Bytes} {s t : State}
    (ht : ipRxWith k buf s = .next t) : R s t := by
  rcases ipRxWith_cases k buf s with ⟨r, e⟩ | ⟨_, e⟩ <;> rw [e] at ht
  · cases ht; exact h.drop _ _
  · unfold ipDeliver at ht
    obtain ⟨u, hu, ht⟩ := andThen_eq_next ht
    refine h.trans (?_ : R s u) ?_
    · split at hu
      · cases hu; exact h.refl _
      · exact h.callOut h.icmpReaction hu
    · split at ht
      · cases ht; exact h.drop _ _
      · exact hk _ _ _ _ _ ht

theorem dispatchWithin (h : Closed R) : ∀ (n : Nat) {buf : Bytes} {p : BitVec 16} {a : SrcAddr} {s t : State},
    dispatchWithin n buf p a s = .next t → R s t := by
  intro n
  induction n with
  | zero =>
    intro buf p a s t ht
    unfold Sys2Proof.Machine.dispatchWithin at ht
    split at ht
    · cases ht; exact h.drop _ _
    · cases ht; exact h.arpRx _ _
    · exact h.udpRx ht
    · exact h.callOut h.handlerReaction ht
    · exact h.ipRxWith (fun b p a s t e => by cases e; exact h.refl _) ht
  | succ n ih =>
    intro buf p a s t ht
    unfold Sys2Proof.Machine.dispatchWithin at ht
    split at ht
    · cases ht; exact h.drop _ _
    · cases ht; exact h.arpRx _ _
    · exact h.udpRx ht
    · exact h.callOut h.handlerReaction ht
    · exact h.ipRxWith (fun b p a s t e => ih e) ht

theorem dispatch (h : Closed R) {buf : Bytes} {p : BitVec 16} {a : SrcAddr} {s t : State}
    (ht : dispatch buf p a s = .next t) : R s t := h.dispatchWithin _ ht

theorem ipRx (h : Closed R) {buf : Bytes} {s t : State} (ht : ipRx buf s = .next t) : R s t :=
  h.ipRxWith (fun _ _ _ _ _ e => h.dispatch e) ht

theorem ethRx (h : Closed R) {f : Bytes} {s t : State} (ht : ethRx f s = .next t) : R s t := by
  unfold Sys2Proof.Machine.ethRx at ht
  split at ht
  · cases ht; exact h.drop _ _
  · exact h.dispatch ht

end Closed

/-- The frame of the receive path and of reactions is such a relation. -/
theorem grown_closed : Closed Grown where
  refl := Grown.refl
  trans := Grown.trans
  emit := emit_grown
  setIpId v s := (setIpId_frame s v).grown
  park ip b s _ := (park_frame ip b s).grown
  learnAnswer op p s := by
    rcases arpLearnAndAnswer_cases op p s with ⟨b, _, e⟩ | ⟨_, _, _, e⟩ | ⟨_, _, e⟩ <;> rw [e]
    · exact (arpLearn_grown _ _ _).trans ((ethTx_frame _ _ _ _).grown.trans (unpark_grown _ _))
    · exact (arpLearn_grown _ _ _).trans (arpReply_frame _ _ _).grown
    · exact arpLearn_grown _ _ _
  registrySet := registrySet_grown
  portSet p h s := ⟨rfl, [], by simp⟩
  portDelete := portDelete_grown
  reactions := reactions_grown
  draws := draws_grown

/-! ## Any instruction -/

/-- A relation that composes and holds over every basic change holds over every instruction: the one
place where the instructions are gone through. -/
theorem exec_closed {R : State → State → Prop} (h : Closed R)
    (hreturned : ∀ v s, R s { s with returned := v }) (hinited : ∀ s, R s { s with inited := true })
    (hdriver : ∀ fs s, R s { s with driverRx := fs })
    (hframe : ∀ fs b s, R s { s with driverRx := fs, rxScratch := b })
    {i : Instr} {s t : State} (ht : exec i s = .next t) : R s t := by
  cases i with
  | init =>
    injection ht with ht
    rw [← ht]
    exact h.trans (h.registrySet _ _ _) (h.trans (h.registrySet _ _ _) (h.trans (h.registrySet _ _ _)
      (h.trans (h.ethTx _ _ _ _) (hinited _))))
  | poll =>
    simp only [exec, execPoll] at ht
    split at ht
    · injection ht with ht; exact ht ▸ h.refl s
    · split at ht
      · cases ht
      · split at ht
        · exact h.trans (hframe _ _ s) (h.ethRx ht)
        · injection ht with ht; exact ht ▸ hdriver _ s
  | register p c =>
    simp only [exec, execRegister] at ht
    split at ht
    · injection ht with ht; exact ht ▸ h.registrySet _ _ _
    · cases ht
  | udpOpen p c =>
    simp only [exec, execUdpOpen] at ht
    split at ht
    · injection ht with ht; exact ht ▸ h.udpOpen _ _ _
    · cases ht
  | udpClose p => injection ht with ht; exact ht ▸ h.portDelete _ _
  | udpSend d sp dip dp =>
    simp only [exec, execUdpSend] at ht
    split at ht
    · injection ht with ht; exact ht ▸ h.ipSend _ _ _ _
    · cases ht
  | ipSend b dip p =>
    simp only [exec, execIpSend] at ht
    split at ht
    · injection ht with ht; exact ht ▸ h.ipSend _ _ _ _
    · cases ht
  | ethTx b m p => injection ht with ht; exact ht ▸ h.ethTx _ _ _ _
  | ethRx f => exact h.ethRx ht
  | dispatch b p a => exact h.dispatch ht
  | arpOut b ip => injection ht with ht; exact ht ▸ h.arpOut _ _ _
  | arpReq ip => injection ht with ht; exact ht ▸ h.ethTx _ _ _ _
  | arpReply ip m => injection ht with ht; exact ht ▸ h.ethTx _ _ _ _
  | arpRx b m => injection ht with ht; exact ht ▸ h.arpRx _ _
  | ipRx b m => exact h.ipRx ht
  | ipFragTx b dip p id off mf => injection ht with ht; exact ht ▸ h.arpOut _ _ _
  | udpCsum b x y => injection ht with ht; exact ht ▸ hreturned _ s
  | udpRx b a => exact h.udpRx ht
  | ethTypeArp d m p => exact h.ethRx (f := ethBytes d m s.cfg.ethertypeArp p) ht
  | ethTypeIp d m p => exact h.ethRx (f := ethBytes d m s.cfg.ethertypeIp p) ht
  | arpOpRequest p => injection ht with ht; exact ht ▸ h.arpReceive _ _ _
  | arpOpReply p => injection ht with ht; exact ht ▸ h.arpReceive _ _ _
  | ipProtoUdp d => exact h.ipRx (buf := ipv4Bytes s.cfg.ipprotoUdp d) ht
  | ipProtoIcmp d => exact h.ipRx (buf := ipv4Bytes s.cfg.ipprotoIcmp d) ht

end Sys2Proof.Machine
end

