-- ==== Sys2Proof/Laws/Memory.lean ====
section
/-! SUPPORT. Every operation over the block's four stores keeps their canonical form `Memory.wf`, and
the state after reset has it. -/

namespace Sys2Proof.Machine

theorem Memory.wf_iff {s : State} : Memory.wf s = true ↔
    Table.wf s.arpTable = true ∧ Table.wf s.arpPending = true ∧ Table.wf s.registry = true ∧
      Table.wf s.portTable = true := by
  simp [Memory.wf, and_assoc]

theorem Memory.wf_resetWith (cfg : Cfg) : Memory.wf (State.resetWith cfg) = true :=
  Memory.wf_iff.2 ⟨Table.wf_nil, Table.wf_nil, Table.wf_nil, Table.wf_nil⟩

theorem Memory.wf_reset : Memory.wf State.reset = true := Memory.wf_resetWith _

theorem Memory.wf_emit (e : Event) (s : State) : Memory.wf (emit e s) = Memory.wf s := rfl

theorem Memory.wf_arpLearn {ip : Ip} {m : Mac} {s : State} (h : Memory.wf s = true) :
    Memory.wf (arpLearn ip m s) = true := by
  rw [Memory.wf_iff] at h ⊢
  exact ⟨Table.wf_set h.1, h.2⟩

theorem Memory.wf_park {ip : Ip} {b : Bytes} {s : State} (h : Memory.wf s = true) :
    Memory.wf (park ip b s) = true := by
  rw [Memory.wf_iff] at h ⊢
  exact ⟨h.1, Table.wf_set h.2.1, h.2.2⟩

theorem Memory.wf_unpark {ip : Ip} {s : State} (h : Memory.wf s = true) : Memory.wf (unpark ip s) = true := by
  rw [Memory.wf_iff] at h ⊢
  exact ⟨h.1, Table.wf_delete h.2.1, h.2.2⟩

theorem Memory.wf_registrySet {p : BitVec 16} {x : Handler} {s : State} (h : Memory.wf s = true) :
    Memory.wf (registrySet p x s) = true := by
  rw [Memory.wf_iff] at h ⊢
  exact ⟨h.1, h.2.1, Table.wf_set h.2.2.1, h.2.2.2⟩

theorem Memory.wf_portSet {p : BitVec 16} {x : ExtHandler} {s : State} (h : Memory.wf s = true) :
    Memory.wf (portSet p x s).1 = true := by
  rw [Memory.wf_iff] at h ⊢
  exact ⟨h.1, h.2.1, h.2.2.1, Table.wf_set h.2.2.2⟩

theorem Memory.wf_portDelete {p : BitVec 16} {s : State} (h : Memory.wf s = true) :
    Memory.wf (portDelete p s) = true := by
  rw [Memory.wf_iff] at h ⊢
  exact ⟨h.1, h.2.1, h.2.2.1, Table.wf_delete h.2.2.2⟩

theorem Memory.wf_arpLearnAndAnswer {op : BitVec 16} {p : ArpOperands} {s : State} (h : Memory.wf s = true) :
    Memory.wf (arpLearnAndAnswer op p s) = true := by
  rcases arpLearnAndAnswer_cases op p s with ⟨b, _, e⟩ | ⟨_, _, _, e⟩ | ⟨_, _, e⟩ <;> rw [e]
  · exact Memory.wf_unpark (s := ethTx b p.senderMac s.cfg.ethertypeIp (arpLearn p.senderIp p.senderMac s))
      (by rw [ethTx_eq]; exact Memory.wf_arpLearn h)
  · unfold arpReply; rw [ethTx_eq]; exact Memory.wf_arpLearn h
  · exact Memory.wf_arpLearn h

end Sys2Proof.Machine
end

