-- ==== Sys2Proof/Laws/Operations.lean ====
section
/-! SUPPORT. Once for each shared operation and for the step: everything it can answer, in the words of
Safety.lean that claims use. -/

namespace Sys2Proof.Machine

/-! ## Lookups after an update of a store -/

/-- What is parked, now and later, after parking a packet for an Unresolved IP (43_arp.md R196, R197(f);
40_primitives.md R141). -/
theorem pendingLookup_park {ip : Ip} {s : State} (b : Bytes) (h : pendingLookup ip s = none) (a : Ip) (time : Nat)
    (ht : s.now ≤ time) :
    pendingLookup a { park ip b s with now := time } =
      if a = ip ∧ Table.count s.cfg.arpPendingTimeout s.now s.arpPending < s.cfg.arpPendingCap
      then (if liveAt s.cfg.arpPendingTimeout s.now time then some b else none)
      else pendingLookup a { s with now := time } := by
  show Table.get s.cfg.arpPendingTimeout time (ipKey a) (Table.set _ _ _ _ _ _).1 = _
  have hn : Table.get s.cfg.arpPendingTimeout s.now (ipKey ip) s.arpPending = none := h
  have hk : ipKey a = ipKey ip ↔ a = ip := ⟨ipKey_inj, congrArg _⟩
  rw [Table.get_set_later b ht]
  simp only [hn, hk, Option.isSome_none, Bool.false_eq_true, false_or]
  rfl

/-- What is known, now and later, after learning an address (43_arp.md R200, R202; 40_primitives.md R141). -/
theorem arpLookup_arpLearn (ip : Ip) (m : Mac) (s : State) (a : Ip) (time : Nat) (ht : s.now ≤ time) :
    arpLookup a { arpLearn ip m s with now := time } =
      if a = ip ∧ ((arpLookup ip s).isSome ∨ Table.count s.cfg.arpTimeout s.now s.arpTable < s.cfg.arpTableCap)
      then (if liveAt s.cfg.arpTimeout s.now time then some m else none)
      else arpLookup a { s with now := time } := by
  show Table.get s.cfg.arpTimeout time (ipKey a) (Table.set _ _ _ _ _ _).1 = _
  have hk : ipKey a = ipKey ip ↔ a = ip := ⟨ipKey_inj, congrArg _⟩
  rw [Table.get_set_later m ht]
  simp only [hk]
  rfl

/-- What is parked, at any time, after a flush (43_arp.md R200). -/
theorem pendingLookup_unpark (ip a : Ip) (s : State) (time : Nat) :
    pendingLookup a { unpark ip s with now := time } =
      if a = ip then none else pendingLookup a { s with now := time } := by
  show Table.get _ _ (ipKey a) (Table.delete _ _) = _
  split
  · next h => rw [h]; exact Table.get_delete_self _
  · next h => exact Table.get_delete_other (ipKey_ne h) _

/-- Time alone only makes a parked packet absent (40_primitives.md R141). -/
theorem pendingLookup_none_later {ip : Ip} {s : State} {time : Nat} (ht : s.now ≤ time)
    (h : pendingLookup ip s = none) : pendingLookup ip { s with now := time } = none :=
  Table.get_none_of_later (t := s.arpPending) ht h

/-- Time alone only makes an address absent (40_primitives.md R141). -/
theorem arpLookup_none_later {ip : Ip} {s : State} {time : Nat} (ht : s.now ≤ time)
    (h : arpLookup ip s = none) : arpLookup ip { s with now := time } = none :=
  Table.get_none_of_later (t := s.arpTable) ht h

/-! ## The packets the block builds -/

/-- `IP_FRAG_TX` builds the datagram of 44_ip.md R231, R232. -/
theorem ipDatagram_eq_datagramBytes (cfg : Cfg) (p : Bytes) (dip : Ip) (proto : Byte) (id off : BitVec 16)
    (mf : Bool) :
    ipDatagram cfg p dip proto id off mf = datagramBytes cfg p dip proto id off mf := by
  rw [ipDatagram_eq]; rfl

/-- `UDP_SEND` builds the datagram of 45_udp.md R265. -/
theorem udpDatagram_eq_udpBytes (data : Bytes) (sport dport : BitVec 16) : udpDatagram data sport dport
    = udpBytes sport dport (BitVec.ofNat 16 (8 + data.length)) 0 data := by
  rw [udpDatagram_eq]; rfl

/-! ## The receive operations on the bytes of a unit's fields -/

/-- The header test of `ARP_RX` (43_arp.md R200). -/
theorem arpHeaderOk_iff (cfg : Cfg) (p : ArpOperands) : arpHeaderOk cfg p = true ↔ arpHeaderValid cfg p := by
  simp only [arpHeaderOk, arpHeaderValid, Bool.and_eq_true, decide_eq_true_eq]
  exact ⟨fun ⟨⟨⟨a, b⟩, c⟩, d⟩ => ⟨a, b, c, d⟩, fun ⟨a, b, c, d⟩ => ⟨⟨⟨a, b⟩, c⟩, d⟩⟩

/-- `ARP_RX` reads the fields of 30_encoding.md R93. -/
theorem arpRx_arpBytes (op : BitVec 16) (p : ArpOperands) (s : State) : arpRx (arpBytes op p) s
    = arpReceive op p s := by
  unfold arpRx
  rw [if_neg (by simp [arpPktLen]), arpBytes_opcode, arpOperandsOf_arpBytes]

/-- Zeroing the header checksum (40_primitives.md R132). -/
theorem putBe16_ipv4Bytes_checksum (proto : Byte) (d : Ipv4Operands) :
    putBe16 (ipv4Bytes proto d) 10 0 = ipv4Bytes proto { d with checksum := 0 } := by
  obtain ⟨v, hl, tos, tl, id, ff, ttl, ck, si, di, rest⟩ := d
  obtain ⟨s0, s1, s2, s3⟩ := si
  obtain ⟨d0, d1, d2, d3⟩ := di
  rfl

/-- The recomputed header checksum (44_ip.md R221). -/
theorem ipHeaderChecksum_ipv4Bytes (proto : Byte) (d : Ipv4Operands) : ipHeaderChecksum (ipv4Bytes proto d)
    (4 * d.hdrLen.toNat) = headerSum proto d := by
  unfold ipHeaderChecksum headerSum; rw [putBe16_ipv4Bytes_checksum]

/-- All of `IP_RX` but its length test, over the fields of 30_encoding.md R95 (44_ip.md R221). -/
theorem ipRx_ipv4Bytes (proto : Byte) (d : Ipv4Operands) (s : State) : ipRx (ipv4Bytes proto d) s =
  if d.version ≠ 4 then .next (drop .ipBadVersion s)
  else if 4 * d.hdrLen.toNat > 20 + d.rest.length then .next (drop .ipHdrlenLong s)
  else if d.hdrLen.toNat < 5 then .next (drop .ipHdrlenShort s)
  else if headerSum proto d ≠ d.checksum then .next (drop .ipBadChecksum s)
  else if d.dstIp ≠ s.cfg.ifIp then .next (drop .ipNotMine s)
  else ipDeliver dispatch (ipv4Bytes proto d) s := by
  unfold ipRx ipRxWith
  simp only [ipv4OperandsOf_ipv4Bytes, ipv4Bytes_length, ipHeaderChecksum_ipv4Bytes]
  rw [if_neg (by simp [ipHdrLen])]
  rfl

/-- `UDP_CSUM` is the sum over pseudo-header, datagram and pad byte (45_udp.md R251). -/
theorem udpChecksum_eq_pseudoSum (cfg : Cfg) (src dst : Ip)
    (b : Bytes) : udpChecksum cfg.ipprotoUdp b src dst = pseudoSum cfg src dst b := by
  unfold udpChecksum pseudoSum
  simp only []
  have hl : (src.bytes ++ dst.bytes ++ [0, cfg.ipprotoUdp] ++ bytes16 (BitVec.ofNat 16 b.length) ++ b).length
      = 12 + b.length := by
    simp; omega
  rw [hl]
  rcases Nat.mod_two_eq_zero_or_one b.length with h | h
  · rw [if_neg (by omega), h]; simp [zeros]
  · rw [if_pos (by omega), h]; rfl

@[simp] theorem udpBytes_length (sport dport len ck : BitVec 16) (data : Bytes) :
    (udpBytes sport dport len ck data).length = 8 + data.length := by
  simp [udpBytes]; omega

/-- All of `UDP_RX` but its length test, over the fields of 30_encoding.md R100 (45_udp.md R260). -/
theorem udpRx_udpBytes (sport dport len ck : BitVec 16) (data : Bytes) (src : Ip) (s : State) :
    udpRx (udpBytes sport dport len ck data) src s =
      if 8 + data.length < len.toNat then .next (drop .udpTruncated s)
      else if pseudoSum s.cfg src s.cfg.ifIp (udpBytes sport dport len 0 data) ≠ ck then .next
          (drop .udpBadChecksum s)
      else match portLookup dport s with
        | none => notify s.cfg.icmpPortUnreach
            (placeholder s.draws ++ udpBytes sport dport len ck data) src { s with draws := s.draws + 1 }
        | some h => callOut handlerReaction (.udpDeliver h data data.length src sport) s := by
  unfold udpRx
  rw [if_neg (by rw [udpBytes_length]; simp [udpHdrLen])]
  have e0 : be16At (udpBytes sport dport len ck data) 0 = sport := word16_bytes16 _
  have e2 : be16At (udpBytes sport dport len ck data) 2 = dport := word16_bytes16 _
  have e4 : be16At (udpBytes sport dport len ck data) 4 = len := word16_bytes16 _
  have e6 : be16At (udpBytes sport dport len ck data) 6 = ck := word16_bytes16 _
  have ez : putBe16 (udpBytes sport dport len ck data) 6 0 = udpBytes sport dport len 0 data := rfl
  rw [e4, e6, ez, udpBytes_length, udpChecksum_eq_pseudoSum]
  unfold udpDeliver
  rw [e2, e0]
  rfl

/-! ## The step -/

/-- Everything `accept` can answer next: nothing done, or a legal command accepted (10_state.md R24, R26,
R38; 30_encoding.md R111). -/
theorem accept_eq_next {s t : State} (h : accept s = .next t) :
    (s.hostPort = [] ∧ t = s) ∨
    ∃ r rs i, s.hostPort = r :: rs ∧ decodeOperation r.bytes = .ok i ∧ i.isCommand = true ∧ s.now ≤ r.now ∧
      orderRefusal i s.inited = none ∧ operandRefusal i = none ∧
      t = { s with hostPort := rs, now := r.now, seq := [⟨.operation, r.bytes⟩] } := by
  unfold accept at h
  split at h
  · next hp => injection h with h; exact .inl ⟨hp, h.symm⟩
  · next r rs hp =>
    split at h
    · cases h
    · next i hd =>
      split at h
      · cases h
      · next hc =>
        split at h
        · cases h
        · next hn =>
          split at h
          · cases h
          · cases h
          · next ho hop =>
            injection h with h
            exact .inr ⟨r, rs, i, hp, hd, by simpa using hc, by omega, ho, hop, h.symm⟩

/-- Everything a step can answer next: what `accept` answers, or what the operation on top of the
sequencer leaves, its scratch buffers open again (10_state.md R21, R22, R24, R25). -/
theorem step_eq_next {s t : State} (h : step s = .next t) :
    s.cfg.legal = true ∧
    ((s.seq = [] ∧ accept s = .next t) ∨
     ∃ f rest i u, s.seq = f :: rest ∧ decode s.cfg f = .ok i ∧ exec i { s with seq := rest } = .next u ∧
       t = settle u) := by
  unfold step at h
  split at h
  · cases h
  · next hl =>
    refine ⟨by simpa using hl, ?_⟩
    split at h
    · next hs => exact .inl ⟨hs, h⟩
    · next f rest hs =>
      unfold runTop at h
      split at h
      · cases h
      · next i hd =>
        obtain ⟨u, hu, ht⟩ := andThen_eq_next h
        injection ht with ht
        exact .inr ⟨f, rest, i, u, hs, hd, hu, ht.symm⟩

end Sys2Proof.Machine
end

