-- ==== Sys2Proof/Laws/PerInstr.lean ====
section
/-! SUPPORT. The statements made of every instruction as syntax, one lemma for each constructor. -/

namespace Sys2Proof.Laws.OperandRefusal

open Sys2Proof.Machine

/-- A command's operands are refused exactly where they are not well-formed (30_encoding.md R111). -/
def Statement (i : Instr) : Prop := i.isCommand = true → (operandRefusal i = none ↔ i.wellFormed = true)

theorem init : Statement .init := fun _ => ⟨fun _ => rfl, fun _ => rfl⟩
theorem poll : Statement .poll := fun _ => ⟨fun _ => rfl, fun _ => rfl⟩
theorem register (p : BitVec 16) (h : BitVec 8) : Statement (.register p h) := by
  simp [Statement, operandRefusal, Instr.wellFormed]
theorem udpOpen (p : BitVec 16) (h : BitVec 8) : Statement (.udpOpen p h) := by
  simp [Statement, operandRefusal, Instr.wellFormed]
theorem udpClose (p : BitVec 16) : Statement (.udpClose p) := fun _ => ⟨fun _ => rfl, fun _ => rfl⟩
theorem udpSend (data : Bytes) (sport : BitVec 16) (dip : Ip) (dport : BitVec 16) : Statement
    (.udpSend data sport dip dport) := by
  simp [Statement, operandRefusal, Instr.wellFormed]
theorem ipSend (buf : Bytes) (dip : Ip) (proto : Byte) : Statement (.ipSend buf dip proto) := by
  simp [Statement, operandRefusal, Instr.wellFormed]
theorem ethTx (buf : Bytes) (m : Mac) (p : BitVec 16) : Statement (.ethTx buf m p) := nofun
theorem ethRx (f : Bytes) : Statement (.ethRx f) := nofun
theorem dispatch (buf : Bytes) (p : BitVec 16) (a : SrcAddr) : Statement (.dispatch buf p a) := nofun
theorem arpOut (buf : Bytes) (ip : Ip) : Statement (.arpOut buf ip) := nofun
theorem arpReq (ip : Ip) : Statement (.arpReq ip) := nofun
theorem arpReply (ip : Ip) (m : Mac) : Statement (.arpReply ip m) := nofun
theorem arpRx (buf : Bytes) (m : Mac) : Statement (.arpRx buf m) := nofun
theorem ipRx (buf : Bytes) (m : Mac) : Statement (.ipRx buf m) := nofun
theorem ipFragTx (buf : Bytes) (dip : Ip) (proto : Byte) (id off : BitVec 16) (mf : Bool) : Statement
    (.ipFragTx buf dip proto id off mf) := nofun
theorem udpCsum (buf : Bytes) (a b : Ip) : Statement (.udpCsum buf a b) := nofun
theorem udpRx (buf : Bytes) (a : Ip) : Statement (.udpRx buf a) := nofun
theorem ethTypeArp (d s : Mac) (b : Bytes) : Statement (.ethTypeArp d s b) := nofun
theorem ethTypeIp (d s : Mac) (b : Bytes) : Statement (.ethTypeIp d s b) := nofun
theorem arpOpRequest (p : ArpOperands) : Statement (.arpOpRequest p) := nofun
theorem arpOpReply (p : ArpOperands) : Statement (.arpOpReply p) := nofun
theorem ipProtoUdp (d : Ipv4Operands) : Statement (.ipProtoUdp d) := nofun
theorem ipProtoIcmp (d : Ipv4Operands) : Statement (.ipProtoIcmp d) := nofun

end Sys2Proof.Laws.OperandRefusal
end

