-- ==== Sys2Proof/Tests/Slice0.lean ====
section
/-! SUPPORT. The writer's own tests: the refusals of WellFormed, one written-out word for each
constructor, the spec's examples of each operation, and a witness for the hypotheses of each statement. -/

namespace Sys2Proof.Tests

open Sys2Proof.Machine

/-! ## WellFormed refuses, one ill-formed term for each check -/

theorem test_register_reserved_low : (Instr.register 1 0x00).wellFormed = false := by decide
theorem test_register_reserved_high : (Instr.register 1 0x7F).wellFormed = false := by decide
theorem test_udpOpen_internal_handler : (Instr.udpOpen 2000 0x03).wellFormed = false := by decide
theorem test_udpSend_too_long (sp dp : BitVec 16) (a : Ip) :
    (Instr.udpSend (zeros 65508) sp a dp).wellFormed = false := by
  simp [Instr.wellFormed, udpMaxData, ipMaxPayload, udpHdrLen]
theorem test_ipSend_too_long (a : Ip) (p : Byte) : (Instr.ipSend (zeros 65516) a p).wellFormed = false := by
  simp [Instr.wellFormed, ipMaxPayload]
theorem test_ethRx_empty : (Instr.ethRx []).wellFormed = false := by decide
theorem test_ipFragTx_offset : (Instr.ipFragTx [] Ip.zero 17 0 4 false).wellFormed = false := by decide
theorem test_udpCsum_short : (Instr.udpCsum (zeros 7) Ip.zero Ip.zero).wellFormed = false := by decide
theorem test_udpCsum_long : (Instr.udpCsum (zeros 65536) Ip.zero Ip.zero).wellFormed = false := by
  simp [Instr.wellFormed]

/-! ## Decoding: one word for each constructor, its bytes from 30_encoding.md R110, R91, R93, R95 -/

theorem test_decode_init : decodeOperation [0x01] = .ok .init := by decide
theorem test_decode_poll : decodeOperation [0x02] = .ok .poll := by decide
theorem test_decode_register : decodeOperation [0x03, 0x08, 0x06, 0x01] = .ok (.register 0x0806 0x01) := by decide
theorem test_decode_udpOpen : decodeOperation [0x10, 0x07, 0xd0, 0x81] = .ok (.udpOpen 2000 0x81) := by decide
theorem test_decode_udpClose : decodeOperation [0x11, 0x07, 0xd0] = .ok (.udpClose 2000) := by decide
theorem test_decode_udpSend : decodeOperation [0x12, 0x03, 0xe8, 192, 168, 1, 20, 0x07, 0xd0, 0x61, 0x62]
    = .ok (.udpSend [0x61, 0x62] 1000 ⟨192, 168, 1, 20⟩ 2000) := by decide
theorem test_decode_ipSend : decodeOperation [0x20, 192, 168, 1, 20, 17, 0x61]
    = .ok (.ipSend [0x61] ⟨192, 168, 1, 20⟩ 17) := by decide
theorem test_decode_ethTx : decodeOperation [0x40, 1, 2, 3, 4, 5, 6, 0x08, 0x00, 0x61]
    = .ok (.ethTx [0x61] ⟨1, 2, 3, 4, 5, 6⟩ 0x0800) := by decide
theorem test_decode_ethRx : decodeOperation [0x41, 0xff, 0xee] = .ok (.ethRx [0xff, 0xee]) := by decide
theorem test_decode_dispatch_ip : decodeOperation [0x48, 0, 17, 0, 192, 168, 1, 20, 0x61]
    = .ok (.dispatch [0x61] 17 (.ip ⟨192, 168, 1, 20⟩)) := by decide
theorem test_decode_dispatch_mac : decodeOperation [0x48, 0x08, 0x06, 1, 1, 2, 3, 4, 5, 6, 0x61]
    = .ok (.dispatch [0x61] 0x0806 (.mac ⟨1, 2, 3, 4, 5, 6⟩)) := by decide
theorem test_decode_arpOut : decodeOperation [0x50, 192, 168, 1, 20, 0x45]
    = .ok (.arpOut [0x45] ⟨192, 168, 1, 20⟩) := by decide
theorem test_decode_arpReq : decodeOperation [0x51, 192, 168, 1, 20] = .ok (.arpReq ⟨192, 168, 1, 20⟩) := by decide
theorem test_decode_arpReply : decodeOperation [0x52, 192, 168, 1, 20, 1, 2, 3, 4, 5, 6]
    = .ok (.arpReply ⟨192, 168, 1, 20⟩ ⟨1, 2, 3, 4, 5, 6⟩) := by decide
theorem test_decode_arpRx : decodeOperation [0x53, 1, 2, 3, 4, 5, 6, 0x00]
    = .ok (.arpRx [0x00] ⟨1, 2, 3, 4, 5, 6⟩) := by decide
theorem test_decode_ipRx : decodeOperation [0x60, 1, 2, 3, 4, 5, 6, 0x45]
    = .ok (.ipRx [0x45] ⟨1, 2, 3, 4, 5, 6⟩) := by decide
theorem test_decode_ipFragTx : decodeOperation [0x61, 192, 168, 1, 20, 17, 0x12, 0x34, 0x05, 0xc8, 1, 0x61]
    = .ok (.ipFragTx [0x61] ⟨192, 168, 1, 20⟩ 17 0x1234 1480 true) := by decide
theorem test_decode_udpCsum : decodeOperation [0x70, 192, 168, 1, 20, 192, 168, 1, 10, 3]
    = .ok (.udpCsum [3] ⟨192, 168, 1, 20⟩ ⟨192, 168, 1, 10⟩) := by decide
theorem test_decode_udpRx : decodeOperation [0x71, 192, 168, 1, 20, 3] = .ok (.udpRx [3] ⟨192, 168, 1, 20⟩) := by decide
theorem test_decode_ethTypeArp :
    decode Cfg.cfg0 ⟨.ethernetFrame, [1, 2, 3, 4, 5, 6, 7, 8, 9, 10, 11, 12, 0x08, 0x06, 0x61]⟩
      = .ok (.ethTypeArp ⟨1, 2, 3, 4, 5, 6⟩ ⟨7, 8, 9, 10, 11, 12⟩ [0x61]) := by decide
theorem test_decode_ethTypeIp :
    decode Cfg.cfg0 ⟨.ethernetFrame, [1, 2, 3, 4, 5, 6, 7, 8, 9, 10, 11, 12, 0x08, 0x00, 0x61]⟩
      = .ok (.ethTypeIp ⟨1, 2, 3, 4, 5, 6⟩ ⟨7, 8, 9, 10, 11, 12⟩ [0x61]) := by decide

/-- The fields of the two ARP packets below. -/
def somePacket : ArpOperands :=
  ⟨1, 0x0800, 6, 4, ⟨2, 0, 0, 0, 0, 2⟩, ⟨192, 168, 1, 20⟩, Mac.zero, ⟨192, 168, 1, 10⟩, [0xaa]⟩

theorem test_decode_arpOpRequest :
    decode Cfg.cfg0 ⟨.arpPacket, [0, 1, 8, 0, 6, 4, 0, 1, 2, 0, 0, 0, 0, 2, 192, 168, 1, 20, 0, 0, 0, 0, 0, 0,
      192, 168, 1, 10, 0xaa]⟩ = .ok (.arpOpRequest somePacket) := by decide
theorem test_decode_arpOpReply :
    decode Cfg.cfg0 ⟨.arpPacket, [0, 1, 8, 0, 6, 4, 0, 2, 2, 0, 0, 0, 0, 2, 192, 168, 1, 20, 0, 0, 0, 0, 0, 0,
      192, 168, 1, 10, 0xaa]⟩ = .ok (.arpOpReply somePacket) := by decide

/-- The fields of the two IPv4 headers below. -/
def someHeader : Ipv4Operands :=
  ⟨4, 6, 0x11, 0x0102, 0x0304, 0x2005, 0x40, 0x0708, ⟨192, 168, 1, 20⟩, ⟨192, 168, 1, 10⟩, [0xbb]⟩

theorem test_decode_ipProtoUdp :
    decode Cfg.cfg0 ⟨.ipv4Datagram, [0x46, 0x11, 1, 2, 3, 4, 0x20, 5, 0x40, 17, 7, 8, 192, 168, 1, 20,
      192, 168, 1, 10, 0xbb]⟩ = .ok (.ipProtoUdp someHeader) := by decide
theorem test_decode_ipProtoIcmp :
    decode Cfg.cfg0 ⟨.ipv4Datagram, [0x46, 0x11, 1, 2, 3, 4, 0x20, 5, 0x40, 1, 7, 8, 192, 168, 1, 20,
      192, 168, 1, 10, 0xbb]⟩ = .ok (.ipProtoIcmp someHeader) := by decide

theorem test_decode_reserved : decodeOperation [0x04, 0, 0] = .error (.reservedCode 0x04) := by decide
theorem test_decode_truncated : decodeOperation [0x11, 7] = .error (.malformedOperands 0x11) := by decide
theorem test_table_words :
    [(16, 0x0806), (16, 0x0800), (16, 1), (16, 2), (8, 0x61), (8, 0x11)].map
      (fun w => (decodeTableWord w.1 w.2).isSome) = [true, true, true, true, true, true] := by decide

/-! ## A small machine: CFG0 after `INIT`, one address learned, one port open -/

/-- The peer of the spec's vectors. -/
def peerIp : Ip := ⟨192, 168, 1, 20⟩
/-- Its MAC. -/
def peerMac : Mac := ⟨2, 0, 0, 0, 0, 2⟩

/-- CFG0 after `INIT`, with port 2000 open to handler 1 and protocol 1 registered to handler 0. -/
def booted : State :=
  { State.reset with
    inited := true
    registry := [⟨1, .ext 0, 0⟩, ⟨17, .udp, 0⟩, ⟨0x0800, .ip, 0⟩, ⟨0x0806, .arp, 0⟩]
    portTable := [⟨2000, 1, 0⟩] }

/-- The same with the peer's address learned. -/
def resolved : State := { booted with arpTable := [⟨ipKey peerIp, peerMac, 0⟩] }

/-- The same with a packet parked for the peer. -/
def pending : State := { booted with arpPending := [⟨ipKey peerIp, [1], 0⟩] }

/-- The same with a pending table of one place, taken by another IP. -/
def full : State :=
  { booted with
    cfg := { Cfg.cfg0 with arpPendingCap := 1 }
    arpPending := [⟨ipKey ⟨10, 0, 0, 1⟩, [1], 0⟩] }

/-- The events of an answer. -/
def outOf (a : Answer) : List Event :=
  match a with
  | .next s => s.out
  | _ => []

/-- Own MAC, then a frame's type. -/
def fromMe (type : Bytes) : Bytes := [2, 0, 0, 0, 0, 1] ++ type

/-- The ARP packets of 43_arp.md R191 and R193, from the spec's bytes. -/
def requestBytes : Bytes :=
  [0xff, 0xff, 0xff, 0xff, 0xff, 0xff] ++ fromMe [8, 6] ++ [0, 1, 8, 0, 6, 4, 0, 1, 2, 0, 0, 0, 0, 1, 192, 168, 1, 10,
    0, 0, 0, 0, 0, 0, 192, 168, 1, 20] ++ zeros 18
/-- The frame of R193's example. -/
def replyBytes : Bytes :=
  [2, 0, 0, 0, 0, 2] ++ fromMe [8, 6] ++ [0, 1, 8, 0, 6, 4, 0, 2, 2, 0, 0, 0, 0, 1, 192, 168, 1, 10,
    2, 0, 0, 0, 0, 2, 192, 168, 1, 20] ++ zeros 18
/-- The request of R200's example, with its padding. -/
def peerRequest : Bytes :=
  [0, 1, 8, 0, 6, 4, 0, 1, 2, 0, 0, 0, 0, 2, 192, 168, 1, 20, 0, 0, 0, 0, 0, 0, 192, 168, 1, 10] ++ zeros 18
/-- The UDP datagram of 45_udp.md R260's example. -/
def abcd : Bytes := [3, 0xe8, 7, 0xd0, 0, 0x0c, 0xab, 0xe8, 0x61, 0x62, 0x63, 0x64]
/-- The IPv4 header of 44_ip.md R221's example. -/
def header32 : Bytes := [0x45, 0, 0, 0x20, 0x12, 0x34, 0, 0, 0x40, 0x11, 0xe5, 0x2a, 192, 168, 1, 20, 192, 168, 1, 10]
/-- The frame vector U1 of 95_test_vectors.md receives. -/
def frameAbcd : Bytes := [2, 0, 0, 0, 0, 1, 2, 0, 0, 0, 0, 2, 8, 0] ++ header32 ++ abcd ++ zeros 14
/-- The event it causes. -/
def delivered : Event := .udpDeliver 1 [0x61, 0x62, 0x63, 0x64] 4 peerIp 1000

/-! ## The spec's examples, one step each -/

/-- R130's example, and R11's example IP 192.168.1.10 as four bytes. -/
theorem test_byte_order :
    be16At [8, 6] 0 = 2054 ∧ putBe16 (zeros 4) 1 0x0806 = [0, 8, 6, 0] ∧
    be32At [0xc0, 0xa8, 0x01, 0x0a] 0 = 0xC0A8010A ∧
    putBe32 (zeros 6) 1 0xC0A8010A = [0, 0xc0, 0xa8, 0x01, 0x0a, 0] := by decide
/-- R131's examples. -/
theorem test_checksum16 :
    [checksum16 [0x00, 0x01, 0xf2, 0x03, 0xf4, 0xf5, 0xf6, 0xf7], checksum16 [0xff, 0xff, 0xff, 0xff, 0, 2],
      checksum16 [1], checksum16 [], checksum16 [0xff, 0xff]] = [0x220D, 0xFFFD, 0xFEFF, 0xFFFF, 0] := by decide +kernel
/-- R322's example, but for the registry. -/
theorem test_init : outOf (exec .init State.reset) = [.driverSend
    ([0xff, 0xff, 0xff, 0xff, 0xff, 0xff] ++ fromMe [8, 6] ++ [0, 1, 8, 0, 6, 4, 0, 1, 2, 0, 0, 0, 0, 1, 192, 168, 1, 10,
      0, 0, 0, 0, 0, 0, 192, 168, 1, 10] ++ zeros 18)] := by decide +kernel
/-- R164: the frame of vector U1, from the driver to the handler. -/
theorem test_poll : outOf (exec .poll { booted with driverRx := [frameAbcd] }) = [delivered] := by decide +kernel
/-- R180: a second registration replaces the first. -/
theorem test_register : ∃ t, exec (.register 1 0x85) booted = .next t ∧ registryLookup 1 t = some (.ext 5) :=
  ⟨_, rfl, by decide +kernel⟩
/-- R143's example: `fail` for a new port into a full table, `ok` for an old one. -/
theorem test_udpOpen :
    outOf (exec (.udpOpen 11 0x81) { booted with cfg := { Cfg.cfg0 with portTableCap := 1 } }) = [.result false] ∧
    outOf (exec (.udpOpen 2000 0x82) { booted with cfg := { Cfg.cfg0 with portTableCap := 1 } }) = [.result true] := by
  decide +kernel
/-- R271. -/
theorem test_udpClose : ∃ t, exec (.udpClose 2000) booted = .next t ∧ portLookup 2000 t = none :=
  ⟨_, rfl, by decide +kernel⟩
/-- R265's example. -/
theorem test_udpSend : outOf (exec (.udpSend [0x61, 0x62, 0x63, 0x64] 1000 peerIp 2000) resolved) = [.driverSend
    ([2, 0, 0, 0, 0, 2] ++ fromMe [8, 0] ++ [0x45, 0, 0, 0x20, 0, 0, 0, 0, 0x40, 0x11, 0xf7, 0x5e, 192, 168, 1, 10,
      192, 168, 1, 20, 3, 0xe8, 7, 0xd0, 0, 0x0c, 0, 0, 0x61, 0x62, 0x63, 0x64] ++ zeros 14)] := by decide +kernel
/-- R230: 60 bytes with 24 to a fragment make three, the last of 12 bytes, at offsets 0, 24 and 48. -/
theorem test_ipSend : (outOf (exec (.ipSend (zeros 60) peerIp 17)
      { resolved with cfg := { Cfg.cfg0 with ethMtu := 44, ethMinPayload := 0 } })).map (fun e => match e with
    | .driverSend f => (f.length, be16At f 20)
    | _ => (0, 0)) = [(58, 0x2000), (58, 0x2003), (46, 6)] := by decide +kernel
/-- R160's example. -/
theorem test_ethTx : outOf (exec (.ethTx (requestBytes.drop 14 |>.take 28) ⟨0xff, 0xff, 0xff, 0xff, 0xff, 0xff⟩ 0x0806)
    booted) = [.driverSend requestBytes] := by decide +kernel
/-- R162: 13 bytes are too short. -/
theorem test_ethRx : outOf (exec (.ethRx (zeros 13)) booted) = [.drop .ethShort] := by decide +kernel
/-- R182's example. -/
theorem test_dispatch : outOf (exec (.dispatch [1] 0x86DD (.mac peerMac)) booted) = [.drop .noHandler] := by decide +kernel
/-- R196's example: a second packet at the same time emits no frame. -/
theorem test_arpOut : outOf (execAll [.arpOut [1] peerIp, .arpOut [2] peerIp] booted)
    = [.driverSend requestBytes, .drop .arpPendingBusy] := by decide +kernel
/-- R192's example. -/
theorem test_arpReq : outOf (exec (.arpReq peerIp) booted) = [.driverSend requestBytes] := by decide +kernel
/-- R193's example. -/
theorem test_arpReply : outOf (exec (.arpReply peerIp peerMac) booted) = [.driverSend replyBytes] := by decide +kernel
/-- R200's example. -/
theorem test_arpRx : outOf (exec (.arpRx peerRequest peerMac) booted) = [.driverSend replyBytes] := by decide +kernel
/-- R201(c): a parked packet goes out and the request is not answered. -/
theorem test_arpOpRequest : outOf (exec (.arpOpRequest somePacket) pending) = [.driverSend
    ([2, 0, 0, 0, 0, 2] ++ fromMe [8, 0] ++ [1] ++ zeros 45)] := by decide +kernel
/-- R201(d): a reply teaches, whoever it is for. -/
theorem test_arpOpReply : ∃ t, exec (.arpOpReply { somePacket with targetIp := Ip.zero }) booted = .next t ∧
    arpLookup peerIp t = some peerMac := ⟨_, rfl, by decide +kernel⟩
/-- R221's example, delivered by vector U1. -/
theorem test_ipRx : outOf (exec (.ipRx (header32 ++ abcd ++ zeros 14) peerMac) booted) = [delivered] := by decide +kernel
/-- R231's example: the header, behind the 14 bytes of the frame. -/
theorem test_ipFragTx : (outOf (exec (.ipFragTx (zeros 12) peerIp 17 0 0 false) resolved)).map (fun e => match e with
    | .driverSend f => (f.drop 14).take 20
    | _ => []) = [[0x45, 0, 0, 0x20, 0, 0, 0, 0, 0x40, 0x11, 0xf7, 0x5e, 192, 168, 1, 10, 192, 168, 1, 20]] := by
  decide +kernel
/-- R251's examples, 12 bytes and 11 bytes. -/
theorem test_udpCsum :
    [udpChecksum 17 [3, 0xe8, 7, 0xd0, 0, 0x0c, 0, 0, 0x61, 0x62, 0x63, 0x64] peerIp ⟨192, 168, 1, 10⟩,
      udpChecksum 17 [3, 0xe8, 7, 0xd0, 0, 0x0b, 0, 0, 0x61, 0x62, 0x63] peerIp ⟨192, 168, 1, 10⟩]
    = [0xABE8, 0xAC4E] := by decide +kernel
/-- R260's example. -/
theorem test_udpRx : outOf (exec (.udpRx abcd peerIp) booted) = [delivered] := by decide +kernel
/-- R264: a `length` field above the buffer's is the truncated drop. -/
theorem test_udpRx_truncated : outOf (exec (.udpRx (writeAt abcd 5 [13]) peerIp) booted) = [.drop .udpTruncated] := by
  decide +kernel
/-- R103(a). -/
theorem test_ethTypeArp : outOf (exec (.ethTypeArp Mac.zero peerMac peerRequest) booted) = [.driverSend replyBytes] := by
  decide +kernel
/-- R103(a). -/
theorem test_ethTypeIp : outOf (exec (.ethTypeIp Mac.zero peerMac (header32 ++ abcd)) booted) = [delivered] := by
  decide +kernel
/-- R103(c). -/
theorem test_ipProtoUdp : outOf (exec (.ipProtoUdp (ipv4OperandsOf (header32 ++ abcd))) booted) = [delivered] := by
  decide +kernel
/-- R225(d): with nobody registered for it a datagram of protocol 1 is dropped without notification; the
header checksum is that of `header32` with the protocol 1 in place of 17. -/
theorem test_ipProtoIcmp : outOf (exec (.ipProtoIcmp { ipv4OperandsOf header32 with checksum := 0xe53a })
    { booted with registry := [] }) = [.drop .noHandler] := by decide +kernel
/-- R26: a command before `INIT` is refused. -/
theorem test_boot_order : step { State.reset with hostPort := [⟨0, [0x02]⟩] } = .refused .notInitialised := rfl
/-- R300: the reaction's command runs right after the delivery. -/
theorem test_reaction : outOf (exec (.udpRx abcd peerIp) { booted with reactions := [[.udpClose 2000, .udpOpen 9 0x80]] })
    = [delivered, .result true] := by decide +kernel

/-- A datagram to this interface whose first eight payload bytes sum to what makes up for two more words
of header length. -/
def evasive : Bytes :=
  [0x45, 0, 0, 29, 0, 0, 0, 0, 64, 1, 0xf7, 0x71, 192, 168, 1, 20, 192, 168, 1, 10,
    0xfd, 0xff, 0, 0, 0, 0, 0, 0, 0x61]

/-- Log entry 15: bit 1 of byte 0 flipped, from header length 5 to 7, and still delivered by the rules of
44_ip.md R221. -/
theorem test_header_length_flip_can_pass :
    outOf (exec (.ipRx evasive peerMac) booted) = [.handlerCall 0 (evasive.drop 20) 1 (.ip peerIp)] ∧
    outOf (exec (.ipRx (flipBit evasive 6) peerMac) booted) = [.handlerCall 0 [0x61] 1 (.ip peerIp)] := by
  decide +kernel

/-! ## Witnesses: for each statement with hypotheses, values that meet them -/

/-- The datagram of R221's example as fields. -/
def goodDatagram : Ipv4Operands := ipv4OperandsOf (header32 ++ abcd ++ zeros 14)
/-- The same with a declared length one below its header's. -/
def shortDatagram : Ipv4Operands := { goodDatagram with totalLen := 19, checksum := 58679 }
/-- The same with protocol 2 in mind, and a right or a short declared length. -/
def oddDatagram : Ipv4Operands := { goodDatagram with checksum := 58681 }
/-- Protocol 2 and a declared length one below the header's. -/
def oddShortDatagram : Ipv4Operands := { goodDatagram with totalLen := 19, checksum := 58694 }
/-- Protocol 1 and a declared length just that of the header. -/
def icmpDatagram : Ipv4Operands := { goodDatagram with totalLen := 20, checksum := 58694 }
/-- "abcd". -/
def fourBytes : Bytes := [0x61, 0x62, 0x63, 0x64]
/-- The smallest command a party may issue. -/
def smallSend : Instr := .ipSend [] peerIp 1

theorem good_accepted : IpAccepted booted.cfg 17 goodDatagram :=
  ⟨by decide, by decide, by decide, by decide +kernel, by decide⟩
theorem short_accepted : IpAccepted booted.cfg 17 shortDatagram :=
  ⟨by decide, by decide, by decide, by decide +kernel, by decide⟩
theorem odd_accepted : IpAccepted booted.cfg 2 oddDatagram :=
  ⟨by decide, by decide, by decide, by decide +kernel, by decide⟩
theorem oddShort_accepted : IpAccepted booted.cfg 2 oddShortDatagram :=
  ⟨by decide, by decide, by decide, by decide +kernel, by decide⟩
theorem icmp_accepted : IpAccepted booted.cfg 1 icmpDatagram :=
  ⟨by decide, by decide, by decide, by decide +kernel, by decide⟩
theorem packet_valid : arpHeaderValid booted.cfg somePacket := ⟨rfl, rfl, rfl, rfl⟩
theorem packet_invalid : ¬ arpHeaderValid booted.cfg { somePacket with proLen := 5 } := by
  rintro ⟨_, _, _, h⟩; revert h; decide

theorem witness_DecodeOfEncode : Cfg.cfg0.legal = true := by decide
theorem witness_EncodeOfDecode :
    decode Cfg.cfg0 ⟨.operation, [0x51, 192, 168, 1, 20]⟩ = .ok (.arpReq peerIp) ∧
    decode Cfg.cfg0 ⟨.ethernetFrame, zeros 12 ++ [8, 6]⟩ = .ok (.ethTypeArp Mac.zero Mac.zero []) := by decide
theorem witness_StepRunsDecodedInstruction :
    booted.cfg.legal = true ∧ ({ booted with seq := [⟨.operation, [2]⟩] } : State).seq = ⟨.operation, [2]⟩ :: [] ∧
    decode booted.cfg ⟨.operation, [2]⟩ = .ok .poll := by decide
theorem witness_LegalCommandAccepted :
    (State.reset.cfg.legal = true ∧ State.reset.seq = [] ∧ decodeOperation [1] = .ok .init ∧
      Instr.init.isCommand = true ∧ Instr.init.wellFormed = true ∧ (Instr.init = .init ↔ State.reset.inited = false) ∧
      State.reset.now ≤ 0) ∧
    (booted.cfg.legal = true ∧ booted.seq = [] ∧ decodeOperation [2] = .ok .poll ∧ Instr.poll.isCommand = true ∧
      Instr.poll.wellFormed = true ∧ (Instr.poll = .init ↔ booted.inited = false) ∧ booted.now ≤ 0) := by decide
/-- Time going back by one; an empty transaction; an internal code; a reserved handler; a second `INIT`. -/
theorem witness_IllegalCommandRefused :
    booted.cfg.legal = true ∧ booted.seq = [] ∧
    ∀ p ∈ ([(5, ⟨4, [2]⟩), (0, ⟨0, []⟩), (0, ⟨0, [0x51, 1, 2, 3, 4]⟩), (0, ⟨0, [3, 0, 1, 4]⟩), (0, ⟨0, [1]⟩)]
        : List (Nat × HostRequest)),
      ¬ (p.1 ≤ p.2.now ∧ ∃ i, decodeOperation p.2.bytes = .ok i ∧ i.isCommand = true ∧ i.wellFormed = true ∧
        (i = .init ↔ booted.inited = false)) := by
  refine ⟨by decide, rfl, ?_⟩
  intro p hp
  simp only [List.mem_cons, List.not_mem_nil, or_false] at hp
  rcases hp with rfl | rfl | rfl | rfl | rfl
  · rintro ⟨h, _⟩; revert h; decide
  · rintro ⟨_, i, h, _⟩; cases h
  · rintro ⟨_, i, h, hc, _⟩; cases h; cases hc
  · rintro ⟨_, i, h, _, hw, _⟩; cases h; revert hw; decide
  · rintro ⟨_, i, h, _, _, hi⟩; cases h; exact absurd (hi.1 rfl) (by decide)
theorem witness_OnlyCommandCodesAccepted :
    ∃ t, step { State.reset with hostPort := [⟨0, [1]⟩] } = .next t := ⟨_, rfl⟩
theorem witness_IdleBlockWaits :
    (State.reset.cfg.legal = true ∧ State.reset.seq = [] ∧ State.reset.hostPort = []) ∧
    ({ State.reset with cfg := { Cfg.cfg0 with ethMtu := 20 } } : State).cfg.legal = false := by decide
theorem witness_OnlyInitAfterReset : Cfg.cfg0.legal = true ∧ (⟨0, [1]⟩ : HostRequest).bytes = [1] := by decide
theorem witness_ResetSound : Cfg.cfg0.legal = true := by decide

/-- Reset with `INIT` accepted. -/
def entered : State := { State.reset with seq := [⟨.operation, [1]⟩] }

theorem entered_sound : Inv entered where
  legal := by decide
  memory := by decide
  capacity := ⟨Nat.zero_le _, Nat.zero_le _, Nat.zero_le _, Nat.zero_le _⟩
  stamps := ⟨by simp [entered, State.reset, State.resetWith], by simp [entered, State.reset, State.resetWith],
    by simp [entered, State.reset, State.resetWith], by simp [entered, State.reset, State.resetWith]⟩
  exclusive := fun _ => .inl rfl
  boot := ⟨rfl, rfl, rfl, rfl, rfl⟩
  sequencer := .inr ⟨[1], .init, rfl, rfl, rfl, rfl, ⟨fun _ => rfl, fun _ => rfl⟩⟩
  scratch := ⟨Nat.zero_le _, Nat.zero_le _⟩

theorem witness_StepKeepsSound : Inv entered ∧ ∃ t, step entered = .next t := ⟨entered_sound, _, rfl⟩
theorem witness_StepNeverGoesBack :
    (∃ t, step { booted with hostPort := [⟨7, [2]⟩] } = .next t) ∧ booted.inited = true := ⟨⟨_, rfl⟩, rfl⟩
theorem witness_RegistrationsStay :
    (∃ t, step { booted with seq := [⟨.operation, [2]⟩] } = .next t) ∧
    (registryLookup 17 { booted with seq := [⟨.operation, [2]⟩] }).isSome := ⟨⟨_, rfl⟩, by decide⟩
/-- A pending reaction and a driver's answer of the most bytes allowed. -/
theorem witness_AcceptedCommandCompletes :
    Inv { entered with reactions := [[smallSend]], driverRx := [zeros 1514] } ∧ entered.seq ≠ [] ∧
    reactionsAllowed { entered with reactions := [[smallSend]], driverRx := [zeros 1514] } ∧
    ∀ f ∈ [zeros 1514], f.length ≤ entered.cfg.rxBufCap := by
  refine ⟨?_, by decide, ?_, ?_⟩
  · obtain ⟨a, b, c, d, e, f, g, h⟩ := entered_sound
    exact ⟨a, b, c, d, e, f, g, h⟩
  · intro r hr c hc
    simp only [List.mem_singleton] at hr
    subst hr
    simp only [List.mem_singleton] at hc
    subst hc
    decide
  · intro f hf
    simp only [List.mem_singleton] at hf
    rw [hf, zeros_length]
    decide

theorem witness_EthRxStripsAndDispatches : (zeros 13).length < 14 := by decide
theorem witness_PollReceivesOneFrame :
    booted.driverRx = [] ∧ ({ booted with driverRx := [[]] } : State).driverRx = [] :: [] ∧
    (zeros 1514 ≠ [] ∧ (zeros 1514).length ≤ booted.cfg.rxBufCap) ∧ booted.cfg.rxBufCap < (zeros 1515).length := by
  refine ⟨rfl, rfl, ⟨?_, ?_⟩, ?_⟩
  · intro h; simpa using congrArg List.length h
  · rw [zeros_length]; decide
  · rw [zeros_length]; decide
theorem witness_EthernetTypeSelectsHandler :
    registryLookup booted.cfg.ethertypeArp booted = some .arp ∧
    registryLookup booted.cfg.ethertypeIp booted = some .ip := by decide
theorem witness_DispatchFollowsRegistry :
    registryLookup 0x86DD booted = none ∧ registryLookup 0x0806 booted = some .arp ∧
    registryLookup 0x0800 booted = some .ip ∧ registryLookup 17 booted = some .udp ∧
    peerIp.bytes = firstFour (.ip peerIp) ∧ (⟨2, 0, 0, 0⟩ : Ip).bytes = firstFour (.mac peerMac) := by decide
theorem witness_DispatchCallsExternalHandler :
    registryLookup 1 booted = some (.ext 0) ∧ booted.reactions = [] ∧
    ({ booted with reactions := [[smallSend, .udpClose 9]] } : State).reactions = [smallSend, .udpClose 9] :: [] ∧
    ∀ c ∈ [smallSend, .udpClose 9], allowedToHandler c = true := by decide
theorem witness_SharedKeySpaceReachesUdp :
    registryLookup (booted.cfg.ipprotoUdp.setWidth 16) booted = some .udp := by decide
/-- Resolved, Pending, Unresolved with room, and Unresolved with none; the last time a packet parked at 0 is
live, 0, and the first it is not, 1. -/
theorem witness_ArpOutByState :
    (booted.now ≤ 0 ∧ liveAt booted.cfg.arpPendingTimeout booted.now 0 ∧
      ¬ liveAt booted.cfg.arpPendingTimeout booted.now 1) ∧
    arpLookup peerIp resolved = some peerMac ∧
    (arpLookup peerIp pending = none ∧ (pendingLookup peerIp pending).isSome) ∧
    (arpLookup peerIp booted = none ∧ pendingLookup peerIp booted = none) ∧
    (arpLookup peerIp full = none ∧ pendingLookup peerIp full = none) := by decide
theorem witness_ArpRxDropsMalformed :
    (zeros 27).length < 28 ∧ (¬ arpHeaderValid booted.cfg { somePacket with proLen := 5 }) ∧
    (arpHeaderValid booted.cfg somePacket ∧ (3 : BitVec 16) ≠ 1 ∧ (3 : BitVec 16) ≠ 2 ∧ (0 : BitVec 16) ≠ 1 ∧
      (0 : BitVec 16) ≠ 2) := ⟨by decide, packet_invalid, packet_valid, by decide⟩
theorem witness_ArpRxLearnsFlushesAnswers :
    arpHeaderValid booted.cfg somePacket ∧ ((1 : BitVec 16) = 1 ∨ (1 : BitVec 16) = 2) ∧
    ((2 : BitVec 16) = 1 ∨ (2 : BitVec 16) = 2) := ⟨packet_valid, by decide⟩
theorem witness_ArpOpcodeSelectsHandling :
    arpHeaderValid booted.cfg somePacket ∧ ¬ arpHeaderValid booted.cfg { somePacket with proLen := 5 } :=
  ⟨packet_valid, packet_invalid⟩
theorem witness_ArpFrameHandled :
    registryLookup booted.cfg.ethertypeArp booted = some .arp ∧ arpHeaderValid booted.cfg somePacket ∧
    (ethBytes Mac.zero peerMac booted.cfg.ethertypeArp (arpBytes 1 somePacket)).length ≤ booted.cfg.rxBufCap :=
  ⟨by decide, packet_valid, by decide⟩
/-- The same with a pending timeout of 5, so that times within and at its end can be told apart. -/
def patient : State := { booted with cfg := { Cfg.cfg0 with arpPendingTimeout := 5 } }
/-- The second packet at the last time within the timeout, 4; then the last time the first is still parked,
4, and the first it is not, 5. -/
theorem witness_SecondPacketSuppressed :
    arpLookup peerIp patient = none ∧ pendingLookup peerIp patient = none ∧
    Table.count patient.cfg.arpPendingTimeout patient.now patient.arpPending < patient.cfg.arpPendingCap ∧
    (patient.now ≤ 4 ∧ 4 < patient.now + patient.cfg.arpPendingTimeout) ∧
    (4 ≤ 4 ∧ 4 < patient.now + patient.cfg.arpPendingTimeout ∧ arpHeaderValid patient.cfg somePacket ∧
      somePacket.senderIp = peerIp) ∧
    (4 ≤ 5 ∧ patient.now + patient.cfg.arpPendingTimeout ≤ 5) :=
  ⟨by decide, by decide, by decide, by decide, ⟨by decide, by decide, packet_valid, rfl⟩, by decide⟩
/-- A table of one place, taken by the sender itself. -/
def known : State := { resolved with cfg := { Cfg.cfg0 with arpTableCap := 1 } }
/-- A new sender with room, and a known one in a full table; sending at the last time the address is used,
59, and at the first it is not, 60; and looking at both. -/
theorem witness_LearnedAddressExpires :
    (1 ≤ booted.cfg.arpTimeout ∧ arpHeaderValid booted.cfg somePacket ∧
      Table.count booted.cfg.arpTimeout booted.now booted.arpTable < booted.cfg.arpTableCap) ∧
    (1 ≤ known.cfg.arpTimeout ∧ arpHeaderValid known.cfg somePacket ∧
      (arpLookup somePacket.senderIp known).isSome ∧
      ¬ Table.count known.cfg.arpTimeout known.now known.arpTable < known.cfg.arpTableCap) ∧
    (booted.now ≤ 59 ∧ 59 < booted.now + booted.cfg.arpTimeout) ∧ booted.now + booted.cfg.arpTimeout ≤ 60 :=
  ⟨⟨by decide, packet_valid, by decide⟩, ⟨by decide, packet_valid, by decide, by decide⟩, by decide, by decide⟩
/-- One for each branch: 19 bytes; version 3 and 5; a header of 48 bytes in a datagram of 46, one of 16 bytes; a
checksum one too large; another destination under its right checksum. -/
theorem witness_IpRxDropsInOrder :
    (zeros 19).length < 20 ∧
    (∀ v ∈ [3, 5], ({ goodDatagram with version := v } : Ipv4Operands).version ≠ 4) ∧
    (∀ d ∈ [{ goodDatagram with hdrLen := 12 }], d.version = 4 ∧ 4 * d.hdrLen.toNat > 20 + d.rest.length) ∧
    (∀ d ∈ [{ goodDatagram with hdrLen := 4 }],
      d.version = 4 ∧ ¬ 4 * d.hdrLen.toNat > 20 + d.rest.length ∧ d.hdrLen.toNat < 5) ∧
    (∀ d ∈ [{ goodDatagram with checksum := 0xe52b }],
      d.version = 4 ∧ ¬ 4 * d.hdrLen.toNat > 20 + d.rest.length ∧ ¬ d.hdrLen.toNat < 5 ∧
      headerSum 17 d ≠ d.checksum) ∧
    (∀ d ∈ [{ goodDatagram with dstIp := ⟨192, 168, 1, 11⟩, checksum := 0xe529 }],
      d.version = 4 ∧ ¬ 4 * d.hdrLen.toNat > 20 + d.rest.length ∧ ¬ d.hdrLen.toNat < 5 ∧
      headerSum 17 d = d.checksum ∧ d.dstIp ≠ booted.cfg.ifIp) := by decide +kernel
/-- With a declared length of the datagram's, and one below its header's. -/
theorem witness_IpRxDispatchesPayload :
    (IpAccepted booted.cfg 17 goodDatagram ∧ ¬ goodDatagram.totalLen.toNat < 4 * goodDatagram.hdrLen.toNat) ∧
    (IpAccepted booted.cfg 17 shortDatagram ∧ shortDatagram.totalLen.toNat < 4 * shortDatagram.hdrLen.toNat) ∧
    17 ∈ booted.cfg.ipRecognised := ⟨⟨good_accepted, by decide⟩, ⟨short_accepted, by decide⟩, by decide⟩
theorem witness_UnrecognisedProtocolNotifiesThenDispatches :
    (IpAccepted booted.cfg 2 oddDatagram ∧ ¬ oddDatagram.totalLen.toNat < 4 * oddDatagram.hdrLen.toNat) ∧
    (IpAccepted booted.cfg 2 oddShortDatagram ∧
      oddShortDatagram.totalLen.toNat < 4 * oddShortDatagram.hdrLen.toNat) ∧
    2 ∉ booted.cfg.ipRecognised ∧ booted.reactions = [] ∧
    ({ booted with reactions := [[smallSend]] } : State).reactions = [smallSend] :: [] ∧
    (∀ c ∈ [smallSend], allowedToIcmp c = true) ∧ ∃ u, execAll [smallSend] booted = .next u :=
  ⟨⟨odd_accepted, by decide⟩, ⟨oddShort_accepted, by decide⟩, by decide, rfl, rfl, by decide, _, rfl⟩
/-- The first and the last bit of the header, the two beside `hdr_len`, and three bits of `hdr_len` that
make it 13, 1 and 4. -/
theorem witness_HeaderBitFlipDropped :
    IpAccepted booted.cfg 17 goodDatagram ∧
    ∀ k ∈ [0, 3, 4, 5, 7, 8, 159], k < 32 * goodDatagram.hdrLen.toNat ∧
      (4 ≤ k → k < 8 → flippedHdrLen goodDatagram k < 5 ∨
        20 + goodDatagram.rest.length < 4 * flippedHdrLen goodDatagram k) := ⟨good_accepted, by decide⟩
theorem witness_IpFragTxBuildsDatagram : arpLookup peerIp resolved = some peerMac := by decide
theorem witness_IpSendToResolved :
    resolved.cfg.legal = true ∧ (zeros 65515).length ≤ 65515 ∧ arpLookup peerIp resolved = some peerMac :=
  ⟨by decide, by rw [zeros_length], by decide⟩
theorem witness_IpSendToUnresolved :
    (pending.cfg.legal = true ∧ arpLookup peerIp pending = none ∧ (pendingLookup peerIp pending).isSome) ∧
    (booted.cfg.legal = true ∧ arpLookup peerIp booted = none ∧ pendingLookup peerIp booted = none ∧
      Table.count booted.cfg.arpPendingTimeout booted.now booted.arpPending < booted.cfg.arpPendingCap) ∧
    (full.cfg.legal = true ∧ arpLookup peerIp full = none ∧ pendingLookup peerIp full = none ∧
      full.cfg.arpPendingCap ≤ Table.count full.cfg.arpPendingTimeout full.now full.arpPending) ∧
    (booted.now ≤ 0 ∧ liveAt booted.cfg.arpPendingTimeout booted.now 0 ∧
      ¬ liveAt booted.cfg.arpPendingTimeout booted.now 1) ∧
    (zeros 65515).length ≤ 65515 := ⟨by decide, by decide, by decide, by decide, by rw [zeros_length]⟩
theorem witness_FragmentsCoverPayload : Cfg.cfg0.legal = true ∧ (zeros 65515).length ≤ 65515 ∧
    0 < fragmentCount Cfg.cfg0 5250 ∧ 2 + 1 < fragmentCount Cfg.cfg0 5250 :=
  ⟨by decide, by rw [zeros_length], by decide, by decide⟩
/-- A length one above the buffer's, and one just the buffer's with a wrong checksum. -/
theorem witness_UdpRxDropsInOrder :
    (zeros 7).length < 8 ∧ 8 + fourBytes.length < (13 : BitVec 16).toNat ∧
    ((12 : BitVec 16).toNat ≤ 8 + fourBytes.length ∧
      pseudoSum booted.cfg peerIp booted.cfg.ifIp (udpBytes 1000 2000 12 0 fourBytes) ≠ 0) := by decide +kernel
theorem witness_UdpRxDelivers :
    (12 : BitVec 16).toNat ≤ 8 + fourBytes.length ∧
    pseudoSum booted.cfg peerIp booted.cfg.ifIp (udpBytes 1000 2000 12 0 fourBytes) = 0xABE8 ∧
    portLookup 2000 booted = some 1 ∧ booted.reactions = [] ∧
    ({ booted with reactions := [[smallSend]] } : State).reactions = [smallSend] :: [] ∧
    ∀ c ∈ [smallSend], allowedToHandler c = true := by decide +kernel
theorem witness_ClosedPortNotifies :
    (12 : BitVec 16).toNat ≤ 8 + fourBytes.length ∧
    pseudoSum booted.cfg peerIp booted.cfg.ifIp (udpBytes 1000 2001 12 0 fourBytes) = 0xABE7 ∧
    portLookup 2001 booted = none ∧ booted.reactions = [] ∧
    ({ booted with reactions := [[.ipSend fourBytes peerIp 1]] } : State).reactions
      = [.ipSend fourBytes peerIp 1] :: [] ∧
    ∀ c ∈ [Instr.ipSend fourBytes peerIp 1], allowedToIcmp c = true := by decide +kernel
theorem witness_UdpSendBuildsDatagram :
    resolved.cfg.legal = true ∧ (zeros 65507).length ≤ 65507 ∧ arpLookup peerIp resolved = some peerMac ∧
    28 + (zeros 1472).length ≤ resolved.cfg.ethMtu :=
  ⟨by decide, by rw [zeros_length], by decide, by rw [zeros_length]; decide⟩
theorem witness_OwnUdpDatagramNotAccepted :
    fourBytes.length ≤ 65507 ∧
    pseudoSum booted.cfg peerIp booted.cfg.ifIp
      (udpBytes 1000 2000 (BitVec.ofNat 16 (8 + fourBytes.length)) 0 fourBytes) ≠ 0 := by decide +kernel
theorem witness_UdpDatagramDelivered :
    IpAccepted booted.cfg booted.cfg.ipprotoUdp goodDatagram ∧ goodDatagram.hdrLen = 5 ∧
    goodDatagram.totalLen.toNat = 28 + fourBytes.length ∧
    goodDatagram.rest
      = udpBytes 1000 2000 (BitVec.ofNat 16 (8 + fourBytes.length)) 0xABE8 fourBytes ++ zeros 14 ∧
    pseudoSum booted.cfg goodDatagram.srcIp booted.cfg.ifIp
      (udpBytes 1000 2000 (BitVec.ofNat 16 (8 + fourBytes.length)) 0 fourBytes) = 0xABE8 ∧
    booted.cfg.ipprotoUdp ∈ booted.cfg.ipRecognised ∧
    registryLookup (booted.cfg.ipprotoUdp.setWidth 16) booted = some .udp ∧ portLookup 2000 booted = some 1 ∧
    booted.reactions = [] := ⟨good_accepted, by decide +kernel⟩
/-- The frame of vector U1 waiting in the driver. -/
def fed : State := { booted with driverRx := [frameAbcd] }
theorem witness_UdpFrameDelivered :
    IpAccepted fed.cfg fed.cfg.ipprotoUdp goodDatagram ∧ goodDatagram.hdrLen = 5 ∧
    goodDatagram.totalLen.toNat = 28 + fourBytes.length ∧
    goodDatagram.rest
      = udpBytes 1000 2000 (BitVec.ofNat 16 (8 + fourBytes.length)) 0xABE8 fourBytes ++ zeros 14 ∧
    pseudoSum fed.cfg goodDatagram.srcIp fed.cfg.ifIp
      (udpBytes 1000 2000 (BitVec.ofNat 16 (8 + fourBytes.length)) 0 fourBytes) = 0xABE8 ∧
    fed.cfg.ipprotoUdp ∈ fed.cfg.ipRecognised ∧ registryLookup fed.cfg.ethertypeIp fed = some .ip ∧
    registryLookup (fed.cfg.ipprotoUdp.setWidth 16) fed = some .udp ∧ portLookup 2000 fed = some 1 ∧
    fed.reactions = [] ∧
    fed.driverRx = ethBytes fed.cfg.ifMac peerMac fed.cfg.ethertypeIp (ipv4Bytes fed.cfg.ipprotoUdp goodDatagram) :: [] ∧
    34 + goodDatagram.rest.length ≤ fed.cfg.rxBufCap := ⟨good_accepted, by decide +kernel⟩
/-- With a handler of outside, with `H_UDP`, and with none. -/
theorem witness_IcmpDatagramByRegistry :
    IpAccepted booted.cfg booted.cfg.ipprotoIcmp icmpDatagram ∧
    4 * icmpDatagram.hdrLen.toNat ≤ icmpDatagram.totalLen.toNat ∧
    booted.cfg.ipprotoIcmp ∈ booted.cfg.ipRecognised ∧
    registryLookup (booted.cfg.ipprotoIcmp.setWidth 16) booted = some (.ext 0) ∧ booted.reactions = [] ∧
    registryLookup (booted.cfg.ipprotoIcmp.setWidth 16) { booted with registry := [⟨1, .udp, 0⟩] } = some .udp ∧
    registryLookup (booted.cfg.ipprotoIcmp.setWidth 16) { booted with registry := [] } = none :=
  ⟨icmp_accepted, by decide⟩
theorem witness_InitRegistersAndAnnounces : State.reset.cfg.legal = true ∧ State.reset.registry = [] := by decide
theorem witness_ReactionsDoNotNest :
    (∀ c ∈ [smallSend, .udpSend fourBytes 1 peerIp 2, .udpOpen 9 0x80, .udpClose 9, .register 9 0x01],
      allowedToHandler c = true) ∧ allowedToIcmp smallSend = true := by decide
/-- A reaction with a command between two that any party may issue. -/
def reacting (c : Instr) : State := { booted with reactions := [[smallSend, c, smallSend]] }
/-- `POLL`, and a command with a reserved handler, after an allowed one; for the collaborator, a `UDP_CLOSE` and
an `IP_SEND` too long; and each of the four calls out of the block. -/
theorem witness_ForbiddenReactionsRefused :
    (∀ c, (reacting c).reactions = ([smallSend] ++ c :: [smallSend]) :: []) ∧
    (allowedToHandler smallSend = true ∧ allowedToHandler .poll = false ∧
      allowedToHandler (.register 9 0x7F) = false) ∧
    (allowedToIcmp smallSend = true ∧ allowedToIcmp (.udpClose 9) = false ∧
      allowedToIcmp (.ipSend (zeros 65516) peerIp 1) = false) ∧
    (∀ c, registryLookup 1 (reacting c) = some (.ext 0)) ∧
    ((12 : BitVec 16).toNat ≤ 8 + fourBytes.length ∧
      pseudoSum booted.cfg peerIp booted.cfg.ifIp (udpBytes 1000 2000 12 0 fourBytes) = 0xABE8 ∧
      pseudoSum booted.cfg peerIp booted.cfg.ifIp (udpBytes 1000 2001 12 0 fourBytes) = 0xABE7) ∧
    (∀ c, portLookup 2000 (reacting c) = some 1 ∧ portLookup 2001 (reacting c) = none) ∧
    (IpAccepted booted.cfg 2 oddDatagram ∧ 2 ∉ booted.cfg.ipRecognised) := by
  refine ⟨fun _ => rfl, by decide, ⟨by decide, by decide, ?_⟩, fun _ => rfl, by decide +kernel,
    fun _ => ⟨rfl, rfl⟩, odd_accepted, by decide⟩
  simp [allowedToIcmp, Instr.wellFormed, ipMaxPayload]
theorem witness_IllegalOperandsRefused :
    (0x00 : BitVec 8).toNat = 0 ∧ (4 ≤ (0x04 : BitVec 8).toNat ∧ (0x7F : BitVec 8).toNat ≤ 0x7F) ∧
    (0x7F : BitVec 8).toNat < 0x80 ∧ 65507 < (zeros 65508).length ∧ 65515 < (zeros 65516).length :=
  ⟨by decide, by decide, by decide, by rw [zeros_length]; decide, by rw [zeros_length]; decide⟩
theorem witness_ReceivePathCompletes :
    receives (.ethRx frameAbcd) = true ∧ reactionsAllowed { booted with reactions := [[smallSend]] } := by
  refine ⟨by decide, ?_⟩
  intro r hr c hc
  simp only [List.mem_singleton] at hr
  subst hr
  simp only [List.mem_singleton] at hc
  subst hc
  decide
theorem witness_ReceivePathFrame :
    booted.reactions = [] ∧ (∃ t, exec (.arpRx peerRequest peerMac) booted = .next t) ∧
    receives (.arpRx peerRequest peerMac) = true ∧ ∃ t, exec .poll booted = .next t :=
  ⟨rfl, ⟨_, rfl⟩, by decide, _, rfl⟩

end Sys2Proof.Tests
end

/-! Frame Transport: what `ETH_TX` hands to the driver, and what `ETH_RX` does with a short frame and
with the bytes of a whole one (41_frame_transport.md R160 to R163). -/

namespace Sys2Proof.Machine

/-! ## The arms of `exec` used here -/

theorem exec_ethTx (buf : Bytes) (dst : Mac) (type : BitVec 16) (s : State) :
    exec (.ethTx buf dst type) s = .next (ethTx buf dst type s) := rfl

theorem exec_ethRx (frame : Bytes) (s : State) : exec (.ethRx frame) s = ethRx frame s := rfl

theorem exec_dispatch (buf : Bytes) (proto : BitVec 16) (src : SrcAddr) (s : State) :
    exec (.dispatch buf proto src) s = dispatch buf proto src s := rfl

/-! ## `ETH_RX`, its two branches -/

theorem ethRx_short {frame : Bytes} (h : frame.length < ethHdrLen) (s : State) :
    ethRx frame s = .next (drop .ethShort s) := if_pos h

/-- A frame of the header's length or more goes to `DISPATCH` (R162). -/
theorem ethRx_of_le {frame : Bytes} (h : ethHdrLen ≤ frame.length) (s : State) :
    ethRx frame s = dispatch (removeHeader frame ethHdrLen) (be16At frame 12) (.mac (macAt frame 6)) s :=
  if_neg h.not_gt

/-- `ETH_RX` on the bytes of a frame's fields: `dst` does not occur on the right (R163). -/
theorem ethRx_ethBytes (dst src : Mac) (type : BitVec 16) (payload : Bytes) (s : State) :
    ethRx (ethBytes dst src type payload) s = dispatch payload type (.mac src) s := by
  have hlen : ethHdrLen ≤ (ethBytes dst src type payload).length := by simp [ethHdrLen]
  have hpayload : removeHeader (ethBytes dst src type payload) ethHdrLen = payload :=
    ethBytes_payload dst src type payload
  rw [ethRx_of_le hlen, hpayload, ethBytes_type, ethBytes_src]

/-! ## The statements -/

/-- Settles O17: the header written field by field is the fields in a row (`ethTx_eq`), and the frame is
the only thing emitted. -/
theorem ethTxSendsFrame : Obligations.EthTxSendsFrame := by
  intro buf dst type s
  rw [exec_ethTx, ethTx_eq, ethBytes, ← List.append_assoc]
  rfl

/-- Settles O18: one branch of `ETH_RX` for each of its two parts. -/
theorem ethRxStripsAndDispatches : Obligations.EthRxStripsAndDispatches := by
  constructor
  · intro frame s hshort
    rw [exec_ethRx, ethRx_short hshort]
    rfl
  · intro dst src type payload s
    rw [exec_ethRx, exec_dispatch]
    exact ethRx_ethBytes dst src type payload s

end Sys2Proof.Machine

/-! Address Resolution, transmit side: the one frame that `ARP_REQ` and `ARP_REPLY` each hand to the driver
(43_arp.md R191 to R193). -/

namespace Sys2Proof.Machine

/-! ## The arms of `exec` used here -/

theorem exec_arpReq (ip : Ip) (s : State) : exec (.arpReq ip) s = .next (arpReq ip s) := rfl

theorem exec_arpReply (ip : Ip) (mac : Mac) (s : State) :
    exec (.arpReply ip mac) s = .next (arpReply ip mac s) := rfl

/-! ## An own ARP packet through `ETH_TX` -/

/-- The packet written at offsets (R191) and the header written at offsets (R160) are the fields in a row,
and sending them writes no state but the emitted frame. -/
theorem ethTx_arpPacket (op : BitVec 16) (targetMac : Mac) (targetIp : Ip) (dst : Mac) (type : BitVec 16)
    (s : State) :
    ethTx (arpPacket s.cfg op targetMac targetIp) dst type s
      = emit (.driverSend (paddedFrame s.cfg dst type (ownArpPacket s.cfg op targetMac targetIp))) s := by
  have hpacket : arpPacket s.cfg op targetMac targetIp = ownArpPacket s.cfg op targetMac targetIp :=
    arpPacket_eq s.cfg op targetMac targetIp
  rw [hpacket, ethTx_eq, paddedFrame]

/-- `ARP_REQ` emits the request frame: opcode 1, target MAC zero, to `ETH_BROADCAST` (R192). -/
theorem arpReq_eq_emit (ip : Ip) (s : State) :
    arpReq ip s = emit (.driverSend (requestFrame s.cfg ip)) s :=
  ethTx_arpPacket arpOpRequestCode Mac.zero ip s.cfg.ethBroadcast s.cfg.ethertypeArp s

/-- `ARP_REPLY` emits the reply frame: opcode 2, the requester's MAC as target and as destination (R193). -/
theorem arpReply_eq_emit (ip : Ip) (mac : Mac) (s : State) :
    arpReply ip mac s = emit (.driverSend (replyFrame s.cfg ip mac)) s :=
  ethTx_arpPacket arpOpReplyCode mac ip mac s.cfg.ethertypeArp s

/-! ## The statements -/

/-- Settles O25: `ARP_REQ` is one `emit` of the request frame (`arpReq_eq_emit`), so only `out` grows. -/
theorem arpReqBroadcasts : Obligations.ArpReqBroadcasts := by
  intro ip s
  rw [exec_arpReq, arpReq_eq_emit, emit]

/-- Settles O26: `ARP_REPLY` is one `emit` of the reply frame (`arpReply_eq_emit`), so only `out` grows. -/
theorem arpReplyAnswers : Obligations.ArpReplyAnswers := by
  intro ip mac s
  rw [exec_arpReply, arpReply_eq_emit, emit]

end Sys2Proof.Machine

/-! UDP, the commands: the port's handler after `UDP_OPEN` and `UDP_CLOSE`, and what `UDP_SEND` hands to
`IP_SEND` (45_udp.md R265, R270, R271). -/

namespace Sys2Proof.Machine

/-! ## The arms of `exec` used here -/

theorem exec_udpClose (port : BitVec 16) (s : State) : exec (.udpClose port) s = .next (portDelete port s) := rfl

/-- The code of an external handler names it back (10_state.md R34). -/
theorem extHandlerOfCode_code (h : ExtHandler) : extHandlerOfCode (Handler.ext h).code = some h := by
  have hcode : (Handler.ext h).code.toNat = 128 + h.val := Nat.mod_eq_of_lt (by omega)
  simp [extHandlerOfCode, hcode]

theorem exec_udpOpen_ext (port : BitVec 16) (h : ExtHandler) (s : State) :
    exec (.udpOpen port (Handler.ext h).code) s = .next (udpOpen port h s) := by
  show execUdpOpen port (Handler.ext h).code s = _
  rw [execUdpOpen, extHandlerOfCode_code]

/-- `IP_SEND` of a payload that a datagram can carry completes (R111). -/
theorem exec_ipSend_of_le {buf : Bytes} (h : buf.length ≤ ipMaxPayload) (dip : Ip) (proto : Byte) (s : State) :
    exec (.ipSend buf dip proto) s = .next (ipSend buf dip proto s) := if_pos h

/-- `UDP_SEND` of data that a datagram can carry completes (R111). -/
theorem exec_udpSend_of_le {data : Bytes} (h : data.length ≤ udpMaxData) (sport : BitVec 16) (dip : Ip)
    (dport : BitVec 16) (s : State) :
    exec (.udpSend data sport dip dport) s = .next (udpSend data sport dip dport s) := if_pos h

/-! ## The port table -/

theorem portKey_ne {p q : BitVec 16} (h : p ≠ q) : p.toNat ≠ q.toNat :=
  fun hkey => h (BitVec.eq_of_toNat_eq hkey)

/-- The store takes a port that is open, and a new one while it has room (R143). -/
theorem portSet_result_iff (port : BitVec 16) (h : ExtHandler) (s : State) :
    (portSet port h s).2 = true ↔
      (portLookup port s).isSome ∨ Table.count 0 s.now s.portTable < s.cfg.portTableCap := by
  have hfails : (portSet port h s).2 = false ↔
      portLookup port s = none ∧ s.cfg.portTableCap ≤ Table.count 0 s.now s.portTable :=
    Table.set_fails_iff ..
  rw [← Bool.not_eq_false, hfails, not_and_or, Nat.not_le, ← ne_eq, ← Option.isSome_iff_ne_none]

/-- A port that the store does not take leaves it as it is (R143). -/
theorem portSet_failed {port : BitVec 16} {h : ExtHandler} {s : State} (hfail : (portSet port h s).2 = false) :
    (portSet port h s).1.portTable = s.portTable := Table.set_failed hfail

/-- The handler of every port after a `set` of one. -/
theorem portLookup_portSet (port q : BitVec 16) (h : ExtHandler) (s : State) :
    portLookup q (portSet port h s).1
      = if q = port ∧ (portSet port h s).2 = true then some h else portLookup q s := by
  by_cases hport : q = port
  · subst hport
    cases hok : (portSet q h s).2 with
    | true =>
      have hself : portLookup q (portSet q h s).1 = if (portSet q h s).2 then some h else none :=
        Table.get_set_self ..
      simp [hself, hok]
    | false => simp [portLookup, Table.set_failed hok]
  · rw [if_neg (fun hc => hport hc.1)]
    exact Table.get_set_other h (portKey_ne hport) s.portTable

/-- The handler of every port after the `delete` of one (R144). -/
theorem portLookup_portDelete (port q : BitVec 16) (s : State) :
    portLookup q (portDelete port s) = if q = port then none else portLookup q s := by
  split
  · next hport => subst hport; exact Table.get_delete_self s.portTable
  · next hport => exact Table.get_delete_other (portKey_ne hport) s.portTable

/-! ## One datagram to a Resolved destination -/

/-- `ARP_OUT` to a Resolved IP sends one frame (43_arp.md R196). -/
theorem arpOut_of_resolved {ip : Ip} {mac : Mac} {s : State} (h : arpLookup ip s = some mac) (buf : Bytes) :
    arpOut buf ip s = emit (.driverSend (paddedFrame s.cfg mac s.cfg.ethertypeIp buf)) s := by
  rw [arpOut, h]
  exact ethTx_eq ..

/-- A payload that fits one datagram is sent as the last fragment, whatever the bound (44_ip.md R229). -/
theorem ipFragments_of_fits {rest : Bytes} {s : State} (h : rest.length ≤ s.cfg.fragCap) (dip : Ip)
    (proto : Byte) (id : BitVec 16) (n off : Nat) :
    ipFragments dip proto id n rest off s = ipFragTx rest dip proto id (BitVec.ofNat 16 off) false s := by
  cases n with
  | zero => rfl
  | succ n => exact if_neg h.not_gt

/-- `IP_SEND` of a payload that fits one datagram, to a Resolved destination, is one frame, and `IP_ID`
one further (44_ip.md R229). -/
theorem ipSend_of_fits {buf : Bytes} {dip : Ip} {mac : Mac} {s : State} (hfits : buf.length ≤ s.cfg.fragCap)
    (hmac : arpLookup dip s = some mac) (proto : Byte) :
    ipSend buf dip proto s = { s with
      ipId := s.ipId + 1
      out := s.out ++ [.driverSend (paddedFrame s.cfg mac s.cfg.ethertypeIp
        (datagramBytes s.cfg buf dip proto s.ipId 0 false))] } := by
  rw [ipSend, ipFragments_of_fits hfits, ipFragTx, ipDatagram_eq_datagramBytes, arpOut_of_resolved hmac]
  rfl

/-! ## The statements -/

/-- Settles O48: the header written field by field is the fields in a row (`udpDatagram_eq_udpBytes`), and
the datagram that fits goes out in one frame (`ipSend_of_fits`). -/
theorem udpSendBuildsDatagram : Obligations.UdpSendBuildsDatagram := by
  intro data sport dport dip s _ hlen
  have hsend : exec (.udpSend data sport dip dport) s
      = .next (ipSend (udpBytes sport dport (BitVec.ofNat 16 (8 + data.length)) 0 data) dip s.cfg.ipprotoUdp s) := by
    rw [exec_udpSend_of_le hlen, udpSend, udpDatagram_eq_udpBytes]
  constructor
  · have hmax : (udpBytes sport dport (BitVec.ofNat 16 (8 + data.length)) 0 data).length ≤ ipMaxPayload := by
      rw [udpBytes_length, ipMaxPayload]; omega
    rw [hsend, exec_ipSend_of_le hmax]
  · intro mac hmac hmtu
    have hfits : (udpBytes sport dport (BitVec.ofNat 16 (8 + data.length)) 0 data).length ≤ s.cfg.fragCap := by
      rw [udpBytes_length, Cfg.fragCap, ipHdrLen]; omega
    rw [hsend, ipSend_of_fits hfits hmac]

/-- Settles O50: `UDP_OPEN` returns what the store answered (`portSet_result_iff`), and the port's handler
is the new one exactly where that is `ok` (`portLookup_portSet`). -/
theorem udpOpenReturnsResult : Obligations.UdpOpenReturnsResult := by
  intro port h s
  exact ⟨udpOpen port h s, (portSet port h s).2, exec_udpOpen_ext port h s, rfl, portSet_result_iff port h s,
    portSet_failed, fun q => portLookup_portSet port q h s⟩

/-- Settles O51: `UDP_CLOSE` is the store's `delete` of the port (`portLookup_portDelete`). -/
theorem udpCloseRemovesPort : Obligations.UdpCloseRemovesPort := by
  intro port s
  exact ⟨portDelete port s, exec_udpClose port s, rfl, fun q => portLookup_portDelete port q s⟩

end Sys2Proof.Machine

/-! The decoder and the encoder are inverse to each other (30_encoding.md R103, R110), and the codes of the
handlers (10_state.md R34). -/

namespace Sys2Proof

open Machine

-- One proof after another, not side by side: the check's memory limit leaves no room for more threads.
set_option deprecated.oldSectionVars true

/-! ## Consecutive fields, read and written back -/

theorem byteAt_cons_drop {b : Bytes} {i : Nat} (h : i < b.length) : byteAt b i :: b.drop (i + 1) = b.drop i := by
  rw [byteAt, List.getD_eq_getElem b 0 h, List.cons_getElem_drop_succ]

theorem bytes16_be16At_append_drop {b : Bytes} {i : Nat} (h : i + 2 ≤ b.length) :
    bytes16 (be16At b i) ++ b.drop (i + 2) = b.drop i := by
  rw [be16At, bytes16_word16, List.cons_append, List.cons_append, List.nil_append,
    byteAt_cons_drop (i := i + 1) (by omega), byteAt_cons_drop (by omega)]

theorem ipAt_bytes_append_drop {b : Bytes} {i : Nat} (h : i + 4 ≤ b.length) :
    (ipAt b i).bytes ++ b.drop (i + 4) = b.drop i := by
  simp only [Ip.bytes, ipAt, List.cons_append, List.nil_append]
  rw [byteAt_cons_drop (i := i + 3) (by omega), byteAt_cons_drop (i := i + 2) (by omega),
    byteAt_cons_drop (i := i + 1) (by omega), byteAt_cons_drop (by omega)]

theorem macAt_bytes_append_drop {b : Bytes} {i : Nat} (h : i + 6 ≤ b.length) :
    (macAt b i).bytes ++ b.drop (i + 6) = b.drop i := by
  simp only [Mac.bytes, macAt, List.cons_append, List.nil_append]
  rw [byteAt_cons_drop (i := i + 5) (by omega), byteAt_cons_drop (i := i + 4) (by omega),
    byteAt_cons_drop (i := i + 3) (by omega), byteAt_cons_drop (i := i + 2) (by omega),
    byteAt_cons_drop (i := i + 1) (by omega), byteAt_cons_drop (by omega)]

/-- A frame of 14 bytes or more is its header's fields and its payload in a row (R91). -/
theorem ethBytes_of_le {b : Bytes} (h : ethHdrLen ≤ b.length) :
    ethBytes (macAt b 0) (macAt b 6) (be16At b 12) (b.drop ethHdrLen) = b := by
  have hlen : 14 ≤ b.length := h
  calc (macAt b 0).bytes ++ (macAt b 6).bytes ++ bytes16 (be16At b 12) ++ b.drop 14
      = (macAt b 0).bytes ++ ((macAt b 6).bytes ++ (bytes16 (be16At b 12) ++ b.drop 14)) := by
        simp only [List.append_assoc]
    _ = b := by
        rw [bytes16_be16At_append_drop (by omega), macAt_bytes_append_drop (i := 6) (by omega),
          macAt_bytes_append_drop (i := 0) (by omega), List.drop_zero]

/-- A packet of 28 bytes or more is the fields of R93 in a row. -/
theorem arpBytes_of_le {b : Bytes} (h : arpPktLen ≤ b.length) : arpBytes (be16At b 6) (arpOperandsOf b) = b := by
  have hlen : 28 ≤ b.length := h
  simp only [arpBytes, arpOperandsOf, arpPktLen, List.append_assoc, List.cons_append, List.nil_append]
  rw [ipAt_bytes_append_drop (i := 24) (by omega), macAt_bytes_append_drop (i := 18) (by omega),
    ipAt_bytes_append_drop (i := 14) (by omega), macAt_bytes_append_drop (i := 8) (by omega),
    bytes16_be16At_append_drop (i := 6) (by omega), byteAt_cons_drop (i := 5) (by omega),
    byteAt_cons_drop (i := 4) (by omega), bytes16_be16At_append_drop (i := 2) (by omega),
    bytes16_be16At_append_drop (i := 0) (by omega), List.drop_zero]

/-- A datagram of 20 bytes or more is the fields of R95 in a row. -/
theorem ipv4Bytes_of_le {b : Bytes} (h : ipHdrLen ≤ b.length) :
    ipv4Bytes (byteAt b 9) (ipv4OperandsOf b) = b := by
  have hlen : 20 ≤ b.length := h
  simp only [ipv4Bytes, ipv4OperandsOf, ipHdrLen, nibbles_join, List.append_assoc, List.cons_append,
    List.nil_append]
  rw [ipAt_bytes_append_drop (i := 16) (by omega), ipAt_bytes_append_drop (i := 12) (by omega),
    bytes16_be16At_append_drop (i := 10) (by omega), byteAt_cons_drop (i := 9) (by omega),
    byteAt_cons_drop (i := 8) (by omega), bytes16_be16At_append_drop (i := 6) (by omega),
    bytes16_be16At_append_drop (i := 4) (by omega), bytes16_be16At_append_drop (i := 2) (by omega),
    byteAt_cons_drop (i := 1) (by omega), byteAt_cons_drop (i := 0) (by omega), List.drop_zero]

/-! ## The decoders of received units, on the bytes of a unit's fields -/

theorem ethertypes_ne {cfg : Cfg} (h : cfg.legal = true) : cfg.ethertypeIp ≠ cfg.ethertypeArp := by
  intro he
  simp [Cfg.legal, he] at h

theorem ipprotos_ne {cfg : Cfg} (h : cfg.legal = true) : cfg.ipprotoIcmp ≠ cfg.ipprotoUdp := by
  intro he
  simp [Cfg.legal, he] at h

theorem decodeEthernet_ethBytes (cfg : Cfg) (dst src : Mac) (type : BitVec 16) (payload : Bytes) :
    decodeEthernet cfg (ethBytes dst src type payload) =
      if type = cfg.ethertypeArp then .ok (.ethTypeArp dst src payload)
      else if type = cfg.ethertypeIp then .ok (.ethTypeIp dst src payload)
      else .error .noDiscriminator := by
  have hlen : ¬ (ethBytes dst src type payload).length < ethHdrLen := by simp [ethHdrLen]
  simp only [decodeEthernet, if_neg hlen, ethBytes_type, ethBytes_dst, ethBytes_src]
  rfl

theorem decodeArp_arpBytes (op : BitVec 16) (p : ArpOperands) :
    decodeArp (arpBytes op p) =
      if op = arpOpRequestCode then .ok (.arpOpRequest p)
      else if op = arpOpReplyCode then .ok (.arpOpReply p)
      else .error .noDiscriminator := by
  have hlen : ¬ (arpBytes op p).length < arpPktLen := by simp [arpPktLen]
  simp only [decodeArp, if_neg hlen, arpBytes_opcode, arpOperandsOf_arpBytes]

theorem decodeIpv4_ipv4Bytes (cfg : Cfg) (proto : Byte) (d : Ipv4Operands) :
    decodeIpv4 cfg (ipv4Bytes proto d) =
      if proto = cfg.ipprotoUdp then .ok (.ipProtoUdp d)
      else if proto = cfg.ipprotoIcmp then .ok (.ipProtoIcmp d)
      else .error .noDiscriminator := by
  have hlen : ¬ (ipv4Bytes proto d).length < ipHdrLen := by simp [ipHdrLen]
  simp only [decodeIpv4, if_neg hlen, ipv4Bytes_protocol, ipv4OperandsOf_ipv4Bytes]

/-! ## Decoding what was encoded -/

theorem decode_encode {cfg : Cfg} (h : cfg.legal = true) (i : Instr) : decode cfg (encode cfg i) = .ok i := by
  cases i with
  | ethTypeArp dst src payload => exact (decodeEthernet_ethBytes ..).trans (if_pos rfl)
  | ethTypeIp dst src payload =>
    exact (decodeEthernet_ethBytes ..).trans ((if_neg (ethertypes_ne h)).trans (if_pos rfl))
  | arpOpRequest p => exact decodeArp_arpBytes arpOpRequestCode p
  | arpOpReply p => exact decodeArp_arpBytes arpOpReplyCode p
  | ipProtoUdp d => exact (decodeIpv4_ipv4Bytes ..).trans (if_pos rfl)
  | ipProtoIcmp d => exact (decodeIpv4_ipv4Bytes ..).trans ((if_neg (ipprotos_ne h)).trans (if_pos rfl))
  | dispatch buf proto src =>
    cases src <;> simp [decode, decodeOperation, encode, opFrame, decodeOperands, bytes16, Mac.bytes, Ip.bytes]
  | ipFragTx buf dip proto id off mf =>
    cases mf <;> simp [decode, decodeOperation, encode, opFrame, decodeOperands, bytes16, Ip.bytes]
  | _ => simp [decode, decodeOperation, encode, opFrame, decodeOperands, bytes16, Mac.bytes, Ip.bytes]

/-! ## Encoding what was decoded -/

/-- A code is read by its number (R110). -/
theorem code_eq_of_toNat {code : Byte} {n : Nat} (h : code.toNat = n) : code = BitVec.ofNat 8 n := by
  rw [← h, BitVec.ofNat_toNat, BitVec.setWidth_eq]

theorem encode_of_decodeOperands {cfg : Cfg} {code : Byte} {ops : Bytes} {i : Instr}
    (h : decodeOperands code ops = .ok i) : encode cfg i = opFrame code ops := by
  unfold decodeOperands at h
  simp only [] at h
  -- one goal for each code of R110; a reserved code decodes to nothing
  split at h <;> rename_i hcode
  case h_19 => cases h
  -- `ETH_RX`: the frame is all of the operands
  case h_9 => cases h; rw [code_eq_of_toNat hcode]; rfl
  -- `DISPATCH`: the width byte says which sender address follows
  case h_10 =>
    rw [code_eq_of_toNat hcode]
    split at h
    · split at h
      · next hwidth => cases h; simp [encode, hwidth, Ip.bytes]
      · split at h
        · next hwidth =>
          split at h
          · cases h; simp [encode, hwidth, Mac.bytes]
          · cases h
        · cases h
    · cases h
  -- `IP_FRAG_TX`: the more-fragments byte is 0 or 1
  case h_16 =>
    rw [code_eq_of_toNat hcode]
    split at h
    · split at h
      · next hmf => cases h; simp [encode, hmf, Ip.bytes]
      · split at h
        · next hmf => cases h; simp [encode, hmf, Ip.bytes]
        · cases h
    · cases h
  -- the others have one layout each
  all_goals
    rw [code_eq_of_toNat hcode]
    split at h <;> cases h
    simp [encode, Ip.bytes, Mac.bytes]

theorem encode_of_decodeEthernet {cfg : Cfg} {b : Bytes} {i : Instr} (h : decodeEthernet cfg b = .ok i) :
    encode cfg i = ⟨.ethernetFrame, b⟩ := by
  unfold decodeEthernet at h
  split at h
  · cases h
  · next hshort =>
    have hb := ethBytes_of_le (Nat.le_of_not_lt hshort)
    split at h
    · next htype => cases h; rw [htype] at hb; rw [encode, hb]
    · split at h
      · next htype => cases h; rw [htype] at hb; rw [encode, hb]
      · cases h

theorem encode_of_decodeArp {cfg : Cfg} {b : Bytes} {i : Instr} (h : decodeArp b = .ok i) :
    encode cfg i = ⟨.arpPacket, b⟩ := by
  unfold decodeArp at h
  split at h
  · cases h
  · next hshort =>
    have hb := arpBytes_of_le (Nat.le_of_not_lt hshort)
    split at h
    · next hop => cases h; rw [hop] at hb; rw [encode, hb]
    · split at h
      · next hop => cases h; rw [hop] at hb; rw [encode, hb]
      · cases h

theorem encode_of_decodeIpv4 {cfg : Cfg} {b : Bytes} {i : Instr} (h : decodeIpv4 cfg b = .ok i) :
    encode cfg i = ⟨.ipv4Datagram, b⟩ := by
  unfold decodeIpv4 at h
  split at h
  · cases h
  · next hshort =>
    have hb := ipv4Bytes_of_le (Nat.le_of_not_lt hshort)
    split at h
    · next hproto => cases h; rw [hproto] at hb; rw [encode, hb]
    · split at h
      · next hproto => cases h; rw [hproto] at hb; rw [encode, hb]
      · cases h

theorem encode_of_decode {cfg : Cfg} {f : OpFrame} {i : Instr} (h : decode cfg f = .ok i) : encode cfg i = f := by
  obtain ⟨kind, bytes⟩ := f
  cases kind with
  | ethernetFrame => exact encode_of_decodeEthernet h
  | arpPacket => exact encode_of_decodeArp h
  | ipv4Datagram => exact encode_of_decodeIpv4 h
  | operation =>
    cases bytes with
    | nil => cases h
    | cons code ops => exact encode_of_decodeOperands h

/-! ## Handler codes -/

theorem handlerCode_ext_toNat (n : ExtHandler) : (Handler.ext n).code.toNat = 0x80 + n.val :=
  Nat.mod_eq_of_lt (by omega)

theorem handlerOfCode_code (h : Handler) : Handler.ofCode h.code = some h := by
  cases h with
  | arp => rfl
  | ip => rfl
  | udp => rfl
  | ext n =>
    have hcode := handlerCode_ext_toNat n
    have hne : ∀ c : BitVec 8, c.toNat < 0x80 → (Handler.ext n).code ≠ c := by
      intro c hc he; rw [he] at hcode; omega
    rw [Handler.ofCode, if_neg (hne _ (by decide)), if_neg (hne _ (by decide)), if_neg (hne _ (by decide)),
      dif_pos (by omega)]
    simp [hcode]

/-- The codes R34 reserves. -/
theorem handlerOfCode_eq_none_iff (c : BitVec 8) :
    Handler.ofCode c = none ↔ c.toNat = 0 ∨ (4 ≤ c.toNat ∧ c.toNat ≤ 0x7F) := by
  have heq : ∀ d : BitVec 8, c = d ↔ c.toNat = d.toNat := fun d => BitVec.toNat_eq
  simp only [Handler.ofCode, heq]
  split
  · next h => simp at h ⊢; omega
  split
  · next h => simp at h ⊢; omega
  split
  · next h => simp at h ⊢; omega
  split
  · next h => simp; omega
  · next h1 h2 h3 h => simp at h1 h2 h3 ⊢; omega

/-! ## The statements -/

/-- Settles O2: by the decoder of each kind of unit on the bytes of its fields; a legal configuration keeps
the discriminators of one kind apart. -/
theorem decodeOfEncode : Obligations.DecodeOfEncode := fun _ i hlegal => decode_encode hlegal i

/-- Settles O3: what the decoder reads are consecutive fields, and in a row they are the bytes again. -/
theorem encodeOfDecode : Obligations.EncodeOfDecode := fun _ _ _ h => encode_of_decode h

theorem decode_of_encode_cfg0 {f : OpFrame} {i : Instr} (h : encode Cfg.cfg0 i = f) : decode Cfg.cfg0 f = .ok i :=
  h ▸ decode_encode (by decide) i

/-- Settles O1: each of the words is the encoding of its instruction. -/
theorem writtenWordsDecode : Obligations.WrittenWordsDecode := by
  have hoperation {b : Bytes} {i : Instr} (h : encode Cfg.cfg0 i = ⟨.operation, b⟩) : decodeOperation b = .ok i :=
    decode_of_encode_cfg0 h
  have htable {nbits w : Nat} {i : Instr} (h : encode Cfg.cfg0 i = tableFrame Cfg.cfg0 nbits w) :
      decodeTableWord nbits w = some i := by
    rw [decodeTableWord, decode_of_encode_cfg0 h]
    rfl
  exact ⟨hoperation rfl, hoperation rfl, hoperation rfl, hoperation rfl, hoperation rfl, hoperation rfl, hoperation rfl,
    decode_of_encode_cfg0 rfl, decode_of_encode_cfg0 rfl, decode_of_encode_cfg0 rfl, htable rfl, htable rfl⟩

/-- Settles O4: a code from 0x80 on names the external handler of that number, and of the others three name
a handler of the block. -/
theorem handlerCodes : Obligations.HandlerCodes :=
  ⟨rfl, rfl, rfl, handlerCode_ext_toNat, handlerOfCode_code, handlerOfCode_eq_none_iff⟩

end Sys2Proof

/-! The step: which commands an idle block accepts and which it refuses, and the state after reset
(10_state.md R24 to R26, R38, R48; 30_encoding.md R111). -/

namespace Sys2Proof.Machine

-- One proof after another, not side by side: the check's memory limit leaves no room for more threads.
set_option deprecated.oldSectionVars true

/-! ## A legal command -/

/-- What the host port may present to a block that has run `INIT` or not: a command's code, operands within
their rules, in boot order (10_state.md R26; 30_encoding.md R111). -/
def legalCommand (inited : Bool) (i : Instr) : Prop :=
  i.isCommand = true ∧ i.wellFormed = true ∧ (i = .init ↔ inited = false)

theorem operandRefusal_eq_none_iff {i : Instr} (hc : i.isCommand = true) :
    operandRefusal i = none ↔ i.wellFormed = true := by
  cases i with
  | init => exact Laws.OperandRefusal.init hc
  | poll => exact Laws.OperandRefusal.poll hc
  | register p h => exact Laws.OperandRefusal.register p h hc
  | udpOpen p h => exact Laws.OperandRefusal.udpOpen p h hc
  | udpClose p => exact Laws.OperandRefusal.udpClose p hc
  | udpSend data sport dip dport => exact Laws.OperandRefusal.udpSend data sport dip dport hc
  | ipSend buf dip proto => exact Laws.OperandRefusal.ipSend buf dip proto hc
  | _ => cases hc

theorem orderRefusal_eq_none_iff (i : Instr) (inited : Bool) :
    orderRefusal i inited = none ↔ (i = .init ↔ inited = false) := by
  by_cases hi : i = .init <;> cases inited <;> simp [orderRefusal, hi]

theorem operandRefusal_ne_notModelled {i : Instr} {why : Refusal} (h : operandRefusal i = some why) (m : String) :
    why ≠ .notModelled m := by
  rintro rfl
  unfold operandRefusal at h
  split at h
  iterate 4 (split at h <;> cases h)
  cases h

theorem orderRefusal_ne_notModelled {i : Instr} {inited : Bool} {why : Refusal}
    (h : orderRefusal i inited = some why) (m : String) : why ≠ .notModelled m := by
  rintro rfl
  unfold orderRefusal at h
  split at h <;> split at h <;> cases h

/-! ## Acceptance -/

/-- A legal command is accepted: its time is latched and its operation pushed (R24, R38). -/
theorem accept_of_legal {s : State} {r : HostRequest} {rs : List HostRequest} {i : Instr}
    (hport : s.hostPort = r :: rs) (hdecode : decodeOperation r.bytes = .ok i) (hlegal : legalCommand s.inited i)
    (htime : s.now ≤ r.now) :
    accept s = .next { s with hostPort := rs, now := r.now, seq := [⟨.operation, r.bytes⟩] } := by
  obtain ⟨hcommand, hoperands, horder⟩ := hlegal
  have ho := (orderRefusal_eq_none_iff i s.inited).2 horder
  have hw := (operandRefusal_eq_none_iff hcommand).2 hoperands
  simp [accept, hport, hdecode, hcommand, Nat.not_lt.2 htime, ho, hw]

/-- A presented command is a legal one, or refused by a name of the spec's. -/
theorem accept_legal_or_refused {s : State} {r : HostRequest} {rs : List HostRequest}
    (hport : s.hostPort = r :: rs) :
    (s.now ≤ r.now ∧ ∃ i, decodeOperation r.bytes = .ok i ∧ legalCommand s.inited i) ∨
    ∃ why, accept s = .refused why ∧ ∀ m, why ≠ .notModelled m := by
  unfold accept
  rw [hport]
  simp only []
  split
  · exact .inr ⟨_, rfl, nofun⟩
  · next i hdecode =>
    split
    · exact .inr ⟨_, rfl, nofun⟩
    · next hcommand =>
      have hcommand : i.isCommand = true := by simpa using hcommand
      split
      · exact .inr ⟨_, rfl, nofun⟩
      · next htime =>
        split
        · next ho => exact .inr ⟨_, rfl, orderRefusal_ne_notModelled ho⟩
        · next hw => exact .inr ⟨_, rfl, operandRefusal_ne_notModelled hw⟩
        · next ho hw =>
          exact .inl ⟨Nat.le_of_not_lt htime, i, hdecode, hcommand,
            (operandRefusal_eq_none_iff hcommand).1 hw, (orderRefusal_eq_none_iff i s.inited).1 ho⟩

/-- What an idle block has accepted was a legal command. -/
theorem legal_of_accept {s t : State} {r : HostRequest} {rs : List HostRequest} (hport : s.hostPort = r :: rs)
    (h : accept s = .next t) : ∃ i, decodeOperation r.bytes = .ok i ∧ legalCommand s.inited i := by
  rcases accept_legal_or_refused hport with ⟨_, hi⟩ | ⟨why, hwhy, _⟩
  · exact hi
  · rw [hwhy] at h; cases h

/-! ## The step's two cases -/

theorem step_idle {s : State} (hlegal : s.cfg.legal = true) (hseq : s.seq = []) : step s = accept s := by
  simp [step, hlegal, hseq]

theorem step_busy {s : State} {f : OpFrame} {rest : List OpFrame} {i : Instr} (hlegal : s.cfg.legal = true)
    (hseq : s.seq = f :: rest) (hdecode : decode s.cfg f = .ok i) :
    step s = andThen (exec i { s with seq := rest }) (fun t => .next (settle t)) := by
  simp [step, hlegal, hseq, runTop, hdecode]

theorem step_illegal {s : State} (h : s.cfg.legal = false) : step s = .refused .illegalConfiguration := by
  simp [step, h]

/-- The bytes of an operation are its encoding, which no configuration enters. -/
theorem bytes_of_decodeOperation {b : Bytes} {i : Instr} (h : decodeOperation b = .ok i) (cfg : Cfg) :
    (encode cfg i).bytes = b := by
  have henc : encode cfg i = ⟨.operation, b⟩ := encode_of_decode (f := ⟨.operation, b⟩) h
  rw [henc]

/-! ## The statements -/

/-- Settles O5: the step pops the frame, and `settle` opens the scratch buffers after it. -/
theorem stepRunsDecodedInstruction : Obligations.StepRunsDecodedInstruction := by
  intro s f rest i hlegal hseq hdecode
  rw [step_busy hlegal hseq hdecode]
  generalize exec i { s with seq := rest } = a
  cases a <;> rfl

/-- Settles O6: `accept` refuses for nothing else than what makes a command no legal one. -/
theorem legalCommandAccepted : Obligations.LegalCommandAccepted := by
  intro s r rs i hlegal hseq hport hdecode hcommand hoperands horder htime
  rw [step_idle hlegal hseq]
  exact accept_of_legal hport hdecode ⟨hcommand, hoperands, horder⟩ htime

/-- Settles O7: every branch of `accept` but the last refuses. -/
theorem illegalCommandRefused : Obligations.IllegalCommandRefused := by
  intro s r rs hlegal hseq hport hillegal
  rw [step_idle hlegal hseq]
  exact (accept_legal_or_refused hport).resolve_left hillegal

/-- Settles O8: what is accepted decodes to a command, and a command's bytes begin with its code. -/
theorem onlyCommandCodesAccepted : Obligations.OnlyCommandCodesAccepted := by
  intro s t r rs hseq hport hstep
  have haccept : accept s = .next t := by
    rcases step_eq_next hstep with ⟨_, ⟨_, h⟩ | ⟨f, rest, i, u, hf, _⟩⟩
    · exact h
    · rw [hseq] at hf; cases hf
  obtain ⟨i, hdecode, hcommand, _⟩ := legal_of_accept hport haccept
  rw [← bytes_of_decodeOperation hdecode s.cfg]
  cases i with
  | init => exact ⟨0x01, by decide, _, rfl⟩
  | poll => exact ⟨0x02, by decide, _, rfl⟩
  | register p h => exact ⟨0x03, by decide, _, rfl⟩
  | udpOpen p h => exact ⟨0x10, by decide, _, rfl⟩
  | udpClose p => exact ⟨0x11, by decide, _, rfl⟩
  | udpSend data sport dip dport => exact ⟨0x12, by decide, _, rfl⟩
  | ipSend buf dip proto => exact ⟨0x20, by decide, _, rfl⟩
  | _ => cases hcommand

/-- Settles O9: the first branch of `accept`, and the first of `step`. -/
theorem idleBlockWaits : Obligations.IdleBlockWaits := by
  refine ⟨fun s hlegal hseq hport => ?_, fun s => step_illegal⟩
  rw [step_idle hlegal hseq, accept, hport]

/-- Settles O10: the fields of `State.resetWith`. -/
theorem resetValues : Obligations.ResetValues :=
  ⟨rfl, fun _ => ⟨rfl, rfl, rfl, rfl, rfl, rfl, rfl, rfl⟩⟩

/-- Settles O11: before `INIT` the boot order leaves `INIT` only, and no time is before 0. -/
theorem onlyInitAfterReset : Obligations.OnlyInitAfterReset := by
  intro cfg r rs hlegal
  have hidle : step { State.resetWith cfg with hostPort := r :: rs }
      = accept { State.resetWith cfg with hostPort := r :: rs } := step_idle hlegal rfl
  constructor
  · rintro ⟨t, hstep⟩
    rw [hidle] at hstep
    obtain ⟨i, hdecode, _, _, horder⟩ := legal_of_accept rfl hstep
    rw [← bytes_of_decodeOperation hdecode cfg, horder.2 rfl]
    rfl
  · intro hbytes
    have hdecode : decodeOperation r.bytes = .ok .init := by rw [hbytes]; rfl
    exact ⟨_, hidle.trans (accept_of_legal rfl hdecode ⟨rfl, rfl, by simp [State.resetWith]⟩ (Nat.zero_le _))⟩

end Sys2Proof.Machine

/-! The registry: what `REGISTER` leaves under each key, and where `DISPATCH` and the frame types lead
(42_protocol_registry.md R180 to R183; 30_encoding.md R103, R111; 41_frame_transport.md R164). -/

namespace Sys2Proof.Machine

-- One proof after another, not side by side: the check's memory limit leaves no room for more threads.
set_option deprecated.oldSectionVars true

/-! ## The arms of `exec` used here -/

theorem exec_register (proto : BitVec 16) (code : BitVec 8) (s : State) :
    exec (.register proto code) s = execRegister proto code s := rfl

theorem exec_udpOpen (port : BitVec 16) (code : BitVec 8) (s : State) :
    exec (.udpOpen port code) s = execUdpOpen port code s := rfl

theorem exec_udpSend (data : Bytes) (sport : BitVec 16) (dip : Ip) (dport : BitVec 16) (s : State) :
    exec (.udpSend data sport dip dport) s = execUdpSend data sport dip dport s := rfl

theorem exec_ipSend (buf : Bytes) (dip : Ip) (proto : Byte) (s : State) :
    exec (.ipSend buf dip proto) s = execIpSend buf dip proto s := rfl

theorem exec_poll (s : State) : exec .poll s = execPoll s := rfl

theorem exec_arpRx (buf : Bytes) (m : Mac) (s : State) : exec (.arpRx buf m) s = .next (arpRx buf s) := rfl

theorem exec_ipRx (buf : Bytes) (m : Mac) (s : State) : exec (.ipRx buf m) s = ipRx buf s := rfl

theorem exec_udpRx (buf : Bytes) (a : Ip) (s : State) : exec (.udpRx buf a) s = udpRx buf a s := rfl

theorem exec_ethTypeArp (dst src : Mac) (payload : Bytes) (s : State) :
    exec (.ethTypeArp dst src payload) s = ethRx (ethBytes dst src s.cfg.ethertypeArp payload) s := rfl

theorem exec_ethTypeIp (dst src : Mac) (payload : Bytes) (s : State) :
    exec (.ethTypeIp dst src payload) s = ethRx (ethBytes dst src s.cfg.ethertypeIp payload) s := rfl

/-! ## The registry as a map -/

/-- The handler of every key after a `set` of one (R180; 40_primitives.md R143). -/
theorem registryLookup_registrySet (proto k : BitVec 16) (h : Handler) (s : State) :
    registryLookup k (registrySet proto h s) =
      if k = proto ∧ ((registryLookup proto s).isSome ∨ Table.count 0 s.now s.registry < s.cfg.registryCap)
      then some h else registryLookup k s := by
  show Table.get 0 s.now k.toNat (Table.set _ _ _ _ _ _).1 = _
  rw [Table.get_set_later h (Nat.le_refl _)]
  simp only [BitVec.toNat_inj, true_or, if_true]
  rfl

/-- A registration has no lifetime (10_state.md R35). -/
theorem registryLookup_now (k : BitVec 16) (s : State) (time : Nat) :
    registryLookup k { s with now := time } = registryLookup k s := by
  simp [registryLookup, Table.get]

/-- No registration goes away by another one. -/
theorem registryLookup_registrySet_isSome {k : BitVec 16} {s : State} (proto : BitVec 16) (h : Handler)
    (hk : (registryLookup k s).isSome) : (registryLookup k (registrySet proto h s)).isSome := by
  rw [registryLookup_registrySet]
  split
  · rfl
  · exact hk

/-! ## `DISPATCH`, a case for each handler -/

theorem dispatch_none {proto : BitVec 16} {s : State} (h : registryLookup proto s = none) (buf : Bytes)
    (src : SrcAddr) : dispatch buf proto src s = .next (drop .noHandler s) := by rw [dispatch_eq, h]

theorem dispatch_arp {proto : BitVec 16} {s : State} (h : registryLookup proto s = some .arp) (buf : Bytes)
    (src : SrcAddr) : dispatch buf proto src s = .next (arpRx buf s) := by rw [dispatch_eq, h]

theorem dispatch_ip {proto : BitVec 16} {s : State} (h : registryLookup proto s = some .ip) (buf : Bytes)
    (src : SrcAddr) : dispatch buf proto src s = ipRx buf s := by rw [dispatch_eq, h]

theorem dispatch_udp {proto : BitVec 16} {s : State} (h : registryLookup proto s = some .udp) (buf : Bytes)
    (src : SrcAddr) : dispatch buf proto src s = udpRx buf (SrcAddr.first4 src) s := by rw [dispatch_eq, h]

theorem dispatch_ext {proto : BitVec 16} {n : ExtHandler} {s : State} (h : registryLookup proto s = some (.ext n))
    (buf : Bytes) (src : SrcAddr) :
    dispatch buf proto src s = callOut handlerReaction (.handlerCall n buf proto src) s := by rw [dispatch_eq, h]

/-- The source IP that `UDP_RX` gets is the one whose bytes are the sender address's first four (R183). -/
theorem eq_first4_of_bytes {a : Ip} {src : SrcAddr} (h : a.bytes = firstFour src) : a = SrcAddr.first4 src := by
  obtain ⟨a0, a1, a2, a3⟩ := a
  cases src with
  | ip b => obtain ⟨b0, b1, b2, b3⟩ := b; simpa [Ip.bytes, firstFour, SrcAddr.first4] using h
  | mac m => obtain ⟨m0, m1, m2, m3, m4, m5⟩ := m; simpa [Ip.bytes, Mac.bytes, firstFour, SrcAddr.first4] using h

/-- The type field that an IP protocol number stands for (R180, R333). -/
theorem bytes16_setWidth (p : Byte) : bytes16 (p.setWidth 16) = [0, p] := by
  have hp := p.isLt
  simp only [bytes16, List.cons.injEq, and_true]
  constructor <;> apply BitVec.eq_of_toNat_eq <;> simp [Nat.shiftRight_eq_div_pow] <;> omega

/-! ## `POLL`, a case for each answer of the driver -/

theorem execPoll_nil {s : State} (h : s.driverRx = []) : execPoll s = .next s := by rw [execPoll, h]

theorem execPoll_empty {s : State} {fs : List Bytes} (h : s.driverRx = [] :: fs) :
    execPoll s = .next { s with driverRx := fs } := by
  rw [execPoll, h]
  simp

theorem execPoll_frame {s : State} {f : Bytes} {fs : List Bytes} (h : s.driverRx = f :: fs) (hne : f ≠ [])
    (hcap : f.length ≤ s.cfg.rxBufCap) :
    execPoll s = ethRx f { s with driverRx := fs, rxScratch := f } := by
  rw [execPoll, h]
  simp [Nat.not_lt.2 hcap, List.length_pos_iff.2 hne]

theorem execPoll_tooLong {s : State} {f : Bytes} {fs : List Bytes} (h : s.driverRx = f :: fs)
    (hcap : s.cfg.rxBufCap < f.length) : execPoll s = .refused .driverAnswerTooLong := by
  rw [execPoll, h]
  exact if_pos hcap

/-! ## The statements -/

/-- Settles O21: the store's `set` of one key (`registryLookup_registrySet`). -/
theorem registerSetsHandler : Obligations.RegisterSetsHandler := by
  intro proto h s
  refine ⟨registrySet proto h s, ?_, rfl, fun k => registryLookup_registrySet proto k h s⟩
  rw [exec_register, execRegister, handlerOfCode_code]

/-- Settles O22: the branches of R182 but the call out of the block. -/
theorem dispatchFollowsRegistry : Obligations.DispatchFollowsRegistry := by
  intro buf proto src s
  refine ⟨fun h => dispatch_none h buf src, fun h _ => dispatch_arp h buf src, fun h _ => dispatch_ip h buf src,
    fun h a ha => ?_⟩
  rw [exec_dispatch, dispatch_udp h, exec_udpRx, eq_first4_of_bytes ha]

/-- Settles O20: `ETH_RX` dispatches the payload by the type, and the registry decides. -/
theorem ethernetTypeSelectsHandler : Obligations.EthernetTypeSelectsHandler := by
  intro dst src m payload s
  refine ⟨ethRx_ethBytes .., ethRx_ethBytes .., fun h => ?_, fun h => ?_⟩
  · rw [exec_ethTypeArp, ethRx_ethBytes, dispatch_arp h, exec_arpRx]
  · rw [exec_ethTypeIp, ethRx_ethBytes, dispatch_ip h, exec_ipRx]

/-- Settles O24: the registry holds `H_UDP` under a key that is also a frame type. -/
theorem sharedKeySpaceReachesUdp : Obligations.SharedKeySpaceReachesUdp := by
  intro dst src payload s h
  rw [exec_ethRx, ← bytes16_setWidth]
  exact (ethRx_ethBytes ..).trans (dispatch_udp h payload (.mac src))

/-- Settles O19: the branches of `POLL`. -/
theorem pollReceivesOneFrame : Obligations.PollReceivesOneFrame := fun _ =>
  ⟨execPoll_nil, fun _ => execPoll_empty, fun _ _ => execPoll_frame, fun _ _ => execPoll_tooLong⟩

/-- Settles O58: each operation tests its operand first. -/
theorem illegalOperandsRefused : Obligations.IllegalOperandsRefused := by
  refine ⟨fun proto code s h => ?_, fun port code s h => ?_, fun data sport dip dport s h => ?_,
    fun buf dip proto s h => ?_⟩
  · rw [exec_register, execRegister, (handlerOfCode_eq_none_iff code).2 h]
  · rw [exec_udpOpen, execUdpOpen, extHandlerOfCode, dif_neg (by omega)]
  · exact if_neg (by simp only [udpMaxData, ipMaxPayload, udpHdrLen]; omega)
  · exact if_neg (by simp only [ipMaxPayload]; omega)

end Sys2Proof.Machine

/-! Reactions of the parties outside the block: which commands they may hold, that those complete and call
nobody out of the block, and that any other is refused (60_exceptions.md R300, R301; 30_encoding.md R111). -/

namespace Sys2Proof.Machine

-- One proof after another, not side by side: the check's memory limit leaves no room for more threads.
set_option deprecated.oldSectionVars true

/-! ## A command that a party may issue -/

/-- What a command of a reaction may change: `IP_ID`, the parked packets, the registry, the ports and the
events, to which it appends none that calls out of the block (R301). -/
structure ReactionFrame (s t : State) : Prop where
  rest : t = { s with
    ipId := t.ipId, arpPending := t.arpPending, registry := t.registry, portTable := t.portTable, out := t.out }
  events : ∃ es, t.out = s.out ++ es ∧ ∀ e ∈ es, e.isQuiet = true

theorem ReactionFrame.refl (s : State) : ReactionFrame s s := ⟨rfl, [], by simp, by simp⟩

theorem ReactionFrame.trans {a b c : State} (h : ReactionFrame a b) (h' : ReactionFrame b c) : ReactionFrame a c := by
  obtain ⟨hrest, es, hout, hquiet⟩ := h
  obtain ⟨hrest', es', hout', hquiet'⟩ := h'
  refine ⟨by rw [hrest', hrest], es ++ es', by rw [hout', hout, List.append_assoc], fun e he => ?_⟩
  exact (List.mem_append.1 he).elim (hquiet e) (hquiet' e)

theorem SendFrame.reactionFrame {s t : State} (h : SendFrame s t) : ReactionFrame s t := by
  obtain ⟨hrest, es, hout, hsent⟩ := h
  refine ⟨by rw [hrest], es, hout, fun e he => ?_⟩
  rcases hsent e he with ⟨f, rfl⟩ | rfl <;> rfl

theorem registrySet_reactionFrame (p : BitVec 16) (h : Handler) (s : State) : ReactionFrame s (registrySet p h s) :=
  ⟨rfl, [], by simp, by simp⟩

theorem portDelete_reactionFrame (p : BitVec 16) (s : State) : ReactionFrame s (portDelete p s) :=
  ⟨rfl, [], by simp, by simp⟩

theorem udpOpen_reactionFrame (p : BitVec 16) (h : ExtHandler) (s : State) : ReactionFrame s (udpOpen p h s) :=
  ⟨rfl, [_], rfl, by simp [Event.isQuiet]⟩

theorem handlerOfCode_of_defined {code : BitVec 8} (h : handlerCodeDefined code = true) :
    ∃ x, Handler.ofCode code = some x := by
  rw [← Option.isSome_iff_exists, Option.isSome_iff_ne_none, ne_eq, handlerOfCode_eq_none_iff]
  simp only [handlerCodeDefined, decide_eq_true_eq] at h
  omega

theorem extHandlerOfCode_of_external {code : BitVec 8} (h : handlerCodeExternal code = true) :
    ∃ x, extHandlerOfCode code = some x := by
  simp only [handlerCodeExternal, decide_eq_true_eq] at h
  exact ⟨_, dif_pos h⟩

/-- The five commands of R300 complete where their operands are legal. -/
theorem exec_of_allowedToHandler {c : Instr} (h : allowedToHandler c = true) (s : State) :
    ∃ t, exec c s = .next t ∧ ReactionFrame s t := by
  obtain ⟨hissue, hoperands⟩ : handlerMayIssue c = true ∧ c.wellFormed = true := by
    simpa [allowedToHandler] using h
  cases c with
  | udpSend data sport dip dport =>
    exact ⟨_, exec_udpSend_of_le (of_decide_eq_true hoperands) sport dip dport s,
      (udpSend_frame ..).reactionFrame⟩
  | ipSend buf dip proto =>
    exact ⟨_, exec_ipSend_of_le (of_decide_eq_true hoperands) dip proto s, (ipSend_frame ..).reactionFrame⟩
  | udpOpen port code =>
    obtain ⟨x, hx⟩ := extHandlerOfCode_of_external hoperands
    exact ⟨udpOpen port x s, by rw [exec_udpOpen, execUdpOpen, hx], udpOpen_reactionFrame ..⟩
  | udpClose port => exact ⟨_, exec_udpClose port s, portDelete_reactionFrame ..⟩
  | register proto code =>
    obtain ⟨x, hx⟩ := handlerOfCode_of_defined hoperands
    exact ⟨registrySet proto x s, by rw [exec_register, execRegister, hx], registrySet_reactionFrame ..⟩
  | _ => cases hissue

/-- What the ICMP collaborator may issue, an external handler may too (R300). -/
theorem allowedToHandler_of_allowedToIcmp {c : Instr} (h : allowedToIcmp c = true) : allowedToHandler c = true := by
  cases c with
  | ipSend buf dip proto => exact h
  | _ => cases h

theorem handlerReaction_of_allowed {c : Instr} (h : allowedToHandler c = true) (s : State) :
    handlerReaction c s = exec c s := by
  cases c with
  | udpSend _ _ _ _ | ipSend _ _ _ | udpOpen _ _ | udpClose _ | register _ _ => rfl
  | _ => cases h

theorem icmpReaction_of_allowed {c : Instr} (h : allowedToIcmp c = true) (s : State) :
    icmpReaction c s = exec c s := by
  cases c with
  | ipSend buf dip proto => rfl
  | _ => cases h

theorem handlerReaction_completes {c : Instr} (h : allowedToHandler c = true) (s : State) :
    ∃ t, handlerReaction c s = .next t := by
  obtain ⟨t, ht, _⟩ := exec_of_allowedToHandler h s
  exact ⟨t, by rw [handlerReaction_of_allowed h, ht]⟩

theorem icmpReaction_completes {c : Instr} (h : allowedToIcmp c = true) (s : State) :
    ∃ t, icmpReaction c s = .next t := by
  obtain ⟨t, ht, _⟩ := exec_of_allowedToHandler (allowedToHandler_of_allowedToIcmp h) s
  exact ⟨t, by rw [icmpReaction_of_allowed h, ht]⟩

/-! ## A whole reaction -/

theorem runAll_eq_execAll {run : Instr → State → Answer} {r : List Instr} (h : ∀ c ∈ r, ∀ s, run c s = exec c s) :
    ∀ s, runAll run r s = execAll r s := by
  induction r with
  | nil => exact fun _ => rfl
  | cons c cs ih =>
    intro s
    have htail : runAll run cs = execAll cs := funext (ih fun d hd => h d (List.mem_cons_of_mem c hd))
    rw [runAll, execAll, h c List.mem_cons_self, htail]

theorem execAll_of_allowed {r : List Instr} (h : ∀ c ∈ r, allowedToHandler c = true) :
    ∀ s, ∃ t, execAll r s = .next t ∧ ReactionFrame s t := by
  induction r with
  | nil => exact fun s => ⟨s, rfl, .refl s⟩
  | cons c cs ih =>
    intro s
    obtain ⟨u, hu, hframe⟩ := exec_of_allowedToHandler (h c List.mem_cons_self) s
    obtain ⟨t, ht, hframe'⟩ := ih (fun d hd => h d (List.mem_cons_of_mem c hd)) u
    exact ⟨t, by rw [execAll, hu, andThen_next, ht], hframe.trans hframe'⟩

/-- A call out of the block runs the commands of the reaction it takes, where the party may issue them, and
goes on (R300). -/
theorem callOut_of_allowed {run : Instr → State → Answer} {e : Event} {s : State} {r : List Instr}
    {rs : List (List Instr)} (hreact : s.reactions = r :: rs) (hrun : ∀ c ∈ r, ∀ u, run c u = exec c u)
    (hallowed : ∀ c ∈ r, allowedToHandler c = true) :
    callOut run e s = execAll r { s with out := s.out ++ [e], reactions := rs } ∧
      ∃ t, callOut run e s = .next t := by
  have hall : callOut run e s = execAll r { s with out := s.out ++ [e], reactions := rs } := by
    rw [callOut, hreact]
    exact runAll_eq_execAll hrun _
  obtain ⟨t, ht, _⟩ := execAll_of_allowed hallowed { s with out := s.out ++ [e], reactions := rs }
  exact ⟨hall, t, hall.trans ht⟩

theorem callOut_handler_of_allowed {e : Event} {s : State} {r : List Instr} {rs : List (List Instr)}
    (hreact : s.reactions = r :: rs) (hallowed : ∀ c ∈ r, allowedToHandler c = true) :
    callOut handlerReaction e s = execAll r { s with out := s.out ++ [e], reactions := rs } ∧
      ∃ t, callOut handlerReaction e s = .next t :=
  callOut_of_allowed hreact (fun c hc => handlerReaction_of_allowed (hallowed c hc)) hallowed

theorem callOut_icmp_of_allowed {e : Event} {s : State} {r : List Instr} {rs : List (List Instr)}
    (hreact : s.reactions = r :: rs) (hallowed : ∀ c ∈ r, allowedToIcmp c = true) :
    callOut icmpReaction e s = execAll r { s with out := s.out ++ [e], reactions := rs } ∧
      ∃ t, callOut icmpReaction e s = .next t :=
  callOut_of_allowed hreact (fun c hc => icmpReaction_of_allowed (hallowed c hc))
    (fun c hc => allowedToHandler_of_allowedToIcmp (hallowed c hc))

/-! ## A command that the party may not issue -/

theorem handlerReaction_refused {c : Instr} (h : allowedToHandler c = false) :
    ∃ why, refusedInReaction handlerMayIssue c why ∧ ∀ s, handlerReaction c s = .refused why := by
  cases c with
  | udpSend data sport dip dport =>
    have hlong : ¬ data.length ≤ udpMaxData := by simpa [allowedToHandler, handlerMayIssue, Instr.wellFormed] using h
    exact ⟨.payloadTooLong, if_neg hlong, fun s => if_neg hlong⟩
  | ipSend buf dip proto =>
    have hlong : ¬ buf.length ≤ ipMaxPayload := by
      simpa [allowedToHandler, handlerMayIssue, Instr.wellFormed] using h
    exact ⟨.payloadTooLong, if_neg hlong, fun s => if_neg hlong⟩
  | udpOpen port code =>
    have hcode : handlerCodeExternal code = false := h
    have hnone : extHandlerOfCode code = none := dif_neg (of_decide_eq_false hcode)
    exact ⟨.handlerNotExternal, by simp [refusedInReaction, handlerMayIssue, operandRefusal, hcode],
      fun s => by rw [handlerReaction, execUdpOpen, hnone]⟩
  | register proto code =>
    have hcode : handlerCodeDefined code = false := h
    have hnone : Handler.ofCode code = none := by
      rw [handlerOfCode_eq_none_iff]
      have := of_decide_eq_false hcode
      omega
    exact ⟨.reservedHandler, by simp [refusedInReaction, handlerMayIssue, operandRefusal, hcode],
      fun s => by rw [handlerReaction, execRegister, hnone]⟩
  | udpClose port => cases h
  | _ => exact ⟨.reactionNotAllowed, rfl, fun _ => rfl⟩

theorem icmpReaction_refused {c : Instr} (h : allowedToIcmp c = false) :
    ∃ why, refusedInReaction icmpMayIssue c why ∧ ∀ s, icmpReaction c s = .refused why := by
  cases c with
  | ipSend buf dip proto =>
    have hlong : ¬ buf.length ≤ ipMaxPayload := by simpa [allowedToIcmp, icmpMayIssue, Instr.wellFormed] using h
    exact ⟨.payloadTooLong, if_neg hlong, fun s => if_neg hlong⟩
  | _ => exact ⟨.reactionNotAllowed, rfl, fun _ => rfl⟩

/-- After commands that complete, a refused one refuses the list. -/
theorem runAll_refused {run : Instr → State → Answer} {before after : List Instr} {c : Instr} {why : Refusal}
    (hbefore : ∀ b ∈ before, ∀ s, ∃ t, run b s = .next t) (hc : ∀ s, run c s = .refused why) :
    ∀ s, runAll run (before ++ c :: after) s = .refused why := by
  induction before with
  | nil => intro s; rw [List.nil_append, runAll, hc, andThen_refused]
  | cons b bs ih =>
    intro s
    obtain ⟨t, ht⟩ := hbefore b List.mem_cons_self s
    rw [List.cons_append, runAll, ht, andThen_next]
    exact ih (fun d hd => hbefore d (List.mem_cons_of_mem b hd)) t

/-- A refused command in a reaction refuses the call out of the block (log entry 6). -/
theorem callOut_refused {run : Instr → State → Answer} {before after : List Instr} {c : Instr} {why : Refusal}
    {rs : List (List Instr)} {s : State} (hreact : s.reactions = (before ++ c :: after) :: rs)
    (hbefore : ∀ b ∈ before, ∀ s, ∃ t, run b s = .next t) (hc : ∀ s, run c s = .refused why) (e : Event) :
    callOut run e s = .refused why := by
  rw [callOut, hreact]
  exact runAll_refused hbefore hc _

/-! ## The statements -/

/-- Settles O56: each of the five commands keeps `ReactionFrame`. -/
theorem reactionsDoNotNest : Obligations.ReactionsDoNotNest := by
  intro c s hallowed
  obtain ⟨t, hexec, hrest, es, hout, hquiet⟩ :=
    exec_of_allowedToHandler (hallowed.elim id allowedToHandler_of_allowedToIcmp) s
  exact ⟨t, es, hexec, hout, hquiet, hrest⟩

/-- Settles O23: `DISPATCH` to an external handler is the call out of the block. -/
theorem dispatchCallsExternalHandler : Obligations.DispatchCallsExternalHandler := by
  intro buf proto src n s hlookup
  rw [exec_dispatch, dispatch_ext hlookup]
  exact ⟨fun hquiet => callOut_quiet hquiet, fun r rs hreact hallowed => callOut_handler_of_allowed hreact hallowed⟩

end Sys2Proof.Machine

/-! Address Resolution: what `ARP_OUT` does in each state of an IP, what a valid ARP packet leaves, and how
long a parked packet and a learned address last (43_arp.md R190, R196 to R202; 40_primitives.md R141). -/

namespace Sys2Proof.Machine

-- One proof after another, not side by side: the check's memory limit leaves no room for more threads.
set_option deprecated.oldSectionVars true

/-! ## The arms of `exec` used here -/

theorem exec_arpOut (buf : Bytes) (ip : Ip) (s : State) : exec (.arpOut buf ip) s = .next (arpOut buf ip s) := rfl

theorem exec_arpOpRequest (p : ArpOperands) (s : State) :
    exec (.arpOpRequest p) s = .next (arpReceive 1 p s) := rfl

theorem exec_arpOpReply (p : ArpOperands) (s : State) : exec (.arpOpReply p) s = .next (arpReceive 2 p s) := rfl

/-! ## `ARP_OUT` in the states without an address (R190, R196) -/

theorem arpOut_of_pending {ip : Ip} {s : State} (hnone : arpLookup ip s = none) (hp : (pendingLookup ip s).isSome)
    (buf : Bytes) : arpOut buf ip s = drop .arpPendingBusy s := by
  obtain ⟨b, hb⟩ := Option.isSome_iff_exists.1 hp
  rw [arpOut, hnone, hb]

theorem arpOut_of_unresolved {ip : Ip} {s : State} (hnone : arpLookup ip s = none)
    (hp : pendingLookup ip s = none) (buf : Bytes) :
    arpOut buf ip s = emit (.driverSend (requestFrame s.cfg ip)) (park ip buf s) := by
  rw [arpOut, hnone, hp]
  exact arpReq_eq_emit ip (park ip buf s)

/-! ## A valid ARP packet -/

theorem arpRx_short {buf : Bytes} (h : buf.length < arpPktLen) (s : State) : arpRx buf s = drop .arpShort s :=
  if_pos h

theorem arpReceive_of_invalid {p : ArpOperands} {s : State} (h : ¬ arpHeaderValid s.cfg p) (op : BitVec 16) :
    arpReceive op p s = drop .arpBadHeader s := by
  rw [← arpHeaderOk_iff] at h
  simp [arpReceive, h]

theorem arpReceive_of_badOpcode {op : BitVec 16} {p : ArpOperands} {s : State} (h : arpHeaderValid s.cfg p)
    (h1 : op ≠ 1) (h2 : op ≠ 2) : arpReceive op p s = drop .arpBadOpcode s := by
  rw [← arpHeaderOk_iff] at h
  have hop : op ≠ arpOpRequestCode ∧ op ≠ arpOpReplyCode := ⟨h1, h2⟩
  simp [arpReceive, h, hop]

theorem arpReceive_of_valid {op : BitVec 16} {p : ArpOperands} {s : State} (h : arpHeaderValid s.cfg p)
    (hop : op = 1 ∨ op = 2) : arpReceive op p s = arpLearnAndAnswer op p s := by
  rw [← arpHeaderOk_iff] at h
  have hop : ¬ (op ≠ arpOpRequestCode ∧ op ≠ arpOpReplyCode) :=
    fun hne => hop.elim hne.1 hne.2
  rw [arpReceive, if_neg (by simp [h]), if_neg hop]

/-- The three ways of R200 leave what `ArpHandled` says, whatever the opcode. -/
theorem arpHandled_arpLearnAndAnswer (op : BitVec 16) (p : ArpOperands) (s : State) :
    ArpHandled op p s (arpLearnAndAnswer op p s) := by
  have hlearned := arpLookup_arpLearn p.senderIp p.senderMac s
  rcases arpLearnAndAnswer_cases op p s with ⟨packet, hp, he⟩ | ⟨hp, hop, htarget, he⟩ | ⟨hp, hother, he⟩ <;> rw [he]
  · refine ⟨rfl, hlearned, fun a time _ => pendingLookup_unpark p.senderIp a _ time, ?_⟩
    rw [hp, unpark_out, ethTx_eq]
    rfl
  · refine ⟨rfl, hlearned, fun a time ht => ?_, ?_⟩
    · split
      · next ha => rw [ha]; exact pendingLookup_none_later ht hp
      · rfl
    · rw [hp, arpReply_eq_emit]
      have hask : op = 1 ∧ p.targetIp = s.cfg.ifIp := ⟨hop, htarget⟩
      simp [hask]
  · refine ⟨rfl, hlearned, fun a time ht => ?_, ?_⟩
    · split
      · next ha => rw [ha]; exact pendingLookup_none_later ht hp
      · rfl
    · have hreply : op = 1 → ¬ p.targetIp = s.cfg.ifIp := fun hop htarget => hother ⟨hop, htarget⟩
      rw [hp]
      simpa using hreply

/-- A valid packet is handled, and no other condition is asked (R200). -/
theorem arpRx_handled {op : BitVec 16} {p : ArpOperands} {s : State} (h : arpHeaderValid s.cfg p)
    (hop : op = 1 ∨ op = 2) : ArpHandled op p s (arpRx (arpBytes op p) s) := by
  rw [arpRx_arpBytes, arpReceive_of_valid h hop]
  exact arpHandled_arpLearnAndAnswer op p s

theorem ArpHandled.now {op : BitVec 16} {p : ArpOperands} {s t : State} (h : ArpHandled op p s t) :
    t.now = s.now := by rw [h.rest]

theorem ArpHandled.cfg {op : BitVec 16} {p : ArpOperands} {s t : State} (h : ArpHandled op p s t) :
    t.cfg = s.cfg := by rw [h.rest]

/-- Right after the packet nothing is parked for its sender. -/
theorem ArpHandled.pendingLookup_sender {op : BitVec 16} {p : ArpOperands} {s t : State} (h : ArpHandled op p s t) :
    pendingLookup p.senderIp t = none := by
  have hflushed := h.flushed p.senderIp s.now (Nat.le_refl _)
  rw [if_pos rfl, ← h.now] at hflushed
  exact hflushed

/-- A sender that the table takes is known until `ARP_TIMEOUT` from now and no longer. -/
theorem ArpHandled.arpLookup_sender {op : BitVec 16} {p : ArpOperands} {s t : State} (h : ArpHandled op p s t)
    (hroom : (arpLookup p.senderIp s).isSome ∨
      Table.count s.cfg.arpTimeout s.now s.arpTable < s.cfg.arpTableCap)
    (httl : 1 ≤ s.cfg.arpTimeout) {time : Nat} (ht : s.now ≤ time) :
    arpLookup p.senderIp { t with now := time }
      = if time < s.now + s.cfg.arpTimeout then some p.senderMac else none := by
  have hlive : liveAt s.cfg.arpTimeout s.now time ↔ time < s.now + s.cfg.arpTimeout :=
    or_iff_right (by omega)
  rw [h.learned p.senderIp time ht, if_pos ⟨rfl, hroom⟩]
  simp only [hlive]

/-! ## The parked packet -/

/-- A packet parked where there is room is there until `ARP_PENDING_TIMEOUT` from now and no longer. -/
theorem pendingLookup_park_self {ip : Ip} {s : State} (buf : Bytes) (hp : pendingLookup ip s = none)
    (hroom : Table.count s.cfg.arpPendingTimeout s.now s.arpPending < s.cfg.arpPendingCap)
    (httl : 1 ≤ s.cfg.arpPendingTimeout) {time : Nat} (ht : s.now ≤ time) :
    pendingLookup ip { park ip buf s with now := time }
      = if time < s.now + s.cfg.arpPendingTimeout then some buf else none := by
  have hlive : liveAt s.cfg.arpPendingTimeout s.now time ↔ time < s.now + s.cfg.arpPendingTimeout :=
    or_iff_right (by omega)
  rw [pendingLookup_park buf hp ip time ht, if_pos ⟨rfl, hroom⟩]
  simp only [hlive]

/-- Right after a packet is parked where there is room, it is there, whatever the timeout. -/
theorem pendingLookup_park_now {ip : Ip} {s : State} (buf : Bytes) (hp : pendingLookup ip s = none)
    (hroom : Table.count s.cfg.arpPendingTimeout s.now s.arpPending < s.cfg.arpPendingCap) :
    pendingLookup ip (park ip buf s) = some buf := by
  have hpark := pendingLookup_park buf hp ip s.now (Nat.le_refl _)
  rw [if_pos ⟨rfl, hroom⟩, if_pos (by omega)] at hpark
  exact hpark

/-- When the time of a parked packet has passed, the store has the room it had (40_primitives.md R142). -/
theorem room_of_expired {ip : Ip} {s : State} (buf : Bytes)
    (hroom : Table.count s.cfg.arpPendingTimeout s.now s.arpPending < s.cfg.arpPendingCap)
    (httl : s.cfg.arpPendingTimeout ≠ 0) {time : Nat} (ht : s.now + s.cfg.arpPendingTimeout ≤ time) :
    Table.count s.cfg.arpPendingTimeout time (park ip buf s).arpPending < s.cfg.arpPendingCap :=
  Nat.lt_of_le_of_lt (Table.count_set_expired httl ht) hroom

/-! ## The statements -/

/-- Settles O27: the three states of R190. -/
theorem arpOutByState : Obligations.ArpOutByState := by
  intro buf ip s
  refine ⟨fun mac hmac => ?_, fun hnone hp => ?_, fun hnone hp => ?_⟩
  · rw [exec_arpOut, arpOut_of_resolved hmac, emit]
  · rw [exec_arpOut, arpOut_of_pending hnone hp]
    rfl
  · rw [exec_arpOut, arpOut_of_unresolved hnone hp]
    exact ⟨_, rfl, rfl, pendingLookup_park buf hp⟩

/-- Settles O28: the three tests in the order of R200, each ending in a `drop`. -/
theorem arpRxDropsMalformed : Obligations.ArpRxDropsMalformed := by
  refine ⟨fun buf m s hshort => ?_, fun op p m s h => ?_, fun op p m s h h1 h2 => ?_⟩
  · rw [exec_arpRx, arpRx_short hshort]
    rfl
  · rw [exec_arpRx, arpRx_arpBytes, arpReceive_of_invalid h]
    rfl
  · rw [exec_arpRx, arpRx_arpBytes, arpReceive_of_badOpcode h h1 h2]
    rfl

/-- Settles O29: `ARP_RX` of the packet's bytes is R200 on its fields. -/
theorem arpRxLearnsFlushesAnswers : Obligations.ArpRxLearnsFlushesAnswers :=
  fun op p m s h hop => ⟨_, exec_arpRx (arpBytes op p) m s, arpRx_handled h hop⟩

/-- Settles O30: the two discriminators are R200 from the header test on. -/
theorem arpOpcodeSelectsHandling : Obligations.ArpOpcodeSelectsHandling := by
  intro p s
  rw [exec_arpOpRequest, exec_arpOpReply]
  refine ⟨fun h => ?_, fun h => ?_⟩
  · rw [arpReceive_of_valid h (.inl rfl), arpReceive_of_valid h (.inr rfl)]
    exact ⟨⟨_, rfl, arpHandled_arpLearnAndAnswer 1 p s⟩, ⟨_, rfl, arpHandled_arpLearnAndAnswer 2 p s⟩⟩
  · rw [arpReceive_of_invalid h, arpReceive_of_invalid h]
    exact ⟨rfl, rfl⟩

/-- Settles O31: the frame is dispatched to `ARP_RX` by its type, from `ETH_RX` and from `POLL` alike. -/
theorem arpFrameHandled : Obligations.ArpFrameHandled := by
  intro op p dst src s hlookup hvalid hop
  have hrx : ∀ u : State, u.cfg = s.cfg → u.registry = s.registry → u.now = s.now →
      ∃ t, ethRx (ethBytes dst src s.cfg.ethertypeArp (arpBytes op p)) u = .next t ∧ ArpHandled op p u t := by
    intro u hcfg hreg hnow
    have hu : registryLookup s.cfg.ethertypeArp u = some .arp := by
      rw [← hlookup, registryLookup, registryLookup, hreg, hnow]
    exact ⟨_, (ethRx_ethBytes ..).trans (dispatch_arp hu _ _), arpRx_handled (hcfg ▸ hvalid) hop⟩
  refine ⟨hrx s rfl rfl rfl, hrx s rfl rfl rfl, fun fs hdriver hcap => ?_⟩
  have hne : ethBytes dst src s.cfg.ethertypeArp (arpBytes op p) ≠ [] := List.cons_ne_nil _ _
  rw [exec_poll, execPoll_frame hdriver hne hcap]
  exact hrx _ rfl rfl rfl

/-- Settles O32: the second packet finds the first parked and is dropped; `ARP_RX` flushes the first within
its time, and after it a third is parked in the room the first has left. -/
theorem secondPacketSuppressed : Obligations.SecondPacketSuppressed := by
  intro first second ip s mid later hnone hp hroom hmid hbefore hlater
  have httl : 1 ≤ s.cfg.arpPendingTimeout := by omega
  have hparked : ∀ time, s.now ≤ time → pendingLookup ip { park ip first s with now := time }
      = if time < s.now + s.cfg.arpPendingTimeout then some first else none :=
    fun time => pendingLookup_park_self first hp hroom httl
  have hunknown : ∀ time, s.now ≤ time → arpLookup ip { park ip first s with now := time } = none :=
    fun time ht => arpLookup_none_later ht hnone
  let t := emit (.driverSend (requestFrame s.cfg ip)) (park ip first s)
  let u := drop .arpPendingBusy { t with now := mid }
  have hfirst : arpOut first ip s = t := arpOut_of_unresolved hnone hp first
  have hsecond : arpOut second ip { t with now := mid } = u := by
    have hstill : pendingLookup ip { t with now := mid } = some first := (hparked mid hmid).trans (if_pos hbefore)
    exact arpOut_of_pending (s := { t with now := mid }) (hunknown mid hmid) (by rw [hstill]; rfl) second
  have hlate : s.now ≤ later := Nat.le_trans hmid hlater
  refine ⟨t, u, by rw [exec_arpOut, hfirst], by rw [exec_arpOut, hsecond], ?_, hparked later hlate, ?_, ?_⟩
  · simp [t, u]
  · intro hwithin op p m hvalid hop hsender
    have hhandled : ArpHandled op p { u with now := later } (arpRx (arpBytes op p) { u with now := later }) :=
      arpRx_handled hvalid hop
    have hstill : pendingLookup p.senderIp { u with now := later } = some first := by
      rw [hsender]
      exact (hparked later hlate).trans (if_pos hwithin)
    refine ⟨_, exec_arpRx (arpBytes op p) m _, ?_, ?_⟩
    · rw [← hsender]
      exact hhandled.pendingLookup_sender
    · have hsent := hhandled.sent
      rw [hstill] at hsent
      exact hsent
  · intro hpassed third
    have hgone : pendingLookup ip { u with now := later } = none :=
      (hparked later hlate).trans (if_neg (Nat.not_lt.2 hpassed))
    have hthird := arpOut_of_unresolved (s := { u with now := later }) (hunknown later hlate) hgone third
    refine ⟨_, by rw [exec_arpOut, hthird], rfl, ?_⟩
    exact pendingLookup_park_now (s := { u with now := later }) third hgone
      (room_of_expired first hroom (by omega) hpassed)

/-- Settles O33: the entry's lifetime counts from the packet (`ArpHandled.arpLookup_sender`), and `ARP_OUT`
writes no address. -/
theorem learnedAddressExpires : Obligations.LearnedAddressExpires := by
  intro op p m buf s mid later httl hvalid hop hroom hmid hlater
  have hhandled : ArpHandled op p s (arpRx (arpBytes op p) s) := arpRx_handled hvalid hop
  generalize ht : arpRx (arpBytes op p) s = t at hhandled
  have hknown : ∀ time, s.now ≤ time → arpLookup p.senderIp { t with now := time }
      = if time < s.now + s.cfg.arpTimeout then some p.senderMac else none :=
    fun time => hhandled.arpLookup_sender hroom httl
  refine ⟨t, arpOut buf p.senderIp { t with now := mid }, by rw [exec_arpRx, ht], exec_arpOut .., ?_, ?_, ?_⟩
  · intro hwithin
    rw [arpOut_of_resolved ((hknown mid hmid).trans (if_pos hwithin)), emit, hhandled.cfg]
  · intro hpassed
    have hflushed : pendingLookup p.senderIp { t with now := mid } = none :=
      (hhandled.flushed p.senderIp mid hmid).trans (if_pos rfl)
    rw [arpOut_of_unresolved ((hknown mid hmid).trans (if_neg (Nat.not_lt.2 hpassed))) hflushed, hhandled.cfg]
    rfl
  · have hframe := arpOut_frame buf p.senderIp { t with now := mid }
    rw [← hknown later (Nat.le_trans hmid hlater), arpLookup, arpLookup, hframe.rest]

end Sys2Proof.Machine

/-! The checksum and the receive side of UDP: the tests of `UDP_RX` in their order, and what it does with a
datagram that passes them (40_primitives.md R131; 45_udp.md R251, R252, R260 to R264). -/

namespace Sys2Proof.Machine

-- One proof after another, not side by side: the check's memory limit leaves no room for more threads.
set_option deprecated.oldSectionVars true

/-! ## The checksum over the pseudo-header -/

theorem exec_udpCsum (buf : Bytes) (src dst : Ip) (s : State) :
    exec (.udpCsum buf src dst) s = .next { s with returned := udpChecksum s.cfg.ipprotoUdp buf src dst } := rfl

theorem wordSum_ip (a : Ip) (rest : Bytes) : wordSum (a.bytes ++ rest) = wordSum a.bytes + wordSum rest :=
  wordSum_append a.bytes rest (by rw [Ip.bytes_length])

/-- The sum does not depend on the order of its words, so the addresses may change places (R252). -/
theorem pseudoSum_comm (cfg : Cfg) (src dst : Ip) (b : Bytes) : pseudoSum cfg src dst b = pseudoSum cfg dst src b := by
  apply checksum16_congr
  simp only [List.append_assoc]
  rw [wordSum_ip, wordSum_ip, wordSum_ip, wordSum_ip]
  omega

/-! ## `UDP_RX`, a case for each of its ends -/

theorem udpRx_truncated {sport dport len checksum : BitVec 16} {data : Bytes} {src : Ip} {s : State}
    (h : 8 + data.length < len.toNat) :
    udpRx (udpBytes sport dport len checksum data) src s = .next (drop .udpTruncated s) := by
  rw [udpRx_udpBytes, if_pos h]

theorem udpRx_badChecksum {sport dport len checksum : BitVec 16} {data : Bytes} {src : Ip} {s : State}
    (hlen : len.toNat ≤ 8 + data.length)
    (h : pseudoSum s.cfg src s.cfg.ifIp (udpBytes sport dport len 0 data) ≠ checksum) :
    udpRx (udpBytes sport dport len checksum data) src s = .next (drop .udpBadChecksum s) := by
  rw [udpRx_udpBytes, if_neg (Nat.not_lt.2 hlen), if_pos h]

/-- A datagram for an open port is delivered (R263). -/
theorem udpRx_open {sport dport len checksum : BitVec 16} {data : Bytes} {src : Ip} {s : State}
    {h : ExtHandler} (hlen : len.toNat ≤ 8 + data.length)
    (hsum : pseudoSum s.cfg src s.cfg.ifIp (udpBytes sport dport len 0 data) = checksum)
    (hport : portLookup dport s = some h) :
    udpRx (udpBytes sport dport len checksum data) src s
      = callOut handlerReaction (.udpDeliver h data data.length src sport) s := by
  rw [udpRx_udpBytes, if_neg (Nat.not_lt.2 hlen), if_neg (not_not.2 hsum), hport]

/-- A datagram for a closed port is notified (R262). -/
theorem udpRx_closed {sport dport len checksum : BitVec 16} {data : Bytes} {src : Ip} {s : State}
    (hlen : len.toNat ≤ 8 + data.length)
    (hsum : pseudoSum s.cfg src s.cfg.ifIp (udpBytes sport dport len 0 data) = checksum)
    (hport : portLookup dport s = none) :
    udpRx (udpBytes sport dport len checksum data) src s
      = callOut icmpReaction (.icmpUnreachable (placeholder s.draws ++ udpBytes sport dport len checksum data) src
          s.cfg.icmpPortUnreach) { s with draws := s.draws + 1 } := by
  rw [udpRx_udpBytes, if_neg (Nat.not_lt.2 hlen), if_neg (not_not.2 hsum), hport, notify]

theorem udpRx_short {buf : Bytes} (h : buf.length < udpHdrLen) (src : Ip) (s : State) :
    udpRx buf src s = .next (drop .udpShort s) := if_pos h

@[simp] theorem placeholder_length (draw : Nat) : (placeholder draw).length = 20 := by
  simp [placeholder, ipHdrLen]

/-! ## The statements -/

/-- Settles O43: the folded sum is the witness (`foldCarries`). -/
theorem checksumIsOnesComplementSum : Obligations.ChecksumIsOnesComplementSum := by
  intro b
  have hle := foldCarries_le (wordSum b)
  refine ⟨foldCarries (wordSum b), hle, by rw [checksum16_toNat]; omega, foldCarries_mod _, fun h => ?_, fun h => ?_⟩
  · by_contra hne
    exact absurd h (foldCarries_pos (Nat.pos_of_ne_zero hne)).ne'
  · rw [h, foldCarries_zero]

/-- Settles O44: the result is `pseudoSum`, which is symmetric in the addresses. -/
theorem udpCsumReturnsPseudoHeaderSum : Obligations.UdpCsumReturnsPseudoHeaderSum := by
  intro buf src dst s
  rw [exec_udpCsum, exec_udpCsum, udpChecksum_eq_pseudoSum, udpChecksum_eq_pseudoSum, pseudoSum_comm s.cfg dst src]
  exact ⟨rfl, rfl⟩

/-- Settles O45: the three tests of `UDP_RX`, each ending in a `drop`. -/
theorem udpRxDropsInOrder : Obligations.UdpRxDropsInOrder := by
  refine ⟨fun buf src s hshort => ?_, fun sport dport len checksum data src s => ⟨fun h => ?_, fun hlen h => ?_⟩⟩
  · rw [exec_udpRx, udpRx_short hshort]
    rfl
  · rw [exec_udpRx, udpRx_truncated h]
    rfl
  · rw [exec_udpRx, udpRx_badChecksum hlen h]
    rfl

/-- Settles O46: delivery is a call out of the block to the port's handler. -/
theorem udpRxDelivers : Obligations.UdpRxDelivers := by
  intro sport dport len checksum data src h s hlen hsum hport
  rw [exec_udpRx, udpRx_open hlen hsum hport]
  exact ⟨fun hquiet => callOut_quiet hquiet, fun r rs hreact hallowed => callOut_handler_of_allowed hreact hallowed⟩

/-- Settles O47: the notification is a call out of the block to the ICMP collaborator, after one draw. -/
theorem closedPortNotifies : Obligations.ClosedPortNotifies := by
  intro sport dport len checksum data src s hlen hsum hport
  refine ⟨placeholder s.draws, placeholder_length _, ?_⟩
  rw [exec_udpRx, udpRx_closed hlen hsum hport]
  exact ⟨fun hquiet => callOut_quiet (s := { s with draws := s.draws + 1 }) hquiet,
    fun r rs hreact hallowed => callOut_icmp_of_allowed (s := { s with draws := s.draws + 1 }) hreact hallowed⟩

/-- Settles O49: the checksum field that `UDP_SEND` leaves is 0, and 0 is tested like any other. -/
theorem ownUdpDatagramNotAccepted : Obligations.OwnUdpDatagramNotAccepted := by
  intro data sport dport src s hdata hsum
  have hlen : (BitVec.ofNat 16 (8 + data.length)).toNat ≤ 8 + data.length := by
    rw [BitVec.toNat_ofNat]
    exact Nat.mod_le ..
  rw [exec_udpRx, udpRx_badChecksum hlen hsum]
  rfl

end Sys2Proof.Machine

/-! The receive side of IP: the tests of `IP_RX` in their order, and the way of an accepted datagram on, to a
handler of the block or out of it (44_ip.md R221 to R225; 30_encoding.md R103(c)). -/

namespace Sys2Proof.Machine

-- One proof after another, not side by side: the check's memory limit leaves no room for more threads.
set_option deprecated.oldSectionVars true

/-! ## The arms of `exec` used here -/

theorem exec_ipProtoUdp (d : Ipv4Operands) (s : State) :
    exec (.ipProtoUdp d) s = ipRx (ipv4Bytes s.cfg.ipprotoUdp d) s := rfl

theorem exec_ipProtoIcmp (d : Ipv4Operands) (s : State) :
    exec (.ipProtoIcmp d) s = ipRx (ipv4Bytes s.cfg.ipprotoIcmp d) s := rfl

/-! ## An accepted datagram -/

theorem ipRx_short {buf : Bytes} (h : buf.length < ipHdrLen) (s : State) : ipRx buf s = .next (drop .ipShort s) :=
  if_pos h

/-- Trimmed to its declared length and stripped of its header, a datagram is its payload (R224). -/
theorem removeHeader_take_ipv4Bytes {d : Ipv4Operands} (hheader : 5 ≤ d.hdrLen.toNat)
    (htotal : 4 * d.hdrLen.toNat ≤ d.totalLen.toNat) (proto : Byte) :
    removeHeader ((ipv4Bytes proto d).take d.totalLen.toNat) (4 * d.hdrLen.toNat) = payloadOf d := by
  have htake : (ipv4Bytes proto d).take 20 ++ d.rest = ipv4Bytes proto d := List.take_append_drop 20 _
  have hlen : ((ipv4Bytes proto d).take 20).length = 20 := rfl
  rw [removeHeader, payloadOf, ← htake, List.take_append, List.drop_append, hlen, List.take_of_length_le (by omega),
    List.drop_eq_nil_of_le (by omega), List.nil_append, hlen]

/-- What follows the notification, or the recognised protocol: the last test and `DISPATCH` (R221, R224). -/
def ipPassOn (proto : Byte) (d : Ipv4Operands) (s : State) : Answer :=
  if d.totalLen.toNat < 4 * d.hdrLen.toNat then .next (drop .ipBadTotalLen s)
  else dispatch (payloadOf d) (proto.setWidth 16) (.ip d.srcIp) s

/-- `IP_RX` of an accepted datagram notifies of a protocol that is not recognised, then passes it on (R225). -/
theorem ipRx_of_accepted {proto : Byte} {d : Ipv4Operands} {s : State} (h : IpAccepted s.cfg proto d) :
    ipRx (ipv4Bytes proto d) s =
      andThen (if s.cfg.ipRecognised.contains proto then .next s
        else notify s.cfg.icmpProtocolUnreach (ipv4Bytes proto d) d.srcIp s) (ipPassOn proto d) := by
  obtain ⟨hversion, hfits, hheader, hsum, hmine⟩ := h
  rw [ipRx_ipv4Bytes, if_neg (not_not.2 hversion), if_neg (Nat.not_lt.2 hfits), if_neg (Nat.not_lt.2 hheader),
    if_neg (not_not.2 hsum), if_neg (not_not.2 hmine)]
  unfold ipDeliver
  simp only [ipv4OperandsOf_ipv4Bytes, ipv4Bytes_protocol, trim_eq]
  congr 1
  funext u
  unfold ipPassOn
  split
  · rfl
  · next htotal => rw [removeHeader_take_ipv4Bytes hheader (Nat.le_of_not_lt htotal)]

theorem ipRx_recognised {proto : Byte} {d : Ipv4Operands} {s : State} (h : IpAccepted s.cfg proto d)
    (hproto : proto ∈ s.cfg.ipRecognised) : ipRx (ipv4Bytes proto d) s = ipPassOn proto d s := by
  rw [ipRx_of_accepted h, if_pos (List.contains_iff_mem.2 hproto), andThen_next]

theorem ipRx_unrecognised {proto : Byte} {d : Ipv4Operands} {s : State} (h : IpAccepted s.cfg proto d)
    (hproto : proto ∉ s.cfg.ipRecognised) :
    ipRx (ipv4Bytes proto d) s = andThen (callOut icmpReaction
      (.icmpUnreachable (ipv4Bytes proto d) d.srcIp s.cfg.icmpProtocolUnreach) s) (ipPassOn proto d) := by
  rw [ipRx_of_accepted h, if_neg (mt List.contains_iff_mem.1 hproto), notify]

theorem ipPassOn_of_le {d : Ipv4Operands} (h : 4 * d.hdrLen.toNat ≤ d.totalLen.toNat) (proto : Byte) (s : State) :
    ipPassOn proto d s = dispatch (payloadOf d) (proto.setWidth 16) (.ip d.srcIp) s := if_neg (Nat.not_lt.2 h)

/-! ## A UDP datagram on its way up -/

/-- The payload of a datagram without options that declares just its UDP datagram's length (R224). -/
theorem payloadOf_eq_udpBytes {d : Ipv4Operands} {sport dport len checksum : BitVec 16} {data pad : Bytes}
    (hheader : d.hdrLen = 5) (htotal : d.totalLen.toNat = 28 + data.length)
    (hrest : d.rest = udpBytes sport dport len checksum data ++ pad) :
    payloadOf d = udpBytes sport dport len checksum data := by
  have hlen := udpBytes_length sport dport len checksum data
  rw [payloadOf, hheader, htotal, hrest, List.take_left' (by omega)]
  rfl

/-- With right checksums, a recognised protocol, `UDP_RX` registered and an open port, `IP_RX` delivers the data
(R221; 45_udp.md R263). -/
theorem ipRx_udp_delivered {d : Ipv4Operands} {sport dport checksum : BitVec 16} {data pad : Bytes} {h : ExtHandler}
    {s : State} (haccepted : IpAccepted s.cfg s.cfg.ipprotoUdp d) (hheader : d.hdrLen = 5)
    (htotal : d.totalLen.toNat = 28 + data.length)
    (hrest : d.rest = udpBytes sport dport (BitVec.ofNat 16 (8 + data.length)) checksum data ++ pad)
    (hsum : pseudoSum s.cfg d.srcIp s.cfg.ifIp (udpBytes sport dport (BitVec.ofNat 16 (8 + data.length)) 0 data)
      = checksum)
    (hproto : s.cfg.ipprotoUdp ∈ s.cfg.ipRecognised)
    (hregistry : registryLookup (s.cfg.ipprotoUdp.setWidth 16) s = some .udp)
    (hport : portLookup dport s = some h) (hquiet : s.reactions = []) :
    ipRx (ipv4Bytes s.cfg.ipprotoUdp d) s
      = .next { s with out := s.out ++ [.udpDeliver h data data.length d.srcIp sport] } := by
  have hfits : 4 * d.hdrLen.toNat ≤ d.totalLen.toNat := by
    rw [hheader, htotal, show (5 : BitVec 4).toNat = 5 from rfl]; omega
  have hlen : (BitVec.ofNat 16 (8 + data.length)).toNat ≤ 8 + data.length := by
    rw [BitVec.toNat_ofNat]; exact Nat.mod_le ..
  rw [ipRx_recognised haccepted hproto, ipPassOn_of_le hfits, payloadOf_eq_udpBytes hheader htotal hrest,
    dispatch_udp hregistry]
  exact (udpRx_open hlen hsum hport).trans (callOut_quiet hquiet)

/-! ## The statements -/

/-- Settles O34: the branches of `IP_RX` in the order of R221 (`ipRx_ipv4Bytes`). -/
theorem ipRxDropsInOrder : Obligations.IpRxDropsInOrder := by
  refine ⟨fun buf m s hshort => ?_, fun proto d m s => ?_⟩
  · rw [exec_ipRx, ipRx_short hshort]
    rfl
  · simp only [exec_ipRx, ipRx_ipv4Bytes]
    split_ifs with hversion hlong hshort hsum hmine
    iterate 5 rfl
    exact ⟨not_not.1 hversion, Nat.le_of_not_lt hlong, Nat.le_of_not_lt hshort, not_not.1 hsum, not_not.1 hmine⟩

/-- Settles O35: an accepted datagram of a recognised protocol is passed on. -/
theorem ipRxDispatchesPayload : Obligations.IpRxDispatchesPayload := by
  intro proto d m s haccepted hproto
  simp only [exec_ipRx, exec_dispatch, ipRx_recognised haccepted hproto, ipPassOn]
  split_ifs <;> rfl

/-- Settles O36: the call out of the block comes first, and the datagram is passed on in the state it left. -/
theorem unrecognisedProtocolNotifiesThenDispatches : Obligations.UnrecognisedProtocolNotifiesThenDispatches := by
  intro proto d m s u haccepted hproto hcall
  have hcalled : callOut icmpReaction
      (.icmpUnreachable (ipv4Bytes proto d) d.srcIp s.cfg.icmpProtocolUnreach) s = .next u := by
    rcases hcall with ⟨hquiet, rfl⟩ | ⟨r, rs, hreact, hallowed, hu⟩
    · exact callOut_quiet hquiet
    · exact (callOut_icmp_of_allowed hreact hallowed).1.trans hu
  simp only [exec_ipRx, exec_dispatch, ipRx_unrecognised haccepted hproto, hcalled, andThen_next, ipPassOn]
  split_ifs <;> rfl

/-- Settles O52: the discriminator is `IP_RX` of the datagram's bytes. -/
theorem udpDatagramDelivered : Obligations.UdpDatagramDelivered := by
  intro d sport dport checksum data pad m h s haccepted hheader htotal hrest hsum hproto hregistry hport hquiet
  have hdelivered := ipRx_udp_delivered haccepted hheader htotal hrest hsum hproto hregistry hport hquiet
  exact ⟨hdelivered, hdelivered⟩

/-- Settles O53: `ETH_RX` dispatches the frame's payload to `IP_RX`, from the driver and as a unit alike. -/
theorem udpFrameDelivered : Obligations.UdpFrameDelivered := by
  intro d sport dport checksum data pad dst src h s haccepted hheader htotal hrest hsum hproto hip hregistry hport
    hquiet
  have hframe : ethRx (ethBytes dst src s.cfg.ethertypeIp (ipv4Bytes s.cfg.ipprotoUdp d)) s
      = .next { s with out := s.out ++ [.udpDeliver h data data.length d.srcIp sport] } := by
    rw [ethRx_ethBytes, dispatch_ip hip]
    exact ipRx_udp_delivered haccepted hheader htotal hrest hsum hproto hregistry hport hquiet
  refine ⟨hframe, hframe, fun fs hdriver hcap => ?_⟩
  have hne : ethBytes dst src s.cfg.ethertypeIp (ipv4Bytes s.cfg.ipprotoUdp d) ≠ [] := List.cons_ne_nil _ _
  have hlen : (ethBytes dst src s.cfg.ethertypeIp (ipv4Bytes s.cfg.ipprotoUdp d)).length ≤ s.cfg.rxBufCap := by
    rw [ethBytes_length, ipv4Bytes_length]; omega
  rw [exec_poll, execPoll_frame hdriver hne hlen, ethRx_ethBytes]
  exact (dispatch_ip (s := { s with driverRx := fs, rxScratch := _ }) hip _ _).trans
    (ipRx_udp_delivered (s := { s with driverRx := fs, rxScratch := _ })
      haccepted hheader htotal hrest hsum hproto hregistry hport hquiet)

/-- Settles O54: a recognised protocol is passed on, and the registry decides. -/
theorem icmpDatagramByRegistry : Obligations.IcmpDatagramByRegistry := by
  intro d s haccepted hfits hproto
  have hon : exec (.ipProtoIcmp d) s = dispatch (payloadOf d) (s.cfg.ipprotoIcmp.setWidth 16) (.ip d.srcIp) s := by
    rw [exec_ipProtoIcmp, ipRx_recognised haccepted hproto, ipPassOn_of_le hfits]
  refine ⟨hon, fun n hext hquiet => ?_, fun hnone => ?_⟩
  · rw [hon, dispatch_ext hext]
    exact callOut_quiet hquiet
  · rw [hon, dispatch_none hnone]
    rfl

/-- Settles O57: at each of the four calls out of the block the reaction is run by `runAll`, which the first
command that is not allowed refuses. -/
theorem forbiddenReactionsRefused : Obligations.ForbiddenReactionsRefused := by
  intro before after c rs s hreact
  refine ⟨fun hbefore hc => ?_, fun hbefore hc => ?_⟩
  · obtain ⟨why, hwhy, hrefused⟩ := handlerReaction_refused hc
    have hcall := callOut_refused hreact (fun b hb => handlerReaction_completes (hbefore b hb)) hrefused
    refine ⟨why, hwhy, fun buf proto a n hlookup => ?_, fun sport dport len checksum data src h hlen hsum hport => ?_⟩
    · rw [exec_dispatch, dispatch_ext hlookup, hcall]
    · rw [exec_udpRx, udpRx_open hlen hsum hport, hcall]
  · obtain ⟨why, hwhy, hrefused⟩ := icmpReaction_refused hc
    have hcall : ∀ (u : State) (e : Event), u.reactions = (before ++ c :: after) :: rs →
        callOut icmpReaction e u = .refused why := fun u e hu =>
      callOut_refused hu (fun b hb => icmpReaction_completes (hbefore b hb)) hrefused e
    refine ⟨why, hwhy, fun sport dport len checksum data src hlen hsum hport => ?_,
      fun proto d m haccepted hproto => ?_⟩
    · rw [exec_udpRx, udpRx_closed hlen hsum hport]
      exact hcall _ _ hreact
    · rw [exec_ipRx, ipRx_unrecognised haccepted hproto, hcall _ _ hreact, andThen_refused]

end Sys2Proof.Machine

/-! One flipped bit in the header of an accepted datagram: it changes the version, or leaves a header length that
is not possible, or the checksum no longer matches, since it changes the sum of the header's words by a power of two
below 2^16 or else the checksum field alone (44_ip.md R221, R227; 40_primitives.md R131). -/

namespace Sys2Proof.Machine

-- One proof after another, not side by side: the check's memory limit leaves no room for more threads.
set_option deprecated.oldSectionVars true

/-! ## Numbers that differ by one bit of a 16-bit word -/

/-- The two numbers differ by 2^0, .. or 2^15. -/
def differByBit (a b : Nat) : Prop := ∃ j ≤ 15, a = b + 2 ^ j ∨ b = a + 2 ^ j

theorem differByBit.add_left {a b : Nat} (h : differByBit a b) (c : Nat) : differByBit (c + a) (c + b) := by
  obtain ⟨j, hj, h⟩ := h
  exact ⟨j, hj, by omega⟩

theorem differByBit.add_right {a b : Nat} (h : differByBit a b) (c : Nat) : differByBit (a + c) (b + c) := by
  obtain ⟨j, hj, h⟩ := h
  exact ⟨j, hj, by omega⟩

/-- A power of two below 2^16 is no multiple of 65535. -/
theorem differByBit.mod_ne {a b : Nat} (h : differByBit a b) : a % 65535 ≠ b % 65535 := by
  obtain ⟨j, hj, h⟩ := h
  have hlow : 1 ≤ 2 ^ j := Nat.one_le_two_pow
  have hhigh : 2 ^ j ≤ 2 ^ 15 := Nat.pow_le_pow_right (by decide) hj
  omega

theorem xor_one_differ (q : Nat) : q ^^^ 1 = q + 1 ∨ q = (q ^^^ 1) + 1 := by
  have hdiv : (q ^^^ 1) / 2 = q / 2 := by rw [Nat.xor_div_two]; simp
  have hmod : (q ^^^ 1) % 2 = 1 ↔ ¬ q % 2 = 1 := by rw [Nat.xor_mod_two_eq_one]; simp
  omega

theorem xor_two_pow_differ (a i : Nat) : a ^^^ 2 ^ i = a + 2 ^ i ∨ a = (a ^^^ 2 ^ i) + 2 ^ i := by
  have hpos : 0 < 2 ^ i := Nat.two_pow_pos i
  have hdiv : (a ^^^ 2 ^ i) / 2 ^ i = a / 2 ^ i ^^^ 1 := by rw [Nat.xor_div_two_pow, Nat.div_self hpos]
  have hmod : (a ^^^ 2 ^ i) % 2 ^ i = a % 2 ^ i := by rw [Nat.xor_mod_two_pow, Nat.mod_self, Nat.xor_zero]
  have ha := Nat.div_add_mod a (2 ^ i)
  have hx := Nat.div_add_mod (a ^^^ 2 ^ i) (2 ^ i)
  rw [hdiv, hmod] at hx
  rcases xor_one_differ (a / 2 ^ i) with h | h
  · left; rw [h, Nat.mul_add] at hx; omega
  · right; rw [h, Nat.mul_add] at ha; omega

/-! ## A flipped byte -/

/-- The mask of bit `k` of a byte, from the most significant on. -/
theorem mask_toNat : ∀ {k : Nat}, k < 8 → (0x80#8 >>> k).toNat = 2 ^ (7 - k) := by decide

theorem mask_high_ne_zero : ∀ {k : Nat}, k < 4 → (0x80#8 >>> k).extractLsb' 4 4 ≠ 0#4 := by decide

theorem mask_low : ∀ {k : Nat}, k < 8 → 4 ≤ k → (0x80#8 >>> k).extractLsb' 0 4 = 0x8#4 >>> (k - 4) := by decide

theorem flipped_byte_toNat (x : Byte) {k : Nat} (h : k < 8) :
    (x ^^^ (0x80#8 >>> k)).toNat = x.toNat + 2 ^ (7 - k) ∨ x.toNat = (x ^^^ (0x80#8 >>> k)).toNat + 2 ^ (7 - k) := by
  rw [BitVec.toNat_xor, mask_toNat h]
  exact xor_two_pow_differ ..

theorem flipped_byte_ne (x : Byte) {k : Nat} (h : k < 8) : x ^^^ (0x80#8 >>> k) ≠ x := by
  intro he
  have := flipped_byte_toNat x h
  have hpos : 0 < 2 ^ (7 - k) := Nat.two_pow_pos _
  rw [he] at this
  omega

/-- Bits 0 to 3 are the high nibble. -/
theorem flipped_byte_high_ne (x : Byte) {k : Nat} (h : k < 4) :
    (x ^^^ (0x80#8 >>> k)).extractLsb' 4 4 ≠ x.extractLsb' 4 4 := by
  rw [BitVec.extractLsb'_xor]
  intro he
  exact mask_high_ne_zero h ((BitVec.xor_right_inj (x.extractLsb' 4 4)).1 (he.trans BitVec.xor_zero.symm))

/-- Bits 4 to 7 are the low one. -/
theorem flipped_byte_low (x : Byte) {k : Nat} (h4 : 4 ≤ k) (h8 : k < 8) :
    (x ^^^ (0x80#8 >>> k)).extractLsb' 0 4 = x.extractLsb' 0 4 ^^^ (0x8#4 >>> (k - 4)) := by
  rw [BitVec.extractLsb'_xor, mask_low h8 h4]

/-! ## A flipped byte string -/

@[simp] theorem flipBit_length (b : Bytes) (k : Nat) : (flipBit b k).length = b.length := List.length_modify ..

theorem byteAt_flipBit_self {b : Bytes} {k : Nat} (h : k / 8 < b.length) :
    byteAt (flipBit b k) (k / 8) = byteAt b (k / 8) ^^^ (0x80#8 >>> (k % 8)) := by
  simp [byteAt, flipBit, List.getD_eq_getElem?_getD, h]

theorem byteAt_flipBit_other {b : Bytes} {k i : Nat} (h : i ≠ k / 8) : byteAt (flipBit b k) i = byteAt b i := by
  simp [byteAt, flipBit, List.getD_eq_getElem?_getD, List.getElem?_modify_ne _ _ h.symm]

/-- One flipped bit changes the sum of the words by that bit's weight in its word. -/
theorem wordSum_flipBit (b : Bytes) (k : Nat) (h : k / 8 < b.length) :
    differByBit (wordSum (flipBit b k)) (wordSum b) := by
  induction b using wordSum.induct generalizing k with
  | case1 => simp at h
  | case2 hi =>
    have hk : k / 8 = 0 := by simpa using h
    have hflip := flipped_byte_toNat hi (k := k % 8) (by omega)
    refine ⟨8 + (7 - k % 8), by omega, ?_⟩
    simp only [flipBit, hk, List.modify_zero_cons, wordSum, Nat.pow_add]
    omega
  | case3 hi lo rest ih =>
    obtain hk | hk | hk : k / 8 = 0 ∨ k / 8 = 1 ∨ 2 ≤ k / 8 := by omega
    · have hflip := flipped_byte_toNat hi (k := k % 8) (by omega)
      refine ⟨8 + (7 - k % 8), by omega, ?_⟩
      simp only [flipBit, hk, List.modify_zero_cons, wordSum, Nat.pow_add]
      omega
    · have hflip := flipped_byte_toNat lo (k := k % 8) (by omega)
      refine ⟨7 - k % 8, by omega, ?_⟩
      simp only [flipBit, hk, List.modify_succ_cons, List.modify_zero_cons, wordSum]
      omega
    · obtain ⟨n, rfl⟩ : ∃ n, k = n + 16 := ⟨k - 16, by omega⟩
      have hrest : flipBit (hi :: lo :: rest) (n + 16) = hi :: lo :: flipBit rest n := by
        simp only [flipBit, show (n + 16) / 8 = n / 8 + 1 + 1 by omega, show (n + 16) % 8 = n % 8 by omega,
          List.modify_succ_cons]
      rw [hrest, wordSum, wordSum]
      exact (ih n (by simp only [List.length_cons] at h; omega)).add_left _

/-! ## The recomputed checksum of a flipped header -/

theorem ext_byteAt {a b : Bytes} (hlen : a.length = b.length) (h : ∀ i < a.length, byteAt a i = byteAt b i) :
    a = b := by
  apply List.ext_getElem hlen
  intro i ha hb
  have hi := h i ha
  rwa [byteAt, byteAt, List.getD_eq_getElem _ _ ha, List.getD_eq_getElem _ _ hb] at hi

theorem byteAt_take {b : Bytes} {i n : Nat} (h : i < n) : byteAt (b.take n) i = byteAt b i := by
  simp [byteAt, List.getD_eq_getElem?_getD, h]

/-- The header with its checksum field zeroed, which `IP_RX` sums (R221). -/
def zeroedHeader (b : Bytes) (hlen : Nat) : Bytes := (putBe16 b 10 0).take hlen

theorem zeroedHeader_length {b : Bytes} {hlen : Nat} (h : 12 ≤ b.length) (hl : hlen ≤ b.length) :
    (zeroedHeader b hlen).length = hlen := by
  simp only [zeroedHeader, putBe16, writeAt, bytes16_length, List.length_take, List.length_append, List.length_drop]
  omega

theorem byteAt_zeroedHeader {b : Bytes} {hlen i : Nat} (hb : 12 ≤ b.length) (hi : i < hlen) :
    byteAt (zeroedHeader b hlen) i = if i = 10 ∨ i = 11 then 0 else byteAt b i := by
  rw [zeroedHeader, byteAt_take hi, putBe16]
  split
  · next h =>
    rcases h with rfl | rfl
    · exact byteAt_writeAt (i := 10) (j := 0) (by omega) (by decide)
    · exact byteAt_writeAt (i := 10) (j := 1) (by omega) (by decide)
  · exact byteAt_writeAt_outside hb (by rw [bytes16_length]; omega)

/-- A flip inside the checksum field is not in the sum. -/
theorem zeroedHeader_flipBit_field {b : Bytes} {hlen k : Nat} (hb : 12 ≤ b.length) (hl : hlen ≤ b.length)
    (hk : k / 8 = 10 ∨ k / 8 = 11) : zeroedHeader (flipBit b k) hlen = zeroedHeader b hlen := by
  have hb' : 12 ≤ (flipBit b k).length := by rwa [flipBit_length]
  have hlen' : (zeroedHeader (flipBit b k) hlen).length = hlen := zeroedHeader_length hb' (by rwa [flipBit_length])
  refine ext_byteAt (hlen'.trans (zeroedHeader_length hb hl).symm) fun i hi => ?_
  rw [hlen'] at hi
  rw [byteAt_zeroedHeader hb' hi, byteAt_zeroedHeader hb hi]
  split
  · rfl
  · exact byteAt_flipBit_other (by omega)

/-- Any other flip in the header is one flip in what is summed. -/
theorem zeroedHeader_flipBit_other {b : Bytes} {hlen k : Nat} (hb : 12 ≤ b.length) (hl : hlen ≤ b.length)
    (hk : k / 8 < hlen) (h10 : k / 8 ≠ 10) (h11 : k / 8 ≠ 11) :
    zeroedHeader (flipBit b k) hlen = flipBit (zeroedHeader b hlen) k := by
  have hb' : 12 ≤ (flipBit b k).length := by rwa [flipBit_length]
  have hlen' : (zeroedHeader (flipBit b k) hlen).length = hlen := zeroedHeader_length hb' (by rwa [flipBit_length])
  have hlen0 := zeroedHeader_length hb hl
  refine ext_byteAt (by rw [flipBit_length, hlen', hlen0]) fun i hi => ?_
  rw [hlen'] at hi
  rw [byteAt_zeroedHeader hb' hi]
  by_cases hik : i = k / 8
  · subst hik
    rw [if_neg (by omega), byteAt_flipBit_self (by omega), byteAt_flipBit_self (by omega),
      byteAt_zeroedHeader hb hk, if_neg (by omega)]
  · rw [byteAt_flipBit_other hik, byteAt_flipBit_other hik, byteAt_zeroedHeader hb hi]

theorem word16_ne {hi lo hi' lo' : Byte} (h : hi ≠ hi' ∨ lo ≠ lo') : word16 hi lo ≠ word16 hi' lo' := by
  intro he
  have hbytes : [hi, lo] = [hi', lo'] := by rw [← bytes16_word16, ← bytes16_word16, he]
  simp only [List.cons.injEq, and_true] at hbytes
  exact h.elim (absurd hbytes.1) (absurd hbytes.2)

/-- A bit flipped behind byte 0 and inside the header: the recomputed checksum is not the field's (R227). -/
theorem checksum_mismatch_of_flipBit {b : Bytes} {hlen k : Nat} (hb : 12 ≤ b.length) (hl : hlen ≤ b.length)
    (hk : k / 8 < hlen) (hsum : ipHeaderChecksum b hlen = be16At b 10) :
    ipHeaderChecksum (flipBit b k) hlen ≠ be16At (flipBit b k) 10 := by
  have hsum : checksum16 (zeroedHeader b hlen) = be16At b 10 := hsum
  show checksum16 (zeroedHeader (flipBit b k) hlen) ≠ _
  by_cases hfield : k / 8 = 10 ∨ k / 8 = 11
  · rw [zeroedHeader_flipBit_field hb hl hfield, hsum]
    have hflip := byteAt_flipBit_self (b := b) (k := k) (by omega)
    have hne := flipped_byte_ne (byteAt b (k / 8)) (k := k % 8) (by omega)
    refine word16_ne ?_
    rcases hfield with h10 | h11
    · left; rw [h10] at hflip hne; rw [hflip]; exact hne.symm
    · right; rw [h11] at hflip hne; rw [hflip]; exact hne.symm
  · rw [not_or] at hfield
    have hsame : be16At (flipBit b k) 10 = be16At b 10 := by
      rw [be16At, be16At, byteAt_flipBit_other (by omega), byteAt_flipBit_other (by omega)]
    rw [hsame, ← hsum, zeroedHeader_flipBit_other hb hl hk hfield.1 hfield.2]
    have hin : k / 8 < (zeroedHeader b hlen).length := by rw [zeroedHeader_length hb hl]; exact hk
    exact checksum16_ne (wordSum_flipBit _ _ hin).mod_ne

/-! ## The statement -/

/-- After a flip in byte 0 the version is another one, or `hdr_len` is the flipped one; after any other it is as
before. -/
theorem hdrLen_of_flipBit {b : Bytes} {k : Nat} (hb : 0 < b.length) :
    (k < 4 → (ipv4OperandsOf (flipBit b k)).version ≠ (ipv4OperandsOf b).version) ∧
    (4 ≤ k → k < 8 → (ipv4OperandsOf (flipBit b k)).hdrLen.toNat = flippedHdrLen (ipv4OperandsOf b) k) ∧
    (8 ≤ k → (ipv4OperandsOf (flipBit b k)).hdrLen = (ipv4OperandsOf b).hdrLen) := by
  have hself : k < 8 → byteAt (flipBit b k) 0 = byteAt b 0 ^^^ (0x80#8 >>> k) := by
    intro hk
    have hflip := byteAt_flipBit_self (b := b) (k := k) (by omega)
    rwa [Nat.div_eq_of_lt hk, Nat.mod_eq_of_lt hk] at hflip
  refine ⟨fun hk => ?_, fun h4 h8 => ?_, fun hk => ?_⟩
  · simp only [ipv4OperandsOf, hself (by omega)]
    exact flipped_byte_high_ne _ hk
  · simp only [ipv4OperandsOf, flippedHdrLen, hself h8, flipped_byte_low _ h4 h8]
  · simp only [ipv4OperandsOf, byteAt_flipBit_other (b := b) (k := k) (i := 0) (by omega)]

/-- Settles O37: a datagram that `IP_RX` does not drop has passed all its tests (`ipRxWith_cases`), and each flip
fails one. -/
theorem headerBitFlipDropped : Obligations.HeaderBitFlipDropped := by
  intro proto d m s k haccepted hk hhdrLen
  obtain ⟨hversion, hfits, hheader, hsum, _⟩ := haccepted
  have hlen := ipv4Bytes_length proto d
  have hoperands := ipv4OperandsOf_ipv4Bytes proto d
  obtain ⟨hlow, hmiddle, hhigh⟩ := hdrLen_of_flipBit (b := ipv4Bytes proto d) (k := k) (by omega)
  rw [hoperands] at hlow hmiddle hhigh
  rw [exec_ipRx, ipRx]
  rcases ipRxWith_cases dispatch (flipBit (ipv4Bytes proto d) k) s with ⟨reason, hdrop⟩ | ⟨hpassed, _⟩
  · exact ⟨reason, hdrop⟩
  · exfalso
    obtain h4 | ⟨h4, h8⟩ | h8 : k < 4 ∨ (4 ≤ k ∧ k < 8) ∨ 8 ≤ k := by omega
    · exact hlow h4 (hpassed.version.trans hversion.symm)
    · have hlong := hpassed.hdrlenLong
      have hshort := hpassed.hdrlenShort
      rw [hmiddle h4 h8, flipBit_length, hlen] at hlong
      rw [hmiddle h4 h8] at hshort
      have := hhdrLen h4 h8
      omega
    · have hpass := hpassed.checksum
      rw [hhigh h8] at hpass
      have hfield : ipHeaderChecksum (ipv4Bytes proto d) (4 * d.hdrLen.toNat) = be16At (ipv4Bytes proto d) 10 := by
        rw [ipHeaderChecksum_ipv4Bytes, hsum]
        exact (congrArg Ipv4Operands.checksum hoperands).symm
      exact checksum_mismatch_of_flipBit (by omega) (by omega) (by omega) hfield hpass

end Sys2Proof.Machine

/-! The transmit side of IP: the header a datagram leaves with, and the fragments of `IP_SEND`, their arithmetic and
what becomes of them in each state of the destination (44_ip.md R229 to R233; 43_arp.md R196 to R198). -/

namespace Sys2Proof.Machine

-- One proof after another, not side by side: the check's memory limit leaves no room for more threads.
set_option deprecated.oldSectionVars true

/-! ## The checksum of a transmitted header -/

/-- With its own checksum added in, a sum that is not 0 folds to 0xFFFF (R232; 40_primitives.md R131). -/
theorem checksum16_eq_zero_of_filled {a b : Bytes} (hpos : 0 < wordSum a)
    (h : wordSum b = wordSum a + (checksum16 a).toNat) : checksum16 b = 0 := by
  have hle := foldCarries_le (wordSum a)
  have hmod := foldCarries_mod (wordSum a)
  have hle' := foldCarries_le (wordSum b)
  have hmod' := foldCarries_mod (wordSum b)
  have hpos' : 0 < foldCarries (wordSum b) := foldCarries_pos (by omega)
  rw [checksum16_toNat] at h
  apply BitVec.eq_of_toNat_eq
  rw [checksum16_toNat]
  show _ = 0
  omega

/-- The field adds its value to the sum of the header's words. -/
theorem wordSum_header (proto : Byte) (d : Ipv4Operands) :
    wordSum ((ipv4Bytes proto d).take 20)
      = wordSum ((ipv4Bytes proto { d with checksum := 0 }).take 20) + d.checksum.toNat := by
  have hsum : ∃ others, ∀ c : BitVec 16,
      wordSum ((ipv4Bytes proto { d with checksum := c }).take 20) = others + c.toNat := by
    refine ⟨wordSum ([d.version ++ d.hdrLen, d.tos] ++ bytes16 d.totalLen ++ bytes16 d.id ++ bytes16 d.flagsFrag
      ++ [d.ttl, proto]) + wordSum (d.srcIp.bytes ++ d.dstIp.bytes), fun c => ?_⟩
    have hsplit : (ipv4Bytes proto { d with checksum := c }).take 20
        = ([d.version ++ d.hdrLen, d.tos] ++ bytes16 d.totalLen ++ bytes16 d.id ++ bytes16 d.flagsFrag
          ++ [d.ttl, proto]) ++ (bytes16 c ++ (d.srcIp.bytes ++ d.dstIp.bytes)) := rfl
    rw [hsplit, wordSum_append _ (bytes16 c ++ _) (by simp), wordSum_append (bytes16 c) _ (by simp), wordSum_bytes16]
    omega
  obtain ⟨others, hsum⟩ := hsum
  rw [hsum 0]
  exact hsum d.checksum

/-! ## Fragment arithmetic (R230) -/

theorem fragCap_of_legal {cfg : Cfg} (h : cfg.legal = true) :
    0 < cfg.fragCap ∧ cfg.fragCap % 8 = 0 ∧ cfg.fragCap + 20 = cfg.ethMtu := by
  simp only [Cfg.legal, Bool.and_eq_true, decide_eq_true_eq, and_assoc] at h
  obtain ⟨hmtu, hmod, _⟩ := h
  simp only [Cfg.fragCap, ipHdrLen] at *
  omega

/-- Fragment `k` is the first, or starts inside the payload. -/
theorem lt_fragmentCount_iff {cfg : Cfg} (hcap : 0 < cfg.fragCap) (len k : Nat) :
    k < fragmentCount cfg len ↔ k = 0 ∨ k * cfg.fragCap < len := by
  rw [fragmentCount]
  split
  · next hfits =>
    rcases Nat.eq_zero_or_pos k with rfl | hk
    · simp
    · have : cfg.fragCap ≤ k * cfg.fragCap := Nat.le_mul_of_pos_left _ hk
      omega
  · next hlong =>
    rw [Nat.lt_iff_add_one_le, Nat.le_div_iff_mul_le hcap, Nat.add_mul, Nat.one_mul]
    rcases Nat.eq_zero_or_pos k with rfl | hk
    · omega
    · omega

theorem fragmentCount_pos {cfg : Cfg} (hcap : 0 < cfg.fragCap) (len : Nat) : 0 < fragmentCount cfg len :=
  (lt_fragmentCount_iff hcap len 0).2 (.inl rfl)

theorem le_fragmentCount_mul {cfg : Cfg} (hcap : 0 < cfg.fragCap) (len : Nat) :
    len ≤ fragmentCount cfg len * cfg.fragCap := by
  have hlast := mt (lt_fragmentCount_iff hcap len (fragmentCount cfg len)).2 (Nat.lt_irrefl _)
  omega

theorem ipv4Bytes_drop (proto : Byte) (d : Ipv4Operands) : (ipv4Bytes proto d).drop 20 = d.rest := rfl

theorem fragmentBytes_drop (cfg : Cfg) (buf : Bytes) (dip : Ip) (proto : Byte) (id : BitVec 16) (k : Nat) :
    (fragmentBytes cfg buf dip proto id k).drop 20 = (buf.drop (k * cfg.fragCap)).take cfg.fragCap := by
  rw [fragmentBytes, datagramBytes, ipv4Bytes_drop, sentDatagram]

theorem fragmentBytes_length (cfg : Cfg) (buf : Bytes) (dip : Ip) (proto : Byte) (id : BitVec 16) (k : Nat) :
    (fragmentBytes cfg buf dip proto id k).length = 20 + min cfg.fragCap (buf.length - k * cfg.fragCap) := by
  rw [fragmentBytes, datagramBytes, ipv4Bytes_length]
  simp [sentDatagram]

/-- The first `n` pieces of `cap` bytes in a row. -/
theorem flatMap_pieces (buf : Bytes) (cap n : Nat) :
    (List.range n).flatMap (fun k => (buf.drop (k * cap)).take cap) = buf.take (n * cap) := by
  induction n with
  | zero => simp
  | succ n ih => rw [List.range_succ, List.flatMap_append, ih, Nat.add_mul, Nat.one_mul, List.take_add]; simp

theorem flatMap_fragments {cfg : Cfg} (hcap : 0 < cfg.fragCap) (buf : Bytes) (dip : Ip) (proto : Byte)
    (id : BitVec 16) :
    (List.range (fragmentCount cfg buf.length)).flatMap (fun k => (fragmentBytes cfg buf dip proto id k).drop 20)
      = buf := by
  simp only [fragmentBytes_drop]
  rw [flatMap_pieces, List.take_of_length_le (le_fragmentCount_mul hcap _)]

/-! ## The loop of `IP_SEND` -/

/-- Fragment after fragment, by number, each handed to `ARP_OUT`. -/
def sendFragments (cfg : Cfg) (buf : Bytes) (dip : Ip) (proto : Byte) (id : BitVec 16) (ks : List Nat) (s : State) :
    State :=
  ks.foldl (fun u k => arpOut (fragmentBytes cfg buf dip proto id k) dip u) s

/-- The loop from fragment `k` on sends the fragments from `k` on, whatever bound is enough (R229, R230). -/
theorem ipFragments_eq_sendFragments {cfg : Cfg} (hcap : 0 < cfg.fragCap) (buf : Bytes) (dip : Ip) (proto : Byte)
    (id : BitVec 16) : ∀ (n k : Nat) (s : State), s.cfg = cfg → k < fragmentCount cfg buf.length →
      (buf.drop (k * cfg.fragCap)).length ≤ n →
      ipFragments dip proto id n (buf.drop (k * cfg.fragCap)) (k * cfg.fragCap) s
        = sendFragments cfg buf dip proto id (List.range' k (fragmentCount cfg buf.length - k)) s := by
  have hlast : ∀ (k : Nat) (s : State), s.cfg = cfg → k < fragmentCount cfg buf.length →
      (buf.drop (k * cfg.fragCap)).length ≤ cfg.fragCap →
      ipFragTx (buf.drop (k * cfg.fragCap)) dip proto id (BitVec.ofNat 16 (k * cfg.fragCap)) false s
        = sendFragments cfg buf dip proto id (List.range' k (fragmentCount cfg buf.length - k)) s := by
    intro k s hcfg hk hfits
    have hnext : ¬ k + 1 < fragmentCount cfg buf.length := by
      rw [lt_fragmentCount_iff hcap, Nat.add_mul, Nat.one_mul]
      rw [List.length_drop] at hfits
      omega
    have hone : fragmentCount cfg buf.length - k = 1 := by omega
    rw [hone, ipFragTx, ipDatagram_eq_datagramBytes, hcfg]
    simp only [sendFragments, List.range'_one, List.foldl_cons, List.foldl_nil, fragmentBytes, hnext, decide_false,
      List.take_of_length_le hfits]
  intro n
  induction n with
  | zero =>
    intro k s hcfg hk hn
    exact hlast k s hcfg hk (by omega)
  | succ n ih =>
    intro k s hcfg hk hn
    rw [ipFragments, hcfg]
    split
    · next hmore =>
      rw [List.length_drop] at hmore hn
      have hnext : k + 1 < fragmentCount cfg buf.length := by
        rw [lt_fragmentCount_iff hcap, Nat.add_mul, Nat.one_mul]
        omega
      have hfirst : ipFragTx ((buf.drop (k * cfg.fragCap)).take cfg.fragCap) dip proto id
          (BitVec.ofNat 16 (k * cfg.fragCap)) true s = arpOut (fragmentBytes cfg buf dip proto id k) dip s := by
        simp only [ipFragTx, ipDatagram_eq_datagramBytes, hcfg, fragmentBytes, hnext, decide_true]
      have hcount : fragmentCount cfg buf.length - k = (fragmentCount cfg buf.length - (k + 1)) + 1 := by omega
      rw [hfirst, List.drop_drop, hcount, List.range'_succ, sendFragments, List.foldl_cons,
        show k * cfg.fragCap + cfg.fragCap = (k + 1) * cfg.fragCap by rw [Nat.add_mul, Nat.one_mul]]
      refine ih (k + 1) _ ?_ hnext ?_
      · rw [(arpOut_frame _ dip s).cfg, hcfg]
      · rw [List.length_drop, Nat.add_mul, Nat.one_mul]; omega
    · next hdone => exact hlast k s hcfg hk (by omega)

/-- `IP_SEND` sends every fragment, and `IP_ID` is one further (R229). -/
theorem ipSend_eq_sendFragments {s : State} (hcap : 0 < s.cfg.fragCap) (buf : Bytes) (dip : Ip) (proto : Byte) :
    ipSend buf dip proto s = { sendFragments s.cfg buf dip proto s.ipId
      (List.range (fragmentCount s.cfg buf.length)) s with ipId := s.ipId + 1 } := by
  have hloop := ipFragments_eq_sendFragments hcap buf dip proto s.ipId buf.length 0 s rfl
    (fragmentCount_pos hcap _) (by rw [List.length_drop]; omega)
  rw [Nat.zero_mul, List.drop_zero, Nat.sub_zero, ← List.range_eq_range'] at hloop
  have hid := ipFragments_ipId dip proto s.ipId buf.length buf 0 s
  rw [hloop] at hid
  rw [ipSend, hloop, hid]

/-- Where every fragment only emits an event, whatever has been emitted before, all of them only do that. -/
theorem sendFragments_emits {cfg : Cfg} {buf : Bytes} {dip : Ip} {proto : Byte} {id : BitVec 16} {s : State}
    {e : Nat → Event}
    (h : ∀ k out, arpOut (fragmentBytes cfg buf dip proto id k) dip { s with out := out }
      = emit (e k) { s with out := out }) :
    ∀ ks : List Nat, sendFragments cfg buf dip proto id ks s = { s with out := s.out ++ ks.map e } := by
  have hall : ∀ (ks : List Nat) (out : List Event), sendFragments cfg buf dip proto id ks { s with out := out }
      = { s with out := out ++ ks.map e } := by
    intro ks
    induction ks with
    | nil => intro out; simp [sendFragments]
    | cons k ks ih =>
      intro out
      rw [sendFragments, List.foldl_cons, h k out]
      refine (ih (out ++ [e k])).trans ?_
      rw [List.append_assoc]
      rfl
  exact fun ks => hall ks s.out

/-- To a Pending destination every fragment is dropped (43_arp.md R198). -/
theorem sendFragments_of_pending {dip : Ip} {s : State} (hnone : arpLookup dip s = none)
    (hp : (pendingLookup dip s).isSome) (cfg : Cfg) (buf : Bytes) (proto : Byte) (id : BitVec 16) (ks : List Nat) :
    sendFragments cfg buf dip proto id ks s
      = { s with out := s.out ++ List.replicate ks.length (.drop .arpPendingBusy) } := by
  rw [sendFragments_emits (e := fun _ => .drop .arpPendingBusy)
    (fun k out => arpOut_of_pending (s := { s with out := out }) hnone hp _), List.map_const']

/-- To an Unresolved destination with room the first is parked and requested for, and the others find it there
(43_arp.md R197(f), R198). -/
theorem sendFragments_of_unresolved {dip : Ip} {s : State} (hnone : arpLookup dip s = none)
    (hp : pendingLookup dip s = none)
    (hroom : Table.count s.cfg.arpPendingTimeout s.now s.arpPending < s.cfg.arpPendingCap)
    (cfg : Cfg) (buf : Bytes) (proto : Byte) (id : BitVec 16) (k : Nat) (ks : List Nat) :
    sendFragments cfg buf dip proto id (k :: ks) s
      = { park dip (fragmentBytes cfg buf dip proto id k) s with
          out := s.out ++ .driverSend (requestFrame s.cfg dip)
            :: List.replicate ks.length (.drop .arpPendingBusy) } := by
  let t := emit (.driverSend (requestFrame s.cfg dip)) (park dip (fragmentBytes cfg buf dip proto id k) s)
  have hunknown : arpLookup dip t = none := hnone
  have hparked : pendingLookup dip t = some (fragmentBytes cfg buf dip proto id k) :=
    pendingLookup_park_now _ hp hroom
  calc sendFragments cfg buf dip proto id (k :: ks) s = sendFragments cfg buf dip proto id ks t := by
        rw [sendFragments, List.foldl_cons, arpOut_of_unresolved hnone hp, sendFragments]
    _ = { t with out := t.out ++ List.replicate ks.length (.drop .arpPendingBusy) } :=
        sendFragments_of_pending hunknown (by rw [hparked]; rfl) ..
    _ = _ := by simp [t, emit]

/-- A packet that the full store does not take leaves it as it is (40_primitives.md R143). -/
theorem park_of_full {ip : Ip} {s : State} (hp : pendingLookup ip s = none)
    (hfull : s.cfg.arpPendingCap ≤ Table.count s.cfg.arpPendingTimeout s.now s.arpPending) (buf : Bytes) :
    park ip buf s = s := by
  have hfail : (Table.set s.cfg.arpPendingTimeout s.cfg.arpPendingCap s.now (ipKey ip) buf s.arpPending).1
      = s.arpPending := Table.set_failed ((Table.set_fails_iff ..).2 ⟨hp, hfull⟩)
  rw [park, hfail]

/-! ## The statements -/

theorem exec_ipFragTx (buf : Bytes) (dip : Ip) (proto : Byte) (id off : BitVec 16) (mf : Bool) (s : State) :
    exec (.ipFragTx buf dip proto id off mf) s = .next (ipFragTx buf dip proto id off mf s) := rfl

/-- Settles O38: the field is the checksum of the rest, and version and header length are no zero byte. -/
theorem transmittedHeaderVerifies : Obligations.TransmittedHeaderVerifies := by
  intro cfg payload dip proto id off mf
  refine checksum16_eq_zero_of_filled
    (a := (ipv4Bytes proto (sentDatagram cfg payload dip id off mf 0)).take 20) ?_ (wordSum_header proto _)
  have hfirst : ((4#4 ++ 5#4 : BitVec 8)).toNat = 69 := rfl
  show 0 < (4#4 ++ 5#4 : BitVec 8).toNat * 256 + _ + wordSum _
  omega

/-- Settles O39: the datagram written field by field is `datagramBytes`, and `ARP_OUT` sends it on. -/
theorem ipFragTxBuildsDatagram : Obligations.IpFragTxBuildsDatagram := by
  intro buf dip proto id off mf s
  rw [exec_ipFragTx, exec_arpOut, ipFragTx, ipDatagram_eq_datagramBytes]
  refine ⟨rfl, fun mac hmac => ?_⟩
  rw [arpOut_of_resolved hmac, emit]

/-- Settles O40: each fragment is one frame (`arpOut_of_resolved`). -/
theorem ipSendToResolved : Obligations.IpSendToResolved := by
  intro buf dip proto mac s hlegal hlen hmac
  obtain ⟨hcap, _⟩ := fragCap_of_legal hlegal
  have hframe : ∀ k out, arpOut (fragmentBytes s.cfg buf dip proto s.ipId k) dip { s with out := out }
      = emit (.driverSend (paddedFrame s.cfg mac s.cfg.ethertypeIp (fragmentBytes s.cfg buf dip proto s.ipId k)))
          { s with out := out } := fun k out => arpOut_of_resolved (s := { s with out := out }) hmac _
  rw [exec_ipSend_of_le hlen, ipSend_eq_sendFragments hcap, sendFragments_emits hframe]

/-- Settles O41: the first fragment meets the destination as it is, the others as the first has left it. -/
theorem ipSendToUnresolved : Obligations.IpSendToUnresolved := by
  intro buf dip proto s hlegal hlen hnone
  obtain ⟨hcap, _⟩ := fragCap_of_legal hlegal
  rw [exec_ipSend_of_le hlen, ipSend_eq_sendFragments hcap]
  refine ⟨fun hp => ?_, fun hp hroom => ?_, fun hp hfull => ?_⟩
  · rw [sendFragments_of_pending hnone hp, List.length_range]
  · obtain ⟨n, hn⟩ : ∃ n, fragmentCount s.cfg buf.length = n + 1 :=
      ⟨_, (Nat.succ_pred_eq_of_pos (fragmentCount_pos hcap _)).symm⟩
    rw [hn, List.range_succ_eq_map, sendFragments_of_unresolved hnone hp hroom, List.length_map, List.length_range]
    refine ⟨_, rfl, rfl, fun a time ht => ?_⟩
    have hpark := pendingLookup_park (fragmentBytes s.cfg buf dip proto s.ipId 0) hp a time ht
    simp only [hroom, and_true] at hpark
    exact hpark
  · have hrequest : ∀ k out, arpOut (fragmentBytes s.cfg buf dip proto s.ipId k) dip { s with out := out }
        = emit (.driverSend (requestFrame s.cfg dip)) { s with out := out } := fun k out => by
      rw [arpOut_of_unresolved (s := { s with out := out }) hnone hp,
        park_of_full (s := { s with out := out }) hp hfull]
    rw [sendFragments_emits hrequest, List.map_const', List.length_range]

/-- Settles O42: the fragments are the pieces of `fragCap` bytes behind 20 bytes of header each. -/
theorem fragmentsCoverPayload : Obligations.FragmentsCoverPayload := by
  intro cfg buf dip proto id hlegal hlen
  obtain ⟨hcap, hmod, hmtu⟩ := fragCap_of_legal hlegal
  have hcover := flatMap_fragments hcap buf dip proto id
  refine ⟨hcover, fun k hk => ⟨?_, ?_, ?_, fun hnext => ?_⟩, ?_⟩
  · rw [fragmentBytes_length]; omega
  · rw [Nat.mul_mod, hmod, Nat.mul_zero, Nat.zero_mod]
  · have h8 : (k * cfg.fragCap) % 8 = 0 := by rw [Nat.mul_mod, hmod, Nat.mul_zero, Nat.zero_mod]
    rcases (lt_fragmentCount_iff hcap _ k).1 hk with rfl | hstart
    · omega
    · omega
  · rcases (lt_fragmentCount_iff hcap _ _).1 hnext with h0 | hstart
    · omega
    · rw [Nat.add_mul, Nat.one_mul] at hstart
      rw [fragmentBytes_length]; omega
  · have hpayloads := congrArg List.length hcover
    rw [List.length_flatMap] at hpayloads
    have hheader : ∀ k, (fragmentBytes cfg buf dip proto id k).length
        = 20 + ((fragmentBytes cfg buf dip proto id k).drop 20).length := fun k => by
      rw [List.length_drop, fragmentBytes_length]; omega
    simp only [fun k => hheader k]
    rw [List.sum_map_add, hpayloads, List.map_const', List.sum_replicate, List.length_range, smul_eq_mul]

end Sys2Proof.Machine

/-! The receive path as a whole: one rule for what all of its operations answer and keep, and from it that they
complete and what they change (70_reset_and_hazards.md R336; 60_exceptions.md R283, R291). -/

namespace Sys2Proof.Machine

-- One proof after another, not side by side: the check's memory limit leaves no room for more threads.
set_option deprecated.oldSectionVars true

/-! ## The rule -/

/-- What to show of a relation over the basic changes of the receive path, in states that a condition holds of, so
that each operation of the path answers a next state in that relation. Unlike `Closed` it asks that a call out of the
block completes, and says nothing of the commands that only a reaction runs. -/
structure ReceiveRule (Q : State → Prop) (R : State → State → Prop) : Prop where
  refl : ∀ s, R s s
  trans : ∀ {a b c}, R a b → R b c → R a c
  keeps : ∀ {s t}, Q s → R s t → Q t
  drop : ∀ r s, R s (drop r s)
  learnAnswer : ∀ op p s, R s (arpLearnAndAnswer op p s)
  draw : ∀ s, R s { s with draws := s.draws + 1 }
  handlerCall : ∀ e s, Q s → ∃ t, callOut handlerReaction e s = .next t ∧ R s t
  notification : ∀ e s, Q s → ∃ t, callOut icmpReaction e s = .next t ∧ R s t

namespace ReceiveRule

theorem arpRx {Q : State → Prop} {R : State → State → Prop} (h : ReceiveRule Q R)
    (buf : Bytes) (s : State) : R s (arpRx buf s) := by
  rcases arpRx_cases buf s with ⟨r, e⟩ | e <;> rw [e]
  · exact h.drop r s
  · exact h.learnAnswer _ _ s

theorem arpReceive {Q : State → Prop} {R : State → State → Prop} (h : ReceiveRule Q R)
    (op : BitVec 16) (p : ArpOperands) (s : State) :
    R s (arpReceive op p s) := by
  rcases arpReceive_cases op p s with ⟨r, e⟩ | e <;> rw [e]
  · exact h.drop r s
  · exact h.learnAnswer op p s

theorem udpRx {Q : State → Prop} {R : State → State → Prop} (h : ReceiveRule Q R)
    (buf : Bytes) (a : Ip) {s : State} (hs : Q s) :
    ∃ t, udpRx buf a s = .next t ∧ R s t := by
  unfold Sys2Proof.Machine.udpRx
  split
  · exact ⟨_, rfl, h.drop _ s⟩
  split
  · exact ⟨_, rfl, h.drop _ s⟩
  split
  · exact ⟨_, rfl, h.drop _ s⟩
  unfold udpDeliver
  split
  · obtain ⟨t, ht, hr⟩ := h.notification (.icmpUnreachable (placeholder s.draws ++ buf) a s.cfg.icmpPortUnreach)
      { s with draws := s.draws + 1 } (h.keeps hs (h.draw s))
    exact ⟨t, ht, h.trans (h.draw s) hr⟩
  · exact h.handlerCall _ s hs

theorem ipRxWith {Q : State → Prop} {R : State → State → Prop} (h : ReceiveRule Q R)
    {k : Bytes → BitVec 16 → SrcAddr → State → Answer}
    (hk : ∀ b p a s, Q s → ∃ t, k b p a s = .next t ∧ R s t) (buf : Bytes) {s : State} (hs : Q s) :
    ∃ t, ipRxWith k buf s = .next t ∧ R s t := by
  rcases ipRxWith_cases k buf s with ⟨r, e⟩ | ⟨_, e⟩ <;> rw [e]
  · exact ⟨_, rfl, h.drop r s⟩
  · have hnotified : ∃ u, (if s.cfg.ipRecognised.contains (byteAt buf 9) then .next s
        else notify s.cfg.icmpProtocolUnreach buf (ipv4OperandsOf buf).srcIp s) = .next u ∧ R s u := by
      split
      · exact ⟨s, rfl, h.refl s⟩
      · exact h.notification _ s hs
    obtain ⟨u, hu, hr⟩ := hnotified
    unfold ipDeliver
    simp only []
    rw [hu, andThen_next]
    split
    · exact ⟨_, rfl, h.trans hr (h.drop _ u)⟩
    · obtain ⟨t, ht, hr'⟩ := hk _ _ _ u (h.keeps hs hr)
      exact ⟨t, ht, h.trans hr hr'⟩

theorem dispatchWithin {Q : State → Prop} {R : State → State → Prop} (h : ReceiveRule Q R)
    (n : Nat) : ∀ (buf : Bytes) (p : BitVec 16) (a : SrcAddr) (s : State),
    Q s → ∃ t, dispatchWithin n buf p a s = .next t ∧ R s t := by
  induction n with
  | zero =>
    intro buf p a s hs
    unfold Sys2Proof.Machine.dispatchWithin
    split
    · exact ⟨_, rfl, h.drop _ s⟩
    · exact ⟨_, rfl, h.arpRx buf s⟩
    · exact h.udpRx buf _ hs
    · exact h.handlerCall _ s hs
    · exact h.ipRxWith (fun _ _ _ u _ => ⟨u, rfl, h.refl u⟩) buf hs
  | succ n ih =>
    intro buf p a s hs
    unfold Sys2Proof.Machine.dispatchWithin
    split
    · exact ⟨_, rfl, h.drop _ s⟩
    · exact ⟨_, rfl, h.arpRx buf s⟩
    · exact h.udpRx buf _ hs
    · exact h.handlerCall _ s hs
    · exact h.ipRxWith ih buf hs

theorem dispatch {Q : State → Prop} {R : State → State → Prop} (h : ReceiveRule Q R)
    (buf : Bytes) (p : BitVec 16) (a : SrcAddr) (s : State) (hs : Q s) :
    ∃ t, dispatch buf p a s = .next t ∧ R s t := h.dispatchWithin _ buf p a s hs

theorem ipRx {Q : State → Prop} {R : State → State → Prop} (h : ReceiveRule Q R)
    (buf : Bytes) {s : State} (hs : Q s) : ∃ t, ipRx buf s = .next t ∧ R s t :=
  h.ipRxWith h.dispatch buf hs

theorem ethRx {Q : State → Prop} {R : State → State → Prop} (h : ReceiveRule Q R)
    (frame : Bytes) {s : State} (hs : Q s) :
    ∃ t, ethRx frame s = .next t ∧ R s t := by
  unfold Sys2Proof.Machine.ethRx
  split
  · exact ⟨_, rfl, h.drop _ s⟩
  · exact h.dispatch _ _ _ s hs

/-- Every instruction of the receive path. -/
theorem exec {Q : State → Prop} {R : State → State → Prop} (h : ReceiveRule Q R)
    {i : Instr} (hi : receives i = true) {s : State} (hs : Q s) :
    ∃ t, exec i s = .next t ∧ R s t := by
  cases i with
  | ethRx f => exact h.ethRx f hs
  | dispatch b p a => exact h.dispatch b p a s hs
  | arpRx b m => exact ⟨_, rfl, h.arpRx b s⟩
  | ipRx b m => exact h.ipRx b hs
  | udpRx b a => exact h.udpRx b a hs
  | ethTypeArp d m p => exact h.ethRx (ethBytes d m s.cfg.ethertypeArp p) hs
  | ethTypeIp d m p => exact h.ethRx (ethBytes d m s.cfg.ethertypeIp p) hs
  | arpOpRequest p => exact ⟨_, rfl, h.arpReceive arpOpRequestCode p s⟩
  | arpOpReply p => exact ⟨_, rfl, h.arpReceive arpOpReplyCode p s⟩
  | ipProtoUdp d => exact h.ipRx (ipv4Bytes s.cfg.ipprotoUdp d) hs
  | ipProtoIcmp d => exact h.ipRx (ipv4Bytes s.cfg.ipprotoIcmp d) hs
  | _ => cases hi

end ReceiveRule

/-! ## With reactions that any party may hold -/

/-- A call out of the block takes at most one reaction, of commands that complete and take none. -/
theorem callOut_of_reactionsAllowed {run : Instr → State → Answer}
    (hrun : ∀ c, allowedToIcmp c = true → ∀ u, run c u = exec c u) (e : Event) {s : State}
    (h : reactionsAllowed s) : ∃ t, callOut run e s = .next t ∧ reactionsAllowed t := by
  cases hreact : s.reactions with
  | nil =>
    refine ⟨emit e s, callOut_quiet hreact, ?_⟩
    rw [reactionsAllowed, emit_reactions]
    exact h
  | cons r rs =>
    rw [reactionsAllowed, hreact] at h
    have hr : ∀ c ∈ r, allowedToIcmp c = true := h r List.mem_cons_self
    have hallowed : ∀ c ∈ r, allowedToHandler c = true := fun c hc => allowedToHandler_of_allowedToIcmp (hr c hc)
    obtain ⟨t, ht, hframe⟩ := execAll_of_allowed hallowed { s with out := s.out ++ [e], reactions := rs }
    refine ⟨t, (callOut_of_allowed hreact (fun c hc => hrun c (hr c hc)) hallowed).1.trans ht, ?_⟩
    rw [reactionsAllowed, hframe.rest]
    exact fun r' hr' => h r' (List.mem_cons_of_mem r hr')

theorem arpLearnAndAnswer_reactions (op : BitVec 16) (p : ArpOperands) (s : State) :
    (arpLearnAndAnswer op p s).reactions = s.reactions := by rw [(arpHandled_arpLearnAndAnswer op p s).rest]

/-- With reactions of legal `IP_SEND`s only, the receive path completes and leaves such reactions. -/
theorem receiveRule_reactionsAllowed :
    ReceiveRule reactionsAllowed (fun s t => reactionsAllowed s → reactionsAllowed t) where
  refl _ := id
  trans h h' := h' ∘ h
  keeps hs h := h hs
  drop _ _ := id
  learnAnswer op p s h := by
    rw [reactionsAllowed, arpLearnAndAnswer_reactions]
    exact h
  draw _ := id
  handlerCall e s h := by
    obtain ⟨t, ht, hallowed⟩ := callOut_of_reactionsAllowed
      (fun c hc => handlerReaction_of_allowed (allowedToHandler_of_allowedToIcmp hc)) e h
    exact ⟨t, ht, fun _ => hallowed⟩
  notification e s h := by
    obtain ⟨t, ht, hallowed⟩ := callOut_of_reactionsAllowed (fun c hc => icmpReaction_of_allowed hc) e h
    exact ⟨t, ht, fun _ => hallowed⟩

/-! ## With no reaction pending -/

/-- What the receive path changes where no reaction is pending: the ARP tables, the events and the draws. -/
def receiveFrame (s t : State) : Prop :=
  t = { s with arpTable := t.arpTable, arpPending := t.arpPending, out := t.out, draws := t.draws }

theorem receiveFrame.trans {a b c : State} (h : receiveFrame a b) (h' : receiveFrame b c) : receiveFrame a c := by
  rw [receiveFrame] at *
  rw [h', h]

theorem callOut_receiveFrame {run : Instr → State → Answer} (e : Event) {s : State} (h : s.reactions = []) :
    ∃ t, callOut run e s = .next t ∧ receiveFrame s t := ⟨emit e s, callOut_quiet h, rfl⟩

theorem receiveRule_receiveFrame : ReceiveRule (fun s => s.reactions = []) receiveFrame where
  refl _ := rfl
  trans := receiveFrame.trans
  keeps hs h := by rw [h]; exact hs
  drop _ _ := rfl
  learnAnswer op p s := by
    have hrest := (arpHandled_arpLearnAndAnswer op p s).rest
    rw [receiveFrame, hrest]
  draw _ := rfl
  handlerCall e _ h := callOut_receiveFrame e h
  notification e _ h := callOut_receiveFrame e h

/-! ## The statements -/

/-- Settles O59: the receive rule for reactions of legal `IP_SEND`s. -/
theorem receivePathCompletes : Obligations.ReceivePathCompletes := by
  intro i s hi hreactions
  obtain ⟨t, ht, _⟩ := receiveRule_reactionsAllowed.exec hi hreactions
  exact ⟨t, ht⟩

/-- Settles O60: the receive rule for no reactions, and `POLL` before it takes the frame from the driver. -/
theorem receivePathFrame : Obligations.ReceivePathFrame := by
  intro i s t hquiet hexec
  refine ⟨fun hi => ?_, ?_⟩
  · obtain ⟨u, hu, hframe⟩ := receiveRule_receiveFrame.exec hi hquiet
    rw [hu] at hexec
    cases hexec
    exact hframe
  · rintro rfl
    rw [exec_poll, execPoll] at hexec
    split at hexec
    · cases hexec; rfl
    · next f fs hdriver =>
      split at hexec
      · cases hexec
      · split at hexec
        · obtain ⟨u, hu, hframe⟩ := receiveRule_receiveFrame.ethRx f
            (s := { s with driverRx := fs, rxScratch := f }) hquiet
          rw [hu] at hexec
          cases hexec
          rw [hframe]
        · cases hexec; rfl

end Sys2Proof.Machine

/-! What no instruction takes back, `INIT` from an empty registry, and that an accepted command completes
(10_state.md R24, R26, R28, R35, R38; 70_reset_and_hazards.md R322, R336). -/

namespace Sys2Proof.Machine

-- One proof after another, not side by side: the check's memory limit leaves no room for more threads.
set_option deprecated.oldSectionVars true

/-! ## What no instruction takes back -/

/-- What is true across any instruction: configuration, time and sequencer stay, events are only appended,
`inited` and registrations only come. -/
structure Advanced (s t : State) : Prop where
  cfg : t.cfg = s.cfg
  now : t.now = s.now
  seq : t.seq = s.seq
  events : ∃ es, t.out = s.out ++ es
  inited : s.inited = true → t.inited = true
  registered : ∀ k, (registryLookup k s).isSome → (registryLookup k t).isSome

theorem Advanced.trans {a b c : State} (h : Advanced a b) (h' : Advanced b c) : Advanced a c where
  cfg := h'.cfg.trans h.cfg
  now := h'.now.trans h.now
  seq := h'.seq.trans h.seq
  events := by
    obtain ⟨es, he⟩ := h.events
    obtain ⟨es', he'⟩ := h'.events
    exact ⟨es ++ es', by rw [he', he, List.append_assoc]⟩
  inited := h'.inited ∘ h.inited
  registered k := h'.registered k ∘ h.registered k

/-- An update that leaves all of this alone but for events and `inited`. -/
theorem Advanced.of_fields {s t : State} (hcfg : t.cfg = s.cfg) (hnow : t.now = s.now) (hseq : t.seq = s.seq)
    (hout : ∃ es, t.out = s.out ++ es) (hinited : s.inited = true → t.inited = true)
    (hregistry : t.registry = s.registry) : Advanced s t :=
  ⟨hcfg, hnow, hseq, hout, hinited, fun k hk => by rw [registryLookup, hnow, hregistry]; exact hk⟩

/-- An update of fields that `Advanced` does not speak of. -/
theorem Advanced.of_unspoken {s t : State} (hcfg : t.cfg = s.cfg) (hnow : t.now = s.now) (hseq : t.seq = s.seq)
    (hout : t.out = s.out) (hinited : t.inited = s.inited) (hregistry : t.registry = s.registry) : Advanced s t :=
  .of_fields hcfg hnow hseq ⟨[], by simpa using hout⟩ hinited.trans hregistry

theorem advanced_closed : Closed Advanced where
  refl _ := .of_unspoken rfl rfl rfl rfl rfl rfl
  trans := Advanced.trans
  emit e _ := .of_fields rfl rfl rfl ⟨[e], rfl⟩ id rfl
  setIpId _ _ := .of_unspoken rfl rfl rfl rfl rfl rfl
  park _ _ _ _ := .of_unspoken rfl rfl rfl rfl rfl rfl
  learnAnswer op p s := by
    obtain ⟨hrest, _, _, hsent⟩ := arpHandled_arpLearnAndAnswer op p s
    exact .of_fields (by rw [hrest]) (by rw [hrest]) (by rw [hrest]) ⟨_, hsent⟩ (by rw [hrest]; exact id)
      (by rw [hrest])
  registrySet p h _ := ⟨rfl, rfl, rfl, ⟨[], by simp⟩, id, fun _ => registryLookup_registrySet_isSome p h⟩
  portSet _ _ _ := .of_unspoken rfl rfl rfl rfl rfl rfl
  portDelete _ _ := .of_unspoken rfl rfl rfl rfl rfl rfl
  reactions _ _ := .of_unspoken rfl rfl rfl rfl rfl rfl
  draws _ _ := .of_unspoken rfl rfl rfl rfl rfl rfl

theorem exec_advanced {i : Instr} {s t : State} (h : exec i s = .next t) : Advanced s t :=
  exec_closed advanced_closed (fun _ _ => .of_unspoken rfl rfl rfl rfl rfl rfl)
    (fun _ => .of_fields rfl rfl rfl ⟨[], by simp⟩ (fun _ => rfl) rfl)
    (fun _ _ => .of_unspoken rfl rfl rfl rfl rfl rfl) (fun _ _ _ => .of_unspoken rfl rfl rfl rfl rfl rfl) h

/-- A step latches a command and its later time, or advances under an instruction. -/
theorem step_accepts_or_advances {s t : State} (h : step s = .next t) :
    (∃ port time seq, s.now ≤ time ∧ t = { s with hostPort := port, now := time, seq := seq }) ∨
    ∃ rest u, Advanced { s with seq := rest } u ∧ t = settle u := by
  obtain ⟨_, ⟨_, haccept⟩ | ⟨f, rest, i, u, _, _, hexec, ht⟩⟩ := step_eq_next h
  · rcases accept_eq_next haccept with ⟨_, rfl⟩ | ⟨r, rs, i, _, _, _, htime, _, _, rfl⟩
    · exact .inl ⟨t.hostPort, t.now, t.seq, Nat.le_refl _, rfl⟩
    · exact .inl ⟨_, _, _, htime, rfl⟩
  · exact .inr ⟨rest, u, exec_advanced hexec, ht⟩

/-! ## `INIT` -/

theorem exec_init (s : State) : exec .init s = execInit s := rfl

theorem count_registrySet_le (p : BitVec 16) (h : Handler) (s : State) :
    Table.count 0 s.now (registrySet p h s).registry ≤ Table.count 0 s.now s.registry + 1 := by
  rw [registrySet_registry]
  rcases Table.set_cases 0 s.cfg.registryCap s.now p.toNat h s.registry with ⟨_, he⟩ | ⟨_, _, he⟩ <;> rw [he]
  · exact Table.count_put_le s.registry
  · exact Nat.le_succ _

theorem registryLookup_registrySet_of_room {proto : BitVec 16} {s : State}
    (hroom : Table.count 0 s.now s.registry < s.cfg.registryCap) (k : BitVec 16) (h : Handler) :
    registryLookup k (registrySet proto h s) = if k = proto then some h else registryLookup k s := by
  simp [registryLookup_registrySet, hroom]

/-- A legal configuration's registry has room for three keys, and the three that `INIT` registers are distinct
(00_scope.md R8(d), (g)). -/
theorem init_keys_of_legal {cfg : Cfg} (h : cfg.legal = true) :
    3 ≤ cfg.registryCap ∧ cfg.ethertypeIp ≠ cfg.ethertypeArp ∧ cfg.ipprotoUdp.setWidth 16 ≠ cfg.ethertypeArp ∧
      cfg.ipprotoUdp.setWidth 16 ≠ cfg.ethertypeIp := by
  simp only [Cfg.legal, Bool.and_eq_true, decide_eq_true_eq, List.nodup_cons, List.mem_cons, not_or] at h
  obtain ⟨⟨⟨⟨⟨⟨_, hkeys⟩, _⟩, _⟩, _, _, hregistry, _⟩, _⟩, _⟩ := h
  obtain ⟨⟨hipArp, hipUdp, _⟩, ⟨harpUdp, _⟩, _⟩ := hkeys
  exact ⟨hregistry, hipArp, Ne.symm harpUdp, Ne.symm hipUdp⟩

/-- The registrations of `INIT` (70_reset_and_hazards.md R322). -/
def initRegistrations (s : State) : State :=
  registrySet (s.cfg.ipprotoUdp.setWidth 16) .udp (registrySet s.cfg.ethertypeIp .ip
    (registrySet s.cfg.ethertypeArp .arp s))

theorem initRegistrations_eq (s : State) :
    initRegistrations s = { s with registry := (initRegistrations s).registry } := rfl

theorem execInit_eq (s : State) : execInit s = .next { s with
    registry := (initRegistrations s).registry
    inited := true
    out := s.out ++ [.driverSend (requestFrame s.cfg s.cfg.ifIp)] } := by
  show Host.Outcome.next { arpReq s.cfg.ifIp (initRegistrations s) with inited := true } = _
  rw [arpReq_eq_emit, initRegistrations_eq, emit]

/-- Into an empty registry each of the three goes. -/
theorem registryLookup_initRegistrations {s : State} (hlegal : s.cfg.legal = true) (hempty : s.registry = [])
    (k : BitVec 16) : registryLookup k (initRegistrations s) =
      if k = s.cfg.ethertypeArp then some .arp
      else if k = s.cfg.ethertypeIp then some .ip
      else if k = s.cfg.ipprotoUdp.setWidth 16 then some .udp
      else none := by
  obtain ⟨hcap, hip, hudpArp, hudpIp⟩ := init_keys_of_legal hlegal
  have hcount : Table.count 0 s.now s.registry = 0 := by rw [hempty]; rfl
  have hcount1 := count_registrySet_le s.cfg.ethertypeArp .arp s
  have hcount2 := count_registrySet_le s.cfg.ethertypeIp .ip (registrySet s.cfg.ethertypeArp .arp s)
  rw [registrySet_now] at hcount2
  have hnone : registryLookup k s = none := by rw [registryLookup, hempty]; rfl
  rw [initRegistrations,
    registryLookup_registrySet_of_room (by rw [registrySet_now, registrySet_now]; simp only [registrySet_cfg]; omega),
    registryLookup_registrySet_of_room (by rw [registrySet_now, registrySet_cfg]; omega),
    registryLookup_registrySet_of_room (by omega), hnone]
  by_cases hkArp : k = s.cfg.ethertypeArp
  · simp [hkArp, hip.symm, hudpArp.symm]
  by_cases hkIp : k = s.cfg.ethertypeIp
  · simp [hkIp, hip, hudpIp.symm]
  · simp [hkArp, hkIp]

/-! ## Every command completes -/

/-- `POLL` completes where the driver keeps its contract (10_state.md R41). -/
theorem execPoll_completes {s : State} (hreactions : reactionsAllowed s)
    (hdriver : ∀ f ∈ s.driverRx, f.length ≤ s.cfg.rxBufCap) : ∃ t, execPoll s = .next t := by
  match hrx : s.driverRx with
  | [] => exact ⟨s, execPoll_nil hrx⟩
  | [] :: fs => exact ⟨_, execPoll_empty hrx⟩
  | (b :: bs) :: fs =>
    have hcap : (b :: bs).length ≤ s.cfg.rxBufCap := hdriver _ (by rw [hrx]; exact List.mem_cons_self)
    obtain ⟨t, ht, _⟩ := receiveRule_reactionsAllowed.ethRx (b :: bs)
      (s := { s with driverRx := fs, rxScratch := b :: bs }) hreactions
    exact ⟨t, (execPoll_frame hrx (List.cons_ne_nil b bs) hcap).trans ht⟩

/-- A command with legal operands completes. -/
theorem command_completes {i : Instr} (hcommand : i.isCommand = true) (hoperands : i.wellFormed = true) {s : State}
    (hreactions : reactionsAllowed s) (hdriver : ∀ f ∈ s.driverRx, f.length ≤ s.cfg.rxBufCap) :
    ∃ t, exec i s = .next t := by
  have hissued (hissue : handlerMayIssue i = true) : ∃ t, exec i s = .next t := by
    obtain ⟨t, ht, _⟩ := exec_of_allowedToHandler (Bool.and_eq_true_iff.2 ⟨hissue, hoperands⟩) s
    exact ⟨t, ht⟩
  cases i with
  | init => exact ⟨_, execInit_eq s⟩
  | poll => exact execPoll_completes hreactions hdriver
  | register _ _ | udpOpen _ _ | udpClose _ | udpSend _ _ _ _ | ipSend _ _ _ => exact hissued rfl
  | _ => cases hcommand

/-! ## The statements -/

/-- Settles O14: a step accepts, or advances. -/
theorem stepNeverGoesBack : Obligations.StepNeverGoesBack := by
  intro s t h
  rcases step_accepts_or_advances h with ⟨_, _, _, htime, rfl⟩ | ⟨_, u, hadvanced, rfl⟩
  · exact ⟨rfl, htime, ⟨[], by simp⟩, id⟩
  · exact ⟨hadvanced.cfg, Nat.le_of_eq hadvanced.now.symm, hadvanced.events, hadvanced.inited⟩

/-- Settles O15: a step accepts, or advances. -/
theorem registrationsStay : Obligations.RegistrationsStay := by
  intro s t k h hk
  rcases step_accepts_or_advances h with ⟨_, time, _, _, rfl⟩ | ⟨_, u, hadvanced, rfl⟩
  · exact (registryLookup_now k s time).symm ▸ hk
  · exact hadvanced.registered k hk

/-- Settles O55: `INIT` as one update, and what its registrations leave under each key. -/
theorem initRegistersAndAnnounces : Obligations.InitRegistersAndAnnounces := by
  intro s hlegal
  exact ⟨_, execInit_eq s, rfl, registryLookup_initRegistrations hlegal⟩

/-- Settles O16: the sequencer holds one legal command (`Inv.sequencer`), which completes. -/
theorem acceptedCommandCompletes : Obligations.AcceptedCommandCompletes := by
  intro s hinv hbusy hreactions hdriver
  obtain hidle | ⟨b, i, hseq, hdecode, hcommand, hoperands, _⟩ := hinv.sequencer
  · exact absurd hidle hbusy
  · obtain ⟨t, ht⟩ := command_completes hcommand hoperands (s := { s with seq := [] }) hreactions hdriver
    refine ⟨settle t, ?_, (exec_advanced ht).seq⟩
    rw [step_busy hinv.legal hseq hdecode, ht, andThen_next]

end Sys2Proof.Machine

/-! Sound states: reset is one, and every step keeps them (10_state.md R24, R26, R37, R48; 40_primitives.md R133,
R143; 70_reset_and_hazards.md R322). -/

namespace Sys2Proof.Machine

-- One proof after another, not side by side: the check's memory limit leaves no room for more threads.
set_option deprecated.oldSectionVars true

/-! ## One store -/

/-- What `Inv` asks of one store: canonical form, capacity, no entry from the future (R133(g), R143). -/
structure StoreSound {ν : Type} (ttl cap now : Nat) (t : Table ν) : Prop where
  wf : Table.wf t = true
  capacity : Table.count ttl now t ≤ cap
  stamps : ∀ e ∈ t, e.stamp ≤ now

theorem StoreSound.nil {ν : Type} (ttl cap now : Nat) : StoreSound ttl cap now ([] : Table ν) :=
  ⟨Table.wf_nil, Nat.zero_le cap, nofun⟩

theorem StoreSound.set {ν : Type} {ttl cap now : Nat} {t : Table ν} (h : StoreSound ttl cap now t) (k : Nat) (v : ν) :
    StoreSound ttl cap now (Table.set ttl cap now k v t).1 :=
  ⟨Table.wf_set h.wf, Table.count_set_le h.wf h.capacity, Table.stamps_set h.stamps⟩

theorem StoreSound.delete {ν : Type} {ttl cap now : Nat} {t : Table ν} (h : StoreSound ttl cap now t) (k : Nat) :
    StoreSound ttl cap now (Table.delete k t) :=
  ⟨Table.wf_delete h.wf, Nat.le_trans (Table.count_delete_le t) h.capacity, Table.stamps_delete h.stamps⟩

/-- Time alone keeps a store sound: entries only expire. -/
theorem StoreSound.later {ν : Type} {ttl cap now later : Nat} {t : Table ν} (h : StoreSound ttl cap now t)
    (hle : now ≤ later) : StoreSound ttl cap later t :=
  ⟨h.wf, Nat.le_trans (Table.count_le_of_later hle t) h.capacity, fun e he => Nat.le_trans (h.stamps e he) hle⟩

/-! ## The four stores -/

/-- The part of `Inv` that speaks of the stores. -/
structure StoresSound (s : State) : Prop where
  arp : StoreSound s.cfg.arpTimeout s.cfg.arpTableCap s.now s.arpTable
  pending : StoreSound s.cfg.arpPendingTimeout s.cfg.arpPendingCap s.now s.arpPending
  registry : StoreSound 0 s.cfg.registryCap s.now s.registry
  ports : StoreSound 0 s.cfg.portTableCap s.now s.portTable
  exclusive : neverBoth s

theorem StoresSound.of_inv {s : State} (h : Inv s) : StoresSound s := by
  obtain ⟨hwfArp, hwfPending, hwfRegistry, hwfPorts⟩ := Memory.wf_iff.1 h.memory
  obtain ⟨hcapArp, hcapPending, hcapRegistry, hcapPorts⟩ := h.capacity
  obtain ⟨hpastArp, hpastPending, hpastRegistry, hpastPorts⟩ := h.stamps
  exact ⟨⟨hwfArp, hcapArp, hpastArp⟩, ⟨hwfPending, hcapPending, hpastPending⟩,
    ⟨hwfRegistry, hcapRegistry, hpastRegistry⟩, ⟨hwfPorts, hcapPorts, hpastPorts⟩, h.exclusive⟩

/-- What is left of `Inv` where the stores are sound. -/
theorem StoresSound.inv {s : State} (h : StoresSound s) (hlegal : s.cfg.legal = true) (hboot : bootOrder s)
    (hsequencer : sequencerSound s) (hscratch : scratchBounded s) : Inv s where
  legal := hlegal
  memory := Memory.wf_iff.2 ⟨h.arp.wf, h.pending.wf, h.registry.wf, h.ports.wf⟩
  capacity := ⟨h.arp.capacity, h.pending.capacity, h.registry.capacity, h.ports.capacity⟩
  stamps := ⟨h.arp.stamps, h.pending.stamps, h.registry.stamps, h.ports.stamps⟩
  exclusive := h.exclusive
  boot := hboot
  sequencer := hsequencer
  scratch := hscratch

/-- An update of nothing that `StoresSound` speaks of. -/
theorem StoresSound.congr {s t : State} (h : StoresSound s) (hcfg : t.cfg = s.cfg) (hnow : t.now = s.now)
    (harp : t.arpTable = s.arpTable) (hpending : t.arpPending = s.arpPending) (hregistry : t.registry = s.registry)
    (hports : t.portTable = s.portTable) : StoresSound t := by
  obtain ⟨ha, hp, hr, hu, hexclusive⟩ := h
  refine ⟨?_, ?_, ?_, ?_, fun ip => ?_⟩
  · rwa [hcfg, hnow, harp]
  · rwa [hcfg, hnow, hpending]
  · rwa [hcfg, hnow, hregistry]
  · rwa [hcfg, hnow, hports]
  · rw [arpLookup, pendingLookup, hcfg, hnow, harp, hpending]
    exact hexclusive ip

/-- Time alone keeps the stores sound. -/
theorem StoresSound.later {s : State} (h : StoresSound s) {time : Nat} (hle : s.now ≤ time) :
    StoresSound { s with now := time } where
  arp := h.arp.later hle
  pending := h.pending.later hle
  registry := h.registry.later hle
  ports := h.ports.later hle
  exclusive ip := (h.exclusive ip).imp (arpLookup_none_later hle) (pendingLookup_none_later hle)

/-- A packet is parked only for an IP without an address, so the two tables stay apart (10_state.md R37). -/
theorem StoresSound.park {s : State} (h : StoresSound s) {ip : Ip} (hnone : arpLookup ip s = none) (buf : Bytes) :
    StoresSound (park ip buf s) where
  arp := h.arp
  pending := h.pending.set (ipKey ip) buf
  registry := h.registry
  ports := h.ports
  exclusive a := by
    have harp : arpLookup a (Machine.park ip buf s) = arpLookup a s := rfl
    rw [harp]
    by_cases ha : a = ip
    · rw [ha]
      exact .inl hnone
    · have hpending : pendingLookup a (Machine.park ip buf s) = pendingLookup a s :=
        Table.get_set_other buf (ipKey_ne ha) s.arpPending
      rw [hpending]
      exact h.exclusive a

theorem arpLearnAndAnswer_arpTable (op : BitVec 16) (p : ArpOperands) (s : State) :
    (arpLearnAndAnswer op p s).arpTable = (arpLearn p.senderIp p.senderMac s).arpTable := by
  rcases arpLearnAndAnswer_cases op p s with ⟨_, _, he⟩ | ⟨_, _, _, he⟩ | ⟨_, _, he⟩ <;> rw [he]
  · rw [unpark_arpTable, ethTx_arpTable]
  · rw [arpReply_arpTable]

theorem arpLearnAndAnswer_arpPending (op : BitVec 16) (p : ArpOperands) (s : State) :
    (arpLearnAndAnswer op p s).arpPending = Table.delete (ipKey p.senderIp) s.arpPending ∨
    (arpLearnAndAnswer op p s).arpPending = s.arpPending := by
  rcases arpLearnAndAnswer_cases op p s with ⟨_, _, he⟩ | ⟨_, _, _, he⟩ | ⟨_, _, he⟩ <;> rw [he]
  · exact .inl rfl
  · exact .inr rfl
  · exact .inr rfl

/-- Right after an ARP packet the other addresses are known as before. -/
theorem ArpHandled.arpLookup_other {op : BitVec 16} {p : ArpOperands} {s t : State} (h : ArpHandled op p s t) {a : Ip}
    (ha : a ≠ p.senderIp) : arpLookup a t = arpLookup a s := by
  have hlearned := h.learned a s.now (Nat.le_refl _)
  rw [if_neg (fun hc => ha hc.1), ← h.now] at hlearned
  rw [hlearned, h.now]

/-- Right after an ARP packet the packets parked for other addresses are parked as before. -/
theorem ArpHandled.pendingLookup_other {op : BitVec 16} {p : ArpOperands} {s t : State} (h : ArpHandled op p s t)
    {a : Ip} (ha : a ≠ p.senderIp) : pendingLookup a t = pendingLookup a s := by
  have hflushed := h.flushed a s.now (Nat.le_refl _)
  rw [if_neg ha, ← h.now] at hflushed
  rw [hflushed, h.now]

/-- Learning an address flushes what is parked for it, so the two tables stay apart (10_state.md R37). -/
theorem StoresSound.arpLearnAndAnswer {s : State} (h : StoresSound s) (op : BitVec 16) (p : ArpOperands) :
    StoresSound (arpLearnAndAnswer op p s) := by
  have hhandled := arpHandled_arpLearnAndAnswer op p s
  refine ⟨?_, ?_, ?_, ?_, fun a => ?_⟩
  · rw [hhandled.cfg, hhandled.now, arpLearnAndAnswer_arpTable]
    exact h.arp.set (ipKey p.senderIp) p.senderMac
  · rw [hhandled.cfg, hhandled.now]
    rcases arpLearnAndAnswer_arpPending op p s with he | he <;> rw [he]
    · exact h.pending.delete (ipKey p.senderIp)
    · exact h.pending
  · rw [hhandled.rest]; exact h.registry
  · rw [hhandled.rest]; exact h.ports
  · by_cases ha : a = p.senderIp
    · exact .inr (ha ▸ hhandled.pendingLookup_sender)
    · rw [hhandled.arpLookup_other ha, hhandled.pendingLookup_other ha]
      exact h.exclusive a

/-! ## Every instruction -/

theorem storesSound_closed : Closed (fun s t => StoresSound s → StoresSound t) where
  refl _ := id
  trans h h' := h' ∘ h
  emit _ _ h := h.congr rfl rfl rfl rfl rfl rfl
  setIpId _ _ h := h.congr rfl rfl rfl rfl rfl rfl
  park _ buf _ hnone h := h.park hnone buf
  learnAnswer op p _ h := h.arpLearnAndAnswer op p
  registrySet p x _ h := ⟨h.arp, h.pending, h.registry.set p.toNat x, h.ports, h.exclusive⟩
  portSet p x _ h := ⟨h.arp, h.pending, h.registry, h.ports.set p.toNat x, h.exclusive⟩
  portDelete p _ h := ⟨h.arp, h.pending, h.registry, h.ports.delete p.toNat, h.exclusive⟩
  reactions _ _ h := h.congr rfl rfl rfl rfl rfl rfl
  draws _ _ h := h.congr rfl rfl rfl rfl rfl rfl

theorem exec_storesSound {i : Instr} {s t : State} (h : exec i s = .next t) (hs : StoresSound s) : StoresSound t :=
  exec_closed storesSound_closed (fun _ _ h => h.congr rfl rfl rfl rfl rfl rfl)
    (fun _ h => h.congr rfl rfl rfl rfl rfl rfl) (fun _ _ h => h.congr rfl rfl rfl rfl rfl rfl)
    (fun _ _ _ h => h.congr rfl rfl rfl rfl rfl rfl) h hs

/-! ## The rest of the invariant -/

theorem bootOrder_of_inited {s : State} (h : s.inited = true) : bootOrder s ↔
    (registryLookup s.cfg.ethertypeArp s).isSome ∧ (registryLookup s.cfg.ethertypeIp s).isSome ∧
      (registryLookup (s.cfg.ipprotoUdp.setWidth 16) s).isSome := by
  rw [bootOrder, if_pos h]

/-- `INIT` on the empty registry of a block that has not run it, any other command after it (R26). -/
theorem exec_bootOrder {i : Instr} {s t : State} (hlegal : s.cfg.legal = true) (hboot : bootOrder s)
    (horder : i = .init ↔ s.inited = false) (h : exec i s = .next t) : bootOrder t := by
  cases hinited : s.inited with
  | true =>
    have hadvanced := exec_advanced h
    obtain ⟨harp, hip, hudp⟩ := (bootOrder_of_inited hinited).1 hboot
    rw [bootOrder_of_inited (hadvanced.inited hinited), hadvanced.cfg]
    exact ⟨hadvanced.registered _ harp, hadvanced.registered _ hip, hadvanced.registered _ hudp⟩
  | false =>
    rw [bootOrder, if_neg (by simp [hinited])] at hboot
    obtain ⟨_, _, hempty, _, _⟩ := hboot
    rw [horder.2 hinited, exec_init, execInit_eq] at h
    cases h
    have hlookup := registryLookup_initRegistrations hlegal hempty
    obtain ⟨_, hip, hudpArp, hudpIp⟩ := init_keys_of_legal hlegal
    rw [bootOrder_of_inited rfl]
    refine ⟨?_, ?_, ?_⟩
    · exact (congrArg Option.isSome (hlookup s.cfg.ethertypeArp)).trans (by simp)
    · exact (congrArg Option.isSome (hlookup s.cfg.ethertypeIp)).trans (by simp [hip])
    · exact (congrArg Option.isSome (hlookup (s.cfg.ipprotoUdp.setWidth 16))).trans (by simp [hudpArp, hudpIp])

theorem staleBytes_length_le (draw bound : Nat) : (staleBytes draw bound).length ≤ bound := by
  simp [staleBytes]

/-- A completed command leaves at most a frame in each scratch buffer. -/
theorem scratchBounded_settle (s : State) : scratchBounded (settle s) :=
  ⟨staleBytes_length_le s.draws _, staleBytes_length_le (s.draws + 1) _⟩

/-- Acceptance moves time on and pushes a legal command. -/
theorem accept_inv {s t : State} (h : Inv s) (haccept : accept s = .next t) : Inv t := by
  rcases accept_eq_next haccept with ⟨_, rfl⟩ | ⟨r, rs, i, _, hdecode, hcommand, htime, horder, hoperands, rfl⟩
  · exact h
  · have hstores := ((StoresSound.of_inv h).later htime).congr
      (t := { s with hostPort := rs, now := r.now, seq := [⟨.operation, r.bytes⟩] }) rfl rfl rfl rfl rfl rfl
    refine hstores.inv h.legal ?_ (.inr ?_) h.scratch
    · have hboot := h.boot
      simp only [bootOrder, registryLookup, Table.get, Table.live_zero] at hboot ⊢
      exact hboot
    · exact ⟨r.bytes, i, rfl, hdecode, hcommand, (operandRefusal_eq_none_iff hcommand).1 hoperands,
        (orderRefusal_eq_none_iff i s.inited).1 horder⟩

/-- A command run to completion leaves an empty sequencer. -/
theorem exec_inv {i : Instr} {s t : State} (h : Inv s) (hidle : s.seq = []) (horder : i = .init ↔ s.inited = false)
    (hexec : exec i s = .next t) : Inv (settle t) := by
  have hadvanced := exec_advanced hexec
  have hstores := (exec_storesSound hexec (.of_inv h)).congr (t := settle t) rfl rfl rfl rfl rfl rfl
  refine hstores.inv ?_ ?_ (.inl ?_) (scratchBounded_settle t)
  · rw [settle_cfg, hadvanced.cfg]; exact h.legal
  · exact exec_bootOrder (t := t) h.legal h.boot horder hexec
  · rw [settle_seq, hadvanced.seq, hidle]

/-- The command on the sequencer taken off, the rest of the invariant stays. -/
theorem Inv.idle {s : State} (h : Inv s) : Inv { s with seq := [] } :=
  ⟨h.legal, h.memory, h.capacity, h.stamps, h.exclusive, h.boot, .inl rfl, h.scratch⟩

/-! ## The statements -/

/-- Settles O12: every store is empty. -/
theorem resetSound : Obligations.ResetSound := by
  intro cfg hlegal
  have hstores : StoresSound (State.resetWith cfg) := ⟨.nil .., .nil .., .nil .., .nil .., fun _ => .inl rfl⟩
  exact hstores.inv hlegal ⟨rfl, rfl, rfl, rfl, rfl⟩ (.inl rfl) ⟨Nat.zero_le _, Nat.zero_le _⟩

/-- Settles O13: a step accepts (`accept_inv`), or runs the one command on the sequencer (`exec_inv`). -/
theorem stepKeepsSound : Obligations.StepKeepsSound := by
  intro s t h hstep
  obtain ⟨_, ⟨_, haccept⟩ | ⟨f, rest, i, u, hseq, hdecode, hexec, rfl⟩⟩ := step_eq_next hstep
  · exact accept_inv h haccept
  · obtain hidle | ⟨b, j, hb, hj, _, _, horder⟩ := h.sequencer
    · rw [hidle] at hseq; cases hseq
    · rw [hb] at hseq
      cases hseq
      obtain rfl : j = i := Except.ok.inj (hj.symm.trans hdecode)
      exact exec_inv h.idle rfl horder hexec

end Sys2Proof.Machine
